-- ==== Sys2Proof/Word.lean ====
section
/-! DEFINITION. The widths of 00_scope.md R7 as types. -/

namespace Sys2Proof

/-- A 32-bit register value or command word (REG_W, R7). -/
abbrev Word := BitVec 32

/-- A byte, and a symbol (SYMBOL_W, R7). -/
abbrev Byte := BitVec 8

/-- A node handle, 0 to 510 (R28). -/
abbrev Handle := BitVec 9

/-- A node frequency (NODE_FREQ_W, R7). -/
abbrev NodeFreq := BitVec 40

/-- A host byte offset (HOST_ADDR_W, R7). -/
abbrev HostOff := BitVec 17

/-- A bit string: the first bit emitted or consumed is the head of the list (R10). -/
abbrev Bits := List Bool

end Sys2Proof
end

