-- ==== Sys2Proof/Syntax.lean ====
section
/-! DEFINITION. The commands of HUFFCORE-CMD version 1: one constructor per row of spec/opcode_table.json. -/

namespace Sys2Proof

/-- A command (30_encoding.md R91). Its operands come from fixed registers (R93, R94); the one field of the word
with a meaning is LAST, of DECODE. -/
inductive Instr where
  | nop
  | clear
  | build
  | gencodes
  | serialize
  | deserialize
  | encode
  | flush
  | decode (last : Bool)
  deriving DecidableEq, Repr

end Sys2Proof
end

