-- ==== Sys2Proof/WellFormed.lean ====
section
/-! DEFINITION. Well-formed command words, by the match and mask table of 30_encoding.md R91, and well-formed commands. -/

namespace Sys2Proof

/-- One row of R91's second table: `w` selects the row exactly when `w AND mask = match`. -/
structure EncodingRow where
  mnemonic : String
  matchWord : Word
  mask : Word
  deriving DecidableEq, Repr

/-- The table of exact match and mask, row by row (R91). -/
def encodingTable : List EncodingRow :=
  [⟨"NOP", 0x00000000, 0xFFFFFFFF⟩,
   ⟨"CLEAR", 0x00000001, 0xFFFFFFFF⟩,
   ⟨"BUILD", 0x00000002, 0xFFFFFFFF⟩,
   ⟨"GENCODES", 0x00000003, 0xFFFFFFFF⟩,
   ⟨"SERIALIZE", 0x00000004, 0xFFFFFFFF⟩,
   ⟨"DESERIALIZE", 0x00000005, 0xFFFFFFFF⟩,
   ⟨"ENCODE", 0x00000006, 0xFFFFFFFF⟩,
   ⟨"FLUSH", 0x00000007, 0xFFFFFFFF⟩,
   ⟨"DECODE", 0x00000008, 0xFFFFFEFF⟩]

/-- The word selects the row (R91). -/
def EncodingRow.selects (r : EncodingRow) (w : Word) : Bool := w &&& r.mask == r.matchWord

/-- A well-formed command word: some row of the table selects it (R91). Every other word is illegal (R95). -/
def wordWellFormed (w : Word) : Bool := encodingTable.any (fun r => r.selects w)

/-- Every term of `Instr` is a well-formed command: LAST is one bit and belongs to DECODE alone (R90), so the syntax
itself leaves nothing to check. -/
def Instr.wellFormed : Instr → Bool
  | .nop => true
  | .clear => true
  | .build => true
  | .gencodes => true
  | .serialize => true
  | .deserialize => true
  | .encode => true
  | .flush => true
  | .decode _ => true

end Sys2Proof
end

