-- ==== Sys2Proof/Decode.lean ====
section
/-! DEFINITION. Decoding (30_encoding.md R92), the encoder (R91), and the host's reading of a table word. -/

namespace Sys2Proof

/-- Why a word is no command. R92 has one verdict. -/
inductive DecodeError where
  | badOpcode
  deriving DecidableEq, Repr

/-- Field OP, bits 3:0 (R90). -/
def opField (w : Word) : BitVec 4 := w.extractLsb' 0 4

/-- Field LAST, bit 8 (R90). -/
def lastField (w : Word) : Bool := w.getLsbD 8

/-- The reserved fields, bits 7:4 and 31:9, are zero (R90). -/
def reservedZero (w : Word) : Bool := w.extractLsb' 4 4 == 0#4 && w.extractLsb' 9 23 == 0#23

/-- The command of an OP value and a LAST bit; OP 0x9 to 0xF, and LAST with an OP other than DECODE, are illegal
(R91, R92, R95). -/
def decodeOp (op : BitVec 4) (last : Bool) : Except DecodeError Instr :=
  if last && op != 0x8#4 then .error .badOpcode
  else
    match op.toNat with
    | 0x0 => .ok .nop
    | 0x1 => .ok .clear
    | 0x2 => .ok .build
    | 0x3 => .ok .gencodes
    | 0x4 => .ok .serialize
    | 0x5 => .ok .deserialize
    | 0x6 => .ok .encode
    | 0x7 => .ok .flush
    | 0x8 => .ok (.decode last)
    | _ => .error .badOpcode

/-- `Decode(w)` (R92): total on every 32-bit word. -/
def decodeWord (w : Word) : Except DecodeError Instr :=
  if reservedZero w then decodeOp (opField w) (lastField w) else .error .badOpcode

/-- The word of a command (R91, R97). -/
def encodeInstr : Instr → Word
  | .nop => 0x00000000
  | .clear => 0x00000001
  | .build => 0x00000002
  | .gencodes => 0x00000003
  | .serialize => 0x00000004
  | .deserialize => 0x00000005
  | .encode => 0x00000006
  | .flush => 0x00000007
  | .decode false => 0x00000008
  | .decode true => 0x00000108

/-- The command word that a row of spec/opcode_table.json gives as its `nbits` low bits, the rest zero. -/
def tableWord (nbits w : Nat) : Word := BitVec.ofNat 32 (w % 2 ^ nbits)

/-- The instruction the decoder reads from a word numbered as spec/opcode_table.json numbers it. -/
def decodeTableWord (nbits w : Nat) : Option Instr :=
  match decodeWord (tableWord nbits w) with
  | .ok i => some i
  | .error _ => none

end Sys2Proof
end

