-- ==== Sys2Proof/Config.lean ====
section
/-! DEFINITION. What an implementation fixes, and the values the spec leaves free (`any`, 00_scope.md R11). -/

namespace Sys2Proof.Config

/-- The parameter LMEM_SIZE of 00_scope.md R7: a multiple of 4 from 4 to 65536, held as the index of LMEM's last
32-bit word, so that no other size can be written. -/
structure LmemSize where
  lastWord : Fin 16384
  deriving DecidableEq, Repr

/-- LMEM_SIZE in bytes. -/
def LmemSize.bytes (z : LmemSize) : Nat := 4 * (z.lastWord.val + 1)

/-- The spec's default, 65536 bytes (R7). -/
def defaultLmemSize : LmemSize := ⟨⟨16383, by decide⟩⟩

/-- MAX_NODES of R7. -/
def maxNodes : Nat := 511

/-- MAX_INTERNAL of R7. -/
def maxInternal : Nat := 255

/-- A byte that reads `any` (R11): the draw at place `k` of the event numbered `n`. Nothing constrains it. (log 3) -/
opaque freeByte (n k : Nat) : Byte

/-- A 32-bit word that reads `any` (R11). (log 3) -/
opaque freeWord (n k : Nat) : Word

/-- The fields of a node or of a code entry that reads `any` (R11), as one bit pattern. (log 3) -/
opaque freeFields (n k : Nat) : BitVec 263

end Sys2Proof.Config
end

