-- ==== Sys2Proof/Machine/Bits.lean ====
section
/-! DEFINITION. Bit strings and bytes, MSB first (00_scope.md R10; 20_memory.md R68). -/

namespace Sys2Proof.Machine

/-- `byteToBits(v)` = [v[7], …, v[0]] (R10). -/
def byteToBits (v : Byte) : Bits :=
  [v.getLsbD 7, v.getLsbD 6, v.getLsbD 5, v.getLsbD 4, v.getLsbD 3, v.getLsbD 2, v.getLsbD 1, v.getLsbD 0]

/-- The number a bit string spells, its first bit the most significant. -/
def bitsToNat (b : Bits) : Nat := b.foldl (fun acc bit => 2 * acc + bit.toNat) 0

/-- `bitsToByte(b)`, for a string of 8 bits (R10). -/
def bitsToByte (b : Bits) : Byte := BitVec.ofNat 8 (bitsToNat b)

/-- `b` with zero bits on the right, up to `n` bits. -/
def padRight (n : Nat) (b : Bits) : Bits := b ++ List.replicate (n - b.length) false

/-- `ceil(n / 8)`: the bytes that hold `n` bits. -/
def bytesFor (n : Nat) : Nat := (n + 7) / 8

/-- `b` padded with zero bits to a byte boundary (43_tree_serializer.md R154). -/
def padToByte (b : Bits) : Bits := padRight (8 * bytesFor b.length) b

/-- The bytes of a string of whole bytes, in order: byte i is `bitsToByte(b[8i .. 8i+8))` (R10). -/
def packBytes : Bits → List Byte
  | b0 :: b1 :: b2 :: b3 :: b4 :: b5 :: b6 :: b7 :: rest =>
    bitsToByte [b0, b1, b2, b3, b4, b5, b6, b7] :: packBytes rest
  | _ => []

/-- `b` left-aligned in a field of `n` bits: its first bit is the field's most significant (R29, R35). -/
def leftAligned (n : Nat) (b : Bits) : Nat := bitsToNat (padRight n b)

end Sys2Proof.Machine
end

