-- ==== Sys2Proof/Machine/State.lean ====
section
/-! DEFINITION. The state of the block (10_state.md), the events that step it, and the reasons a step can stop. -/

namespace Sys2Proof.Machine

/-- What an array entry holds. `unspecified` is the spec's own state of an entry that reset (70_reset_and_hazards.md
R241) has left without contents: each read of it returns `any` until the first write. (log 2) -/
inductive Contents (α : Type) where
  | unspecified
  | written (v : α)
  deriving DecidableEq, Repr

/-- A node of the arena (R28), the source's tagged union of a Leaf and an Internal. -/
inductive Node where
  | leaf (freq : NodeFreq) (symbol : Byte)
  | internal (freq : NodeFreq) (left right : Handle)
  deriving DecidableEq, Repr

/-- One host access (20_memory.md R60). -/
inductive Access where
  | read32 (off : HostOff)
  | write32 (off : HostOff) (v : Word)
  | read8 (off : HostOff)
  | write8 (off : HostOff) (v : Byte)
  deriving DecidableEq, Repr

/-- One event of the total order of R73: a host access, a turn of the engine, or reset. (log 5) -/
inductive Event where
  | access (a : Access)
  | engine
  | reset
  deriving DecidableEq, Repr

/-- The value a host read returns (R60). -/
inductive Response where
  | word (v : Word)
  | byte (v : Byte)
  deriving DecidableEq, Repr

/-- The local memory LMEM (20_memory.md R62): the bytes that have been written since reset, addresses strictly rising.
An address that is not listed reads `any` (R241, R213), so no listed byte equals what an unlisted address reads as. -/
abbrev Memory := List Host.Cell

/-- The state of the block, and what the model adds to it (the last three fields). -/
structure State where
  /-- PENDING (R21): the accepted command word that has not been performed. BUSY is 1 exactly when it is not none. -/
  pending : Option Word
  /-- CTRL.DONE_IE (R24). -/
  doneIE : Bool
  /-- CTRL.ERR_IE (R24). -/
  errIE : Bool
  /-- STATUS.DONE (R25). -/
  done : Bool
  /-- STATUS.ERR (R25). -/
  err : Bool
  /-- STATUS.BUSY_VIOL (R25). -/
  busyViol : Bool
  /-- STATUS.TREE_VALID (R25). -/
  treeValid : Bool
  /-- STATUS.CODES_VALID (R25). -/
  codesValid : Bool
  /-- CMD_LAST, the last accepted command word (R26). -/
  cmdLast : Word
  /-- ERR_CODE (R30). -/
  errCode : BitVec 8
  /-- ERR_INFO (R30). -/
  errInfo : Word
  /-- SRC_ADDR (R31). -/
  srcAddr : Word
  /-- SRC_LEN (R31). -/
  srcLen : Word
  /-- DST_ADDR (R31). -/
  dstAddr : Word
  /-- DST_LEN (R31). -/
  dstLen : Word
  /-- PAD_IN (R32). -/
  padIn : BitVec 8
  /-- RESULT_LEN (R33). -/
  resultLen : Word
  /-- PAD_OUT (R34). -/
  padOut : BitVec 3
  /-- PK, the packer's shift register (R35). -/
  pk : Bits
  /-- NUM_SYMS (R36). -/
  numSyms : BitVec 9
  /-- NODE_COUNT (R36). -/
  nodeCount : BitVec 10
  /-- ROOT (R36). -/
  root : Handle
  /-- DEC_NODE (R38). -/
  decNode : Handle
  /-- FREQ[0..255] (R27). -/
  freq : Vector (Contents Word) 256
  /-- NODE[0..510] (R28): entry h of the list is NODE[h]; the handles past its end are unspecified (R241). (log 14) -/
  node : List Node
  /-- CODE[0..255] (R29): BITS of each entry, whose length is LEN. -/
  code : Vector (Contents Bits) 256
  /-- LMEM (20_memory.md R62). -/
  lmem : Memory
  /-- LMEM_SIZE (R39), the parameter of R7; no step changes it. (log 1) -/
  lmemSize : Config.LmemSize
  /-- The model's own: the events still to come, the next one first. (log 5) -/
  agenda : List Event
  /-- The model's own: the values the host's reads have returned, the latest first. (log 7) -/
  returned : List Response
  /-- The model's own: the number of events so far, by which the free values are keyed. (log 3) -/
  draws : Nat
  deriving DecidableEq, Repr

/-- Why the machine stops with a fault. -/
inductive Fault where
  /-- Raised by GENCODES and SERIALIZE when TREE_VALID = 1 and the walk from ROOT does not end: the handles reached go
  round in a cycle, or deeper than the arena has nodes. R44 rules this state out, and no command rule says what the
  walk does there. Safe: the model stops where the hardware would have to be described. (log 11) -/
  | endlessWalk
  deriving DecidableEq, Repr

/-- Why a step has no meaning. -/
inductive Refusal where
  /-- Raised by `exec` for an instruction that has no meaning yet. Safe. (No arm of `exec` raises it.) -/
  | notModelled (mnemonic : String)
  /-- Raised by a host access of the wrong width or alignment (20_memory.md R63; 93_implementation_defined.md U1:
  refuse). Safe. -/
  | illegalAccess (a : Access)
  deriving DecidableEq, Repr

/-- The machine right after reset (70_reset_and_hazards.md R241, R242), at the default LMEM_SIZE (log 1), with nothing on
the agenda (log 5). -/
def State.reset : State where
  pending := none
  doneIE := false
  errIE := false
  done := false
  err := false
  busyViol := false
  treeValid := false
  codesValid := false
  cmdLast := 0
  errCode := 0
  errInfo := 0
  srcAddr := 0
  srcLen := 0
  dstAddr := 0
  dstLen := 0
  padIn := 0
  resultLen := 0
  padOut := 0
  pk := []
  numSyms := 0
  nodeCount := 0
  root := 0
  decNode := 0
  freq := Vector.replicate 256 .unspecified
  node := []
  code := Vector.replicate 256 .unspecified
  lmem := []
  lmemSize := Config.defaultLmemSize
  agenda := []
  returned := []
  draws := 0

end Sys2Proof.Machine
end

