-- ==== Sys2Proof/Machine/Ops.lean ====
section
/-! DEFINITION. The named operations over LMEM and the arrays, the free values, and the ends of a command: completion
(40_control.md R113) and ErrorCompletion (60_exceptions.md R214), the block's one way of taking an error. -/

namespace Sys2Proof.Machine

/-! ## LMEM -/

/-- The canonical form of LMEM: listed addresses strictly rise. (No entry can equal what an unlisted address reads as:
that is `any`, a free value.) -/
def Memory.wf : Memory → Bool
  | [] => true
  | [_] => true
  | (a, _) :: (b, v) :: m => decide (a < b) && Memory.wf ((b, v) :: m)

/-- The byte written at an address, if any since reset. -/
def Memory.get : Memory → Nat → Option Byte
  | [], _ => none
  | (k, v) :: m, a => if k = a then some v else Memory.get m a

/-- Write one byte, keeping the canonical form. -/
def Memory.set : Memory → Nat → Byte → Memory
  | [], a, v => [(a, v)]
  | (k, w) :: m, a, v =>
    if a < k then (a, v) :: (k, w) :: m
    else if a = k then (a, v) :: m
    else (k, w) :: Memory.set m a v

/-- Write bytes at rising addresses from `a` on, in order. -/
def Memory.setBytes : Memory → Nat → List Byte → Memory
  | m, _, [] => m
  | m, a, v :: vs => Memory.setBytes (Memory.set m a v) (a + 1) vs

/-- Make the bytes of [a, a + len) read `any` again (R213). -/
def Memory.forget (m : Memory) (a len : Nat) : Memory :=
  m.filter (fun c => !(decide (a ≤ c.1) && decide (c.1 < a + len)))

/-- `MemRead(a, 1)` (R11): the byte at an LMEM address. An address that has not been written since reset, or since an
aborted command had it as destination, reads `any` (R62, R213): the free byte at place `k` of the present event. This
is the ONE definition of what an unlisted address reads as. (log 2, log 3) -/
def memRead (s : State) (k a : Nat) : Byte :=
  match Memory.get s.lmem a with
  | some v => v
  | none => Config.freeByte s.draws k

/-- `StreamBit(base, j)` (R11): bit j of the byte stream at `base`, MSB first. -/
def streamBit (s : State) (base j : Nat) : Bool := (memRead s j (base + j / 8)).getLsbD (7 - j % 8)

/-- `RangeOK(addr, len)` (20_memory.md R81), on unbounded integers. -/
def rangeOK (s : State) (addr len : Word) : Bool := decide (addr.toNat + len.toNat ≤ s.lmemSize.bytes)

/-- `Overlap(sa, sl, da, dl)` (20_memory.md R82), on unbounded integers. -/
def overlap (sa sl da dl : Word) : Bool :=
  decide (0 < sl.toNat) && decide (0 < dl.toNat) && decide (sa.toNat < da.toNat + dl.toNat) &&
    decide (da.toNat < sa.toNat + sl.toNat)

/-! ## The arrays -/

/-- IS_LEAF of a node (R28). -/
def Node.isLeaf : Node → Bool
  | .leaf _ _ => true
  | .internal _ _ _ => false

/-- FREQ of a node (R28). -/
def Node.freq : Node → NodeFreq
  | .leaf f _ => f
  | .internal f _ _ => f

/-- LEFT of a node; BUILD and DESERIALIZE write 0 in a leaf (R131, R157). -/
def Node.left : Node → Handle
  | .leaf _ _ => 0
  | .internal _ l _ => l

/-- RIGHT of a node; 0 in a leaf. -/
def Node.right : Node → Handle
  | .leaf _ _ => 0
  | .internal _ _ r => r

/-- SYMBOL of a node; 0 in an internal node. -/
def Node.symbol : Node → Byte
  | .leaf _ c => c
  | .internal _ _ _ => 0

/-- A node that reads `any`: each of its fields free. (log 12) -/
def freeNode (n k : Nat) : Node :=
  let f := Config.freeFields n k
  if f.getLsbD 262 then .leaf (f.extractLsb' 0 40) (f.extractLsb' 40 8)
  else .internal (f.extractLsb' 0 40) (f.extractLsb' 48 9) (f.extractLsb' 57 9)

/-- A code entry that reads `any`: LEN and BITS free. (log 13) -/
def freeCode (n k : Nat) : Bits :=
  let f := Config.freeFields n k
  (List.range (f.extractLsb' 255 8).toNat).map (fun m => f.getLsbD m)

/-- What NODE[h] holds: nothing for a handle at or above NODE_COUNT, which reads `any` (R28). -/
def nodeAt (s : State) (h : Handle) : Option Node :=
  if h.toNat < s.nodeCount.toNat then s.node[h.toNat]? else none

/-- A command's read of NODE[h]. -/
def readNode (s : State) (h : Handle) : Node :=
  match nodeAt s h with
  | some n => n
  | none => freeNode s.draws h.toNat

/-- Read FREQ[c] (R27); an entry unspecified since reset reads `any` (R241): the free word at place `k`. -/
def readFreq (s : State) (k : Nat) (c : Byte) : Word :=
  match s.freq[c.toNat]'c.isLt with
  | .written v => v
  | .unspecified => Config.freeWord s.draws k

/-- A command's read of CODE[c].BITS (R29), LEN being its length. -/
def readCode (s : State) (c : Byte) : Bits :=
  match s.code[c.toNat]'c.isLt with
  | .written b => b
  | .unspecified => freeCode s.draws c.toNat

/-- The code table with no code: every LEN = 0 (R43). -/
def noCodes : Vector (Contents Bits) 256 := Vector.replicate 256 (.written [])

/-- `InvalidateTree()` (10_state.md R43). NODE contents are not written. -/
def invalidateTree (s : State) : State :=
  { s with
    treeValid := false, codesValid := false, code := noCodes, numSyms := 0, nodeCount := 0, root := 0,
    decNode := 0, pk := [] }

/-- Make the nodes written to handles 0, 1, … the current tree, of `k` leaves, with root `r`: the common end of BUILD
(R131) and DESERIALIZE (R157), after InvalidateTree. -/
def installTree (nodes : List Node) (k : Nat) (r : Handle) (s : State) : State :=
  { invalidateTree s with
    node := nodes ++ s.node.drop nodes.length, root := r, numSyms := BitVec.ofNat 9 k,
    nodeCount := BitVec.ofNat 10 nodes.length, decNode := r, treeValid := true }

/-! ## The ends of a command -/

/-- The errors of 60_exceptions.md R210. -/
inductive ErrCode where
  | badOpcode
  | emptyTable
  | noTree
  | noCodes
  | srcRange
  | dstRange
  | overlap
  | badPad
  | dstOverflow
  | symbolNotInTable
  | treeTruncated
  | dupSymbol
  | treeTooLarge
  | invalidCode
  | incompleteCode
  deriving DecidableEq, Repr

/-- The code ERR_CODE holds (R210). -/
def ErrCode.toByte : ErrCode → BitVec 8
  | .badOpcode => 0x01
  | .emptyTable => 0x02
  | .noTree => 0x03
  | .noCodes => 0x04
  | .srcRange => 0x05
  | .dstRange => 0x06
  | .overlap => 0x07
  | .badPad => 0x08
  | .dstOverflow => 0x09
  | .symbolNotInTable => 0x0A
  | .treeTruncated => 0x0B
  | .dupSymbol => 0x0C
  | .treeTooLarge => 0x0D
  | .invalidCode => 0x0E
  | .incompleteCode => 0x0F

/-- The class of an error (R212, R213); an Abort names the command, whose row of R213 applies. -/
inductive ErrClass where
  | reject
  | abortDeserialize
  | abortEncode
  | abortDecode
  deriving DecidableEq, Repr

/-- `raise Reject(CODE, info)` or `raise Abort(CODE, info)` (R11). -/
structure CmdError where
  cls : ErrClass
  code : ErrCode
  info : Word
  deriving DecidableEq, Repr

/-- `raise Reject(CODE, info)`, the detail given as a number. -/
def rejectError (c : ErrCode) (info : Nat) : CmdError := ⟨.reject, c, BitVec.ofNat 32 info⟩

/-- The destination range reads `any` until next written (R213). -/
def forgetDestination (s : State) : State :=
  { s with lmem := Memory.forget s.lmem s.dstAddr.toNat s.dstLen.toNat }

/-- The row of R213, applied to the state before the command; a Reject changes nothing (R212). -/
def abortRow : ErrClass → State → State
  | .reject, s => s
  | .abortDeserialize, s => invalidateTree s
  | .abortEncode, s => { forgetDestination s with pk := [] }
  | .abortDecode, s => { forgetDestination s with decNode := s.root }

/-- `ErrorCompletion(class, code, info)` (60_exceptions.md R214), `s` the state before the command. -/
def errorCompletion (e : CmdError) (s : State) : State :=
  { abortRow e.cls s with err := true, errCode := e.code.toByte, errInfo := e.info, resultLen := 0 }

/-- `Complete()` (40_control.md R113). -/
def complete (s : State) : State := { s with pending := none, done := true }

/-- The try and catch of `Perform` (40_control.md R114) around a body's result, and the completion. -/
def perform (result : Except CmdError State) (s : State) : State :=
  match result with
  | .ok t => complete t
  | .error e => complete (errorCompletion e s)

/-- The command a word that Decode refuses runs: a Reject with ERR_INFO = w (R92, R95). -/
def performBadOpcode (w : Word) (s : State) : State := perform (.error ⟨.reject, .badOpcode, w⟩) s

/-- Acknowledging an error (60_exceptions.md R219): what a STATUS write with bit 2 = 1 clears (10_state.md R30). The block
has no return from an exception; this stands in its place. -/
def acknowledgeError (s : State) : State := { s with err := false, errCode := 0, errInfo := 0 }

/-- Acceptance of a command word (40_control.md R111). It holds of the CLEAR of a run's clean entry too, where
70_reset_and_hazards.md R258 says otherwise of CMD_LAST: the model follows R111 and 10_state.md R26. (log 24) -/
def acceptCommand (w : Word) (s : State) : State := { s with cmdLast := w, pending := some w, done := false }

/-- Write the output bytes of a command from DST_ADDR on, in order, and their count to RESULT_LEN (R153, R172, R176,
R191). -/
def storeResult (out : List Byte) (s : State) : State :=
  { s with
    lmem := Memory.setBytes s.lmem s.dstAddr.toNat out, resultLen := BitVec.ofNat 32 out.length }

end Sys2Proof.Machine
end

