-- ==== Sys2Proof/Machine/Operands.lean ====
section
/-! DEFINITION. The operand forms of 30_encoding.md R93 and R94: the source range, the destination range, the pad count; and
the checks a command makes on them, in the order of 60_exceptions.md R215. -/

namespace Sys2Proof.Machine

/-- The source bytes, in address order: byte i is `MemRead(SRC_ADDR + i, 1)`. (log 16) -/
def sourceBytes (s : State) : List Byte :=
  (List.range s.srcLen.toNat).map (fun i => memRead s i (s.srcAddr.toNat + i))

/-- The first `n` bits of the source stream: bit j is `StreamBit(SRC_ADDR, j)`. (log 16) -/
def sourceBits (s : State) (n : Nat) : Bits := (List.range n).map (fun j => streamBit s s.srcAddr.toNat j)

/-- The source range fits in LMEM (R81). -/
def srcRangeOK (s : State) : Bool := rangeOK s s.srcAddr s.srcLen

/-- The destination range fits in LMEM (R81). -/
def dstRangeOK (s : State) : Bool := rangeOK s s.dstAddr s.dstLen

/-- Source and destination share a byte (R82). -/
def rangesOverlap (s : State) : Bool := overlap s.srcAddr s.srcLen s.dstAddr s.dstLen

/-- Checks 3 to 5 of R215, as ENCODE and DECODE make them: SRC_RANGE, then DST_RANGE, then OVERLAP. -/
def sourceDestError (s : State) : Option CmdError :=
  if !srcRangeOK s then some (rejectError .srcRange 0)
  else if !dstRangeOK s then some (rejectError .dstRange 0)
  else if rangesOverlap s then some (rejectError .overlap 0)
  else none

/-- The pad count of DECODE: PAD_IN, read only when LAST = 1 (R191). -/
def padCount (last : Bool) (s : State) : Nat := if last then s.padIn.toNat else 0

/-- Check 6 of R215 for DECODE: BAD_PAD, with ERR_INFO = PAD_IN (R191). -/
def badPad (last : Bool) (s : State) : Bool :=
  last && (decide (7 < s.padIn.toNat) || decide (8 * s.srcLen.toNat < s.padIn.toNat))

end Sys2Proof.Machine
end

