-- ==== Sys2Proof/Machine/BitPacker.lean ====
section
/-! DEFINITION. The bit_packer: ENCODE and FLUSH (44_bit_packer.md). -/

namespace Sys2Proof.Machine

/-- `raise Abort(CODE, info)` in ENCODE. -/
def abortEncode (c : ErrCode) (info : Nat) : CmdError := ⟨.abortEncode, c, BitVec.ofNat 32 info⟩

/-- The emission loop (R170, R172): while 8 bits or more are in the shift register, its first 8 go out as a byte. It answers
the bytes and the bits left, or nothing where a byte has no room (`written` bytes of `cap` are used). (log 15) -/
def emitBytes (cap : Nat) : (written : Nat) → Bits → Option (List Byte × Bits)
  | written, b0 :: b1 :: b2 :: b3 :: b4 :: b5 :: b6 :: b7 :: rest =>
    if written = cap then none
    else
      match emitBytes cap (written + 1) rest with
      | none => none
      | some (out, pk) => some (bitsToByte [b0, b1, b2, b3, b4, b5, b6, b7] :: out, pk)
  | _, pk => some ([], pk)

/-- The symbol loop of ENCODE (R172) from symbol `i` on: the bytes it emits and the bits it leaves in PK. (log 15) -/
def encodeLoop (s : State) : (i written : Nat) → (pk : Bits) → List Byte → Except CmdError (List Byte × Bits)
  | _, _, pk, [] => .ok ([], pk)
  | i, written, pk, c :: rest =>
    let bits := readCode s c
    if bits.isEmpty then .error (abortEncode .symbolNotInTable i)
    else
      match emitBytes s.dstLen.toNat written (pk ++ bits) with
      | none => .error (abortEncode .dstOverflow i)
      | some (out, pk1) =>
        match encodeLoop s (i + 1) (written + out.length) pk1 rest with
        | .error e => .error e
        | .ok (out2, pk2) => .ok (out ++ out2, pk2)

/-- The body of ENCODE (R172). -/
def encodeBody (s : State) : Except CmdError State :=
  if !s.codesValid then .error (rejectError .noCodes 0)
  else
    match sourceDestError s with
    | some e => .error e
    | none =>
      match encodeLoop s 0 0 s.pk (sourceBytes s) with
      | .error e => .error e
      | .ok (out, pk) => .ok { storeResult out s with pk := pk }

/-- ENCODE (R172). -/
def execEncode (s : State) : Host.Outcome State Fault Refusal := .next (perform (encodeBody s) s)

/-- The body of FLUSH (R176). -/
def flushBody (s : State) : Except CmdError State :=
  if !dstRangeOK s then .error (rejectError .dstRange 0)
  else if s.pk.isEmpty then .ok { s with padOut := 0, resultLen := 0 }
  else if s.dstLen.toNat = 0 then .error (rejectError .dstOverflow 1)
  else
    .ok { storeResult [bitsToByte (padRight 8 s.pk)] s with
      padOut := BitVec.ofNat 3 (8 - s.pk.length), pk := [] }

/-- FLUSH (R176). -/
def execFlush (s : State) : Host.Outcome State Fault Refusal := .next (perform (flushBody s) s)

end Sys2Proof.Machine
end

