-- ==== Sys2Proof/Machine/Tree.lean ====
section
/-! DEFINITION. The current tree as the recursions of GENCODES and SERIALIZE walk it. -/

namespace Sys2Proof.Machine

/-- The nodes a walk reaches from a handle, with their handles (R28's tree). -/
inductive Tree where
  | leaf (handle : Handle) (symbol : Byte)
  | internal (handle : Handle) (left right : Tree)
  deriving DecidableEq, Repr

/-- Follow LEFT and RIGHT from a handle through `look`, at most `depth` nodes deep: none where a handle holds no node
or the walk does not end. -/
def Tree.fromArena (look : Handle → Option Node) : (depth : Nat) → Handle → Option Tree
  | 0, _ => none
  | depth + 1, h =>
    match look h with
    | none => none
    | some (.leaf _ c) => some (.leaf h c)
    | some (.internal _ l r) =>
      match Tree.fromArena look depth l with
      | none => none
      | some tl =>
        match Tree.fromArena look depth r with
        | none => none
        | some tr => some (.internal h tl tr)

/-- The tree a command walks from ROOT, reading the arena as a command does; none where the walk does not end. No tree
of at most MAX_NODES nodes is deeper than MAX_NODES. (log 11, log 12) -/
def walkedTree (s : State) : Option Tree :=
  Tree.fromArena (fun h => some (readNode s h)) Config.maxNodes s.root

/-- `Ser(n)` (43_tree_serializer.md R150). -/
def Tree.ser : Tree → Bits
  | .leaf _ c => true :: byteToBits c
  | .internal _ l r => false :: (l.ser ++ r.ser)

/-- `Walk(n, p)` (42_code_table_gen.md R141): the entries it writes, in the order it writes them. -/
def Tree.walk : Tree → (path : Bits) → List (Byte × Bits)
  | .leaf _ c, p => [(c, p)]
  | .internal _ l r, p => l.walk (p ++ [false]) ++ r.walk (p ++ [true])

end Sys2Proof.Machine
end

