-- ==== Sys2Proof/Machine/CodeTableGen.lean ====
section
/-! DEFINITION. The huffman_code_table_gen: GENCODES (42_code_table_gen.md). -/

namespace Sys2Proof.Machine

/-- Write entries into a code table, in order. -/
def writeCodes (entries : List (Byte × Bits)) (table : Vector (Contents Bits) 256) : Vector (Contents Bits) 256 :=
  entries.foldl (fun t e => t.set e.1.toNat (.written e.2) e.1.isLt) table

/-- The entries GENCODES writes for a tree (R141): the path of each leaf, but the code "0" for a lone leaf (R142). -/
def codeEntries : Tree → List (Byte × Bits)
  | .leaf _ c => [(c, [false])]
  | .internal h l r => (Tree.internal h l r).walk []

/-- The code table of a tree: every entry cleared, then the entries of the tree's leaves written (R141). -/
def codeTable (t : Tree) : Vector (Contents Bits) 256 := writeCodes (codeEntries t) noCodes

/-- GENCODES (R141). -/
def execGencodes (s : State) : Host.Outcome State Fault Refusal :=
  if !s.treeValid then .next (perform (.error (rejectError .noTree 0)) s)
  else
    match walkedTree s with
    | none => .fault .endlessWalk
    | some t => .next (perform (.ok { s with code := codeTable t, codesValid := true }) s)

end Sys2Proof.Machine
end

