-- ==== Sys2Proof/Machine/HuffmanDecoder.lean ====
section
/-! DEFINITION. The huffman_decoder: DECODE (45_huffman_decoder.md). -/

namespace Sys2Proof.Machine

/-- `raise Abort(CODE, info)` in DECODE. -/
def abortDecode (c : ErrCode) (info : Nat) : CmdError := ⟨.abortDecode, c, BitVec.ofNat 32 info⟩

/-- One bit of the decoder at node `n` (R191): the symbol it completes, if any, and the node it goes to. None is the 1 bit
under a single-leaf root (R193); otherwise it is the descent step (R192). -/
def decodeStep (s : State) (n : Handle) (b : Bool) : Option (Option Byte × Handle) :=
  let top := readNode s s.root
  if top.isLeaf then
    if b then none else some (some top.symbol, n)
  else
    let child := if b then (readNode s n).right else (readNode s n).left
    let node := readNode s child
    if node.isLeaf then some (some node.symbol, s.root) else some (none, child)

/-- The bit loop of DECODE (R191) from bit `j` at node `n` on: the symbols it emits and the node it ends at. (log 15) -/
def decodeLoop (s : State) : (j written : Nat) → (n : Handle) → Bits → Except CmdError (List Byte × Handle)
  | _, _, n, [] => .ok ([], n)
  | j, written, n, b :: rest =>
    match decodeStep s n b with
    | none => .error (abortDecode .invalidCode j)
    | some (none, n1) => decodeLoop s (j + 1) written n1 rest
    | some (some c, n1) =>
      if written = s.dstLen.toNat then .error (abortDecode .dstOverflow j)
      else
        match decodeLoop s (j + 1) (written + 1) n1 rest with
        | .error e => .error e
        | .ok (out, n2) => .ok (c :: out, n2)

/-- The body of DECODE (R191). -/
def decodeBody (last : Bool) (s : State) : Except CmdError State :=
  if !s.treeValid then .error (rejectError .noTree 0)
  else
    match sourceDestError s with
    | some e => .error e
    | none =>
      if badPad last s then .error (rejectError .badPad s.padIn.toNat)
      else
        let nbits := 8 * s.srcLen.toNat - padCount last s
        match decodeLoop s 0 0 s.decNode (sourceBits s nbits) with
        | .error e => .error e
        | .ok (out, n) =>
          if last && n != s.root then .error (abortDecode .incompleteCode nbits)
          else .ok { storeResult out s with decNode := n }

/-- DECODE and DECODE.LAST (R191). -/
def execDecode (last : Bool) (s : State) : Host.Outcome State Fault Refusal := .next (perform (decodeBody last s) s)

end Sys2Proof.Machine
end

