-- ==== Sys2Proof/Machine/Sequencer.lean ====
section
/-! DEFINITION. The sequencer's commands NOP and CLEAR (40_control.md). -/

namespace Sys2Proof.Machine

/-- NOP (R115): nothing but completion. -/
def execNop (s : State) : Host.Outcome State Fault Refusal := .next (perform (.ok s) s)

/-- The body of CLEAR (R116). -/
def clearBody (s : State) : State :=
  { invalidateTree s with freq := Vector.replicate 256 (.written 0), padOut := 0, resultLen := 0 }

/-- CLEAR (R116). -/
def execClear (s : State) : Host.Outcome State Fault Refusal := .next (perform (.ok (clearBody s)) s)

end Sys2Proof.Machine
end

