-- ==== Sys2Proof/Machine/TreeBuilder.lean ====
section
/-! DEFINITION. The huffman_tree_builder: BUILD (41_tree_builder.md). -/

namespace Sys2Proof.Machine

/-- The queue key of a node (R130): its FREQ and its handle. -/
structure QueueKey where
  freq : NodeFreq
  handle : Nat
  deriving DecidableEq, Repr

/-- The order of the queue (R130): FREQ first, then the handle. -/
def QueueKey.less (a b : QueueKey) : Bool :=
  decide (a.freq.toNat < b.freq.toNat) || (a.freq == b.freq && decide (a.handle < b.handle))

/-- `PopMin(Q)` (R130): the element of the least key, and the rest of the queue. -/
def popMin : List QueueKey → Option (QueueKey × List QueueKey)
  | [] => none
  | x :: xs =>
    match popMin xs with
    | none => some (x, [])
    | some (y, ys) => if x.less y then some (x, xs) else some (y, x :: ys)

/-- The merge loop of BUILD (R131), `nodes` being NODE[0..next-1] and `next` their number: it ends when one handle is left
in the queue, and answers that handle and the nodes. `fuel` bounds the number of merges. (log 22) -/
def mergeLoop : (fuel : Nat) → (queue : List QueueKey) → (nodes : List Node) → Nat × List Node
  | 0, queue, nodes => ((queue.map QueueKey.handle).headD 0, nodes)
  | fuel + 1, queue, nodes =>
    match popMin queue with
    | none => (0, nodes)
    | some (a, q1) =>
      match popMin q1 with
      | none => (a.handle, nodes)
      | some (b, q2) =>
        mergeLoop fuel (q2 ++ [⟨a.freq + b.freq, nodes.length⟩])
          (nodes ++ [.internal (a.freq + b.freq) (BitVec.ofNat 9 a.handle) (BitVec.ofNat 9 b.handle)])

/-- The symbols in ascending order. -/
def allSymbols : List Byte := (List.range 256).map (fun c => BitVec.ofNat 8 c)

/-- `syms` of R131: the symbols with FREQ[s] != 0, ascending. The read of FREQ[s] is the draw at place s. -/
def presentSymbols (s : State) : List Byte := allSymbols.filter (fun c => readFreq s c.toNat c != 0)

/-- The leaves of R131, in handle order. R131 reads FREQ[syms[h]] again here, at places of its own. (log 4) -/
def leafNodes (s : State) (syms : List Byte) : List Node :=
  syms.map (fun c => .leaf ((readFreq s (256 + c.toNat) c).setWidth 40) c)

/-- The queue of R131 at the start: every leaf under its handle. -/
def leafQueue (leaves : List Node) : List QueueKey := leaves.zipIdx.map (fun p => ⟨p.1.freq, p.2⟩)

/-- The tree R131 builds from a list of leaves: its root and its nodes in handle order. -/
def buildNodes (leaves : List Node) : Nat × List Node := mergeLoop leaves.length (leafQueue leaves) leaves

/-- The body of BUILD (R131). -/
def buildBody (s : State) : Except CmdError State :=
  let syms := presentSymbols s
  if syms.isEmpty then .error (rejectError .emptyTable 0)
  else
    let r := buildNodes (leafNodes s syms)
    .ok (installTree r.2 syms.length (BitVec.ofNat 9 r.1) s)

/-- BUILD (R131). -/
def execBuild (s : State) : Host.Outcome State Fault Refusal := .next (perform (buildBody s) s)

end Sys2Proof.Machine
end

