-- ==== Sys2Proof/Machine/TreeSerializer.lean ====
section
/-! DEFINITION. The tree_serializer: SERIALIZE and DESERIALIZE (43_tree_serializer.md). -/

namespace Sys2Proof.Machine

/-- SERIALIZE's body once its tree is walked (R153): DST_OVERFLOW with the bytes needed, or the bytes of `Ser(ROOT)` padded
to a byte boundary (R154). -/
def serializeBody (t : Tree) (s : State) : Except CmdError State :=
  let n := bytesFor t.ser.length
  if s.dstLen.toNat < n then .error (rejectError .dstOverflow n)
  else .ok (storeResult (packBytes (padToByte t.ser)) s)

/-- SERIALIZE (R153). -/
def execSerialize (s : State) : Host.Outcome State Fault Refusal :=
  if !s.treeValid then .next (perform (.error (rejectError .noTree 0)) s)
  else if !dstRangeOK s then .next (perform (.error (rejectError .dstRange 0)) s)
  else
    match walkedTree s with
    | none => .fault .endlessWalk
    | some t => .next (perform (serializeBody t s) s)

/-- Where DESERIALIZE's parser stands (R157): the bits not yet read, and the variables pos, next, nint and seen. -/
structure ParseState where
  rest : Bits
  pos : Nat
  next : Nat
  nint : Nat
  seen : List Byte
  deriving DecidableEq, Repr

/-- `raise Abort(CODE, info)` in DESERIALIZE. -/
def abortParse (c : ErrCode) (info : Nat) : CmdError := ⟨.abortDeserialize, c, BitVec.ofNat 32 info⟩

/-- `Parse()` (R157): the nodes of one subtree in preorder, the first at handle `next`, and where the parser then stands.
The handle it returns is `next` at its start (R158). `depth` bounds the nesting, which the limit on internal nodes keeps
below 256, so its end is never reached. (log 22) -/
def parseTree (nbits : Nat) : (depth : Nat) → ParseState → Except CmdError (List Node × ParseState)
  | 0, p => .error (abortParse .treeTooLarge p.pos)
  | depth + 1, p =>
    match p.rest with
    | [] => .error (abortParse .treeTruncated nbits)
    | true :: bits =>
      if (bits.take 8).length < 8 then .error (abortParse .treeTruncated nbits)
      else
        let c := bitsToByte (bits.take 8)
        if p.seen.contains c then .error (abortParse .dupSymbol p.pos)
        else
          .ok ([.leaf 0 c],
            { rest := bits.drop 8, pos := p.pos + 9, next := p.next + 1, nint := p.nint, seen := c :: p.seen })
    | false :: bits =>
      if p.nint = Config.maxInternal then .error (abortParse .treeTooLarge p.pos)
      else
        match parseTree nbits depth
            { rest := bits, pos := p.pos + 1, next := p.next + 1, nint := p.nint + 1, seen := p.seen } with
        | .error e => .error e
        | .ok (left, p1) =>
          match parseTree nbits depth p1 with
          | .error e => .error e
          | .ok (right, p2) =>
            .ok (.internal 0 (BitVec.ofNat 9 (p.next + 1)) (BitVec.ofNat 9 p1.next) :: (left ++ right), p2)

/-- The parser at the first bit of the source range (R157). -/
def parseStart (s : State) : ParseState :=
  { rest := sourceBits s (8 * s.srcLen.toNat), pos := 0, next := 0, nint := 0, seen := [] }

/-- The body of DESERIALIZE (R157). -/
def deserializeBody (s : State) : Except CmdError State :=
  if !srcRangeOK s then .error (rejectError .srcRange 0)
  else
    match parseTree (8 * s.srcLen.toNat) (Config.maxNodes + 1) (parseStart s) with
    | .error e => .error e
    | .ok (nodes, p) =>
      .ok { installTree nodes p.seen.length 0 s with resultLen := BitVec.ofNat 32 (bytesFor p.pos) }

/-- DESERIALIZE (R157). -/
def execDeserialize (s : State) : Host.Outcome State Fault Refusal := .next (perform (deserializeBody s) s)

end Sys2Proof.Machine
end

