-- ==== Sys2Proof/Machine/Flags.lean ====
section
/-! DEFINITION. The flags: the STATUS views (10_state.md R25), the STATUS word and its write, and irq (60_exceptions.md R220).
HUFFCORE has no arithmetic condition codes (R45). -/

namespace Sys2Proof.Machine

/-- STATUS.BUSY (R21, R25). -/
def busy (s : State) : Bool := s.pending.isSome

/-- STATUS.DEC_MID (R25): 1 exactly when TREE_VALID = 1 and DEC_NODE != ROOT. -/
def decMid (s : State) : Bool := s.treeValid && s.decNode != s.root

/-- A bit as bit `i` of a word. -/
def flagBit (b : Bool) (i : Nat) : Word := if b then BitVec.twoPow 32 i else 0

/-- STATUS bits 3:0: BUSY, DONE, ERR, BUSY_VIOL (R25). -/
def statusLow (s : State) : Word :=
  flagBit (busy s) 0 ||| flagBit s.done 1 ||| flagBit s.err 2 ||| flagBit s.busyViol 3

/-- STATUS bits 6:4: TREE_VALID, CODES_VALID, DEC_MID (R25). -/
def statusHigh (s : State) : Word :=
  flagBit s.treeValid 4 ||| flagBit s.codesValid 5 ||| flagBit (decMid s) 6

/-- A read of STATUS (R25); while BUSY = 1, bits 6:4 read `any` (20_memory.md R67). -/
def statusWord (s : State) : Word :=
  statusLow s ||| (if busy s then Config.freeWord s.draws 0 &&& 0x70 else statusHigh s)

/-- A host write to STATUS (R25, R30): each W1C bit written 1 is cleared, ERR together with ERR_CODE and ERR_INFO. -/
def writeStatus (v : Word) (s : State) : State :=
  let s1 := if v.getLsbD 1 then { s with done := false } else s
  let s2 := if v.getLsbD 2 then acknowledgeError s1 else s1
  if v.getLsbD 3 then { s2 with busyViol := false } else s2

/-- A read of CTRL (R24). -/
def ctrlWord (s : State) : Word := flagBit s.doneIE 0 ||| flagBit s.errIE 1

/-- A host write to CTRL (R24): it stores value[1:0]. -/
def writeCtrl (v : Word) (s : State) : State := { s with doneIE := v.getLsbD 0, errIE := v.getLsbD 1 }

/-- The interrupt output (60_exceptions.md R220). -/
def irq (s : State) : Bool := (s.done && s.doneIE) || (s.err && s.errIE)

end Sys2Proof.Machine
end

