-- ==== Sys2Proof/Machine/HostMap.lean ====
section
/-! DEFINITION. The host's address map (10_state.md R23; 20_memory.md R61) and the legality of an access (R63). -/

namespace Sys2Proof.Machine

/-- The registers of the control window (R23). -/
inductive Reg where
  | id
  | ctrl
  | status
  | cmd
  | errCode
  | errInfo
  | srcAddr
  | srcLen
  | dstAddr
  | dstLen
  | padIn
  | resultLen
  | padOut
  | packState
  | numSyms
  | nodeCount
  | root
  | treeBits
  | decNode
  | lmemSize
  deriving DecidableEq, Repr

/-- What a host offset names (R61). -/
inductive Place where
  | reg (r : Reg)
  | freq (c : Byte)
  | codeLen (c : Byte)
  | codeBits (c : Byte) (j : Nat)
  | node (h : Handle) (j : Nat)
  | reserved
  | lmem (a : Nat)
  deriving DecidableEq, Repr

/-- The register at an offset of the control window (R23). -/
def regAt (n : Nat) : Option Reg :=
  match n with
  | 0x000 => some .id
  | 0x004 => some .ctrl
  | 0x008 => some .status
  | 0x00C => some .cmd
  | 0x010 => some .errCode
  | 0x014 => some .errInfo
  | 0x018 => some .srcAddr
  | 0x01C => some .srcLen
  | 0x020 => some .dstAddr
  | 0x024 => some .dstLen
  | 0x028 => some .padIn
  | 0x02C => some .resultLen
  | 0x030 => some .padOut
  | 0x034 => some .packState
  | 0x038 => some .numSyms
  | 0x03C => some .nodeCount
  | 0x040 => some .root
  | 0x044 => some .treeBits
  | 0x048 => some .decNode
  | 0x04C => some .lmemSize
  | _ => none

/-- The place a host offset names (R61): the six windows and the reserved ranges between them (R41). -/
def placeOf (off : HostOff) : Place :=
  let n := off.toNat
  if n < 0x400 then
    match regAt n with
    | some r => .reg r
    | none => .reserved
  else if n < 0x800 then .freq (BitVec.ofNat 8 ((n - 0x400) / 4))
  else if n < 0xC00 then .codeLen (BitVec.ofNat 8 ((n - 0x800) / 4))
  else if n < 0x1000 then .reserved
  else if n < 0x3000 then .codeBits (BitVec.ofNat 8 ((n - 0x1000) / 32)) ((n - 0x1000) % 32 / 4)
  else if n < 0x4000 then .reserved
  else if n < 0x5FF0 then .node (BitVec.ofNat 9 ((n - 0x4000) / 16)) ((n - 0x4000) % 16 / 4)
  else if n < 0x10000 then .reserved
  else .lmem (n - 0x10000)

/-- An access of a legal size and alignment (R63): 32-bit at a multiple of 4, or 8-bit in the LMEM window. -/
def Access.legal : Access → Bool
  | .read32 off => off.toNat % 4 == 0
  | .write32 off _ => off.toNat % 4 == 0
  | .read8 off => decide (0x10000 ≤ off.toNat)
  | .write8 off _ => decide (0x10000 ≤ off.toNat)

end Sys2Proof.Machine
end

