-- ==== Sys2Proof/Machine/HostPort.lean ====
section
/-! DEFINITION. The host's reads and writes (10_state.md R23 to R41; 20_memory.md R60 to R70). -/

namespace Sys2Proof.Machine

/-! ## Reads -/

/-- PACK_STATE (R35): FILL in bits 2:0, the pending bits left-aligned in bits 15:8. (log 19) -/
def packState (s : State) : Word := BitVec.ofNat 32 (256 * leftAligned 8 s.pk + s.pk.length % 8)

/-- TREE_BITS (R37). -/
def treeBits (s : State) : Word := if s.treeValid then BitVec.ofNat 32 (10 * s.numSyms.toNat - 1) else 0

/-- What a read of a register returns while BUSY = 0 (R23). -/
def readReg (s : State) : Reg → Word
  | .id => 0x48554646
  | .ctrl => ctrlWord s
  | .status => statusWord s
  | .cmd => s.cmdLast
  | .errCode => s.errCode.setWidth 32
  | .errInfo => s.errInfo
  | .srcAddr => s.srcAddr
  | .srcLen => s.srcLen
  | .dstAddr => s.dstAddr
  | .dstLen => s.dstLen
  | .padIn => s.padIn.setWidth 32
  | .resultLen => s.resultLen
  | .padOut => s.padOut.setWidth 32
  | .packState => packState s
  | .numSyms => s.numSyms.setWidth 32
  | .nodeCount => s.nodeCount.setWidth 32
  | .root => s.root.setWidth 32
  | .treeBits => treeBits s
  | .decNode => s.decNode.setWidth 32
  | .lmemSize => BitVec.ofNat 32 s.lmemSize.bytes

/-- The registers whose read is true while BUSY = 1 (20_memory.md R67); STATUS takes care of its bits 6:4 itself. -/
def Reg.trueWhileBusy : Reg → Bool
  | .id => true
  | .ctrl => true
  | .status => true
  | .cmd => true
  | .srcAddr => true
  | .srcLen => true
  | .dstAddr => true
  | .dstLen => true
  | .padIn => true
  | .lmemSize => true
  | .errCode => false
  | .errInfo => false
  | .resultLen => false
  | .padOut => false
  | .packState => false
  | .numSyms => false
  | .nodeCount => false
  | .root => false
  | .treeBits => false
  | .decNode => false

/-- CODE_LEN[c] (R29). -/
def codeLenWord (s : State) (c : Byte) : Word :=
  match s.code[c.toNat]'c.isLt with
  | .written b => (BitVec.ofNat 8 b.length).setWidth 32
  | .unspecified => Config.freeWord s.draws 0

/-- Word j of CODE_BITS[c] (R29): BITS[32j .. 32j+32), left-aligned. -/
def codeBitsWord (s : State) (c : Byte) (j : Nat) : Word :=
  match s.code[c.toNat]'c.isLt with
  | .written b => BitVec.ofNat 32 (leftAligned 32 ((b.drop (32 * j)).take 32))
  | .unspecified => Config.freeWord s.draws 0

/-- Word j of a node (R28). -/
def Node.word : Node → (j : Nat) → Word
  | .leaf f _, 0 => f.extractLsb' 0 32
  | .leaf f _, 1 => 0x80000000 ||| (f.extractLsb' 32 8).setWidth 32
  | .leaf _ _, 2 => 0
  | .leaf _ c, _ => c.setWidth 32
  | .internal f _ _, 0 => f.extractLsb' 0 32
  | .internal f _ _, 1 => (f.extractLsb' 32 8).setWidth 32
  | .internal _ l r, 2 => (r.setWidth 32 <<< 16) ||| l.setWidth 32
  | .internal _ _ _, _ => 0

/-- A host read of word j of NODE[h] (R28): `any` for a handle at or above NODE_COUNT. -/
def nodeWord (s : State) (h : Handle) (j : Nat) : Word :=
  match nodeAt s h with
  | some n => n.word j
  | none => Config.freeWord s.draws 0

/-- A byte of the LMEM window (R62): an offset at or beyond LMEM_SIZE reads 0 (R65); an LMEM byte reads `any` while
BUSY = 1 (R67). `k` is the place of the draw. (log 9) -/
def readLmem (s : State) (k a : Nat) : Byte :=
  if s.lmemSize.bytes ≤ a then 0
  else if busy s then Config.freeByte s.draws k
  else memRead s k a

/-- Four bytes as a big-endian word (R64). -/
def beWord (b0 b1 b2 b3 : Byte) : Word := (b0 ++ b1 ++ b2 ++ b3 : BitVec 32)

/-- The value of `Read32` at a place, at an aligned offset. While BUSY = 1 every read of command-written state returns
`any` (R67). (log 9) -/
def read32At (s : State) : Place → Word
  | .reg r => if busy s && !r.trueWhileBusy then Config.freeWord s.draws 0 else readReg s r
  | .freq c => if busy s then Config.freeWord s.draws 0 else readFreq s 0 c
  | .codeLen c => if busy s then Config.freeWord s.draws 0 else codeLenWord s c
  | .codeBits c j => if busy s then Config.freeWord s.draws 0 else codeBitsWord s c j
  | .node h j => if busy s then Config.freeWord s.draws 0 else nodeWord s h j
  | .reserved => 0
  | .lmem a => beWord (readLmem s 0 a) (readLmem s 1 (a + 1)) (readLmem s 2 (a + 2)) (readLmem s 3 (a + 3))

/-- The value of `Read8` at a place; it is legal in the LMEM window alone. -/
def read8At (s : State) : Place → Byte
  | .lmem a => readLmem s 0 a
  | .reg _ => 0
  | .freq _ => 0
  | .codeLen _ => 0
  | .codeBits _ _ => 0
  | .node _ _ => 0
  | .reserved => 0

/-! ## Writes -/

/-- A write that BUSY = 1 drops, setting BUSY_VIOL (20_memory.md R66). -/
def unlessBusy (write : State → State) (s : State) : State :=
  if busy s then { s with busyViol := true } else write s

/-- A host write to a register (R23): read-only registers ignore it. -/
def writeReg (r : Reg) (v : Word) (s : State) : State :=
  match r with
  | .ctrl => writeCtrl v s
  | .status => writeStatus v s
  | .cmd => unlessBusy (acceptCommand v) s
  | .srcAddr => unlessBusy (fun t => { t with srcAddr := v }) s
  | .srcLen => unlessBusy (fun t => { t with srcLen := v }) s
  | .dstAddr => unlessBusy (fun t => { t with dstAddr := v }) s
  | .dstLen => unlessBusy (fun t => { t with dstLen := v }) s
  | .padIn => unlessBusy (fun t => { t with padIn := v.setWidth 8 }) s
  | .id => s
  | .errCode => s
  | .errInfo => s
  | .resultLen => s
  | .padOut => s
  | .packState => s
  | .numSyms => s
  | .nodeCount => s
  | .root => s
  | .treeBits => s
  | .decNode => s
  | .lmemSize => s

/-- A host write of a FREQ entry (R27). -/
def writeFreq (c : Byte) (v : Word) (s : State) : State :=
  { s with freq := s.freq.set c.toNat (.written v) c.isLt }

/-- A host write of bytes at LMEM address `a` on: ignored at or beyond LMEM_SIZE, BUSY or not (R65), dropped while
BUSY = 1 (R66). (log 10) -/
def writeLmem (a : Nat) (bytes : List Byte) (s : State) : State :=
  if s.lmemSize.bytes ≤ a then s
  else unlessBusy (fun t => { t with lmem := Memory.setBytes t.lmem a bytes }) s

/-- The bytes of a word, big-endian (R64). -/
def beBytes (v : Word) : List Byte :=
  [v.extractLsb' 24 8, v.extractLsb' 16 8, v.extractLsb' 8 8, v.extractLsb' 0 8]

/-- `Write32` at a place, at an aligned offset. -/
def write32At (p : Place) (v : Word) (s : State) : State :=
  match p with
  | .reg r => writeReg r v s
  | .freq c => unlessBusy (writeFreq c v) s
  | .lmem a => writeLmem a (beBytes v) s
  | .codeLen _ => s
  | .codeBits _ _ => s
  | .node _ _ => s
  | .reserved => s

/-- `Write8` at a place; it is legal in the LMEM window alone. -/
def write8At (p : Place) (v : Byte) (s : State) : State :=
  match p with
  | .lmem a => writeLmem a [v] s
  | .reg _ => s
  | .freq _ => s
  | .codeLen _ => s
  | .codeBits _ _ => s
  | .node _ _ => s
  | .reserved => s

/-- Return a read's value to the host. (log 7) -/
def returnValue (r : Response) (s : State) : State := { s with returned := r :: s.returned }

/-- A legal access (R60). -/
def performAccess (a : Access) (s : State) : State :=
  match a with
  | .read32 off => returnValue (.word (read32At s (placeOf off))) s
  | .write32 off v => write32At (placeOf off) v s
  | .read8 off => returnValue (.byte (read8At s (placeOf off))) s
  | .write8 off v => write8At (placeOf off) v s

/-- One host access; an illegal one is refused (R63; U1). (log 8) -/
def hostStep (a : Access) (s : State) : Host.Outcome State Fault Refusal :=
  if a.legal then .next (performAccess a s) else .refused (.illegalAccess a)

end Sys2Proof.Machine
end

