-- ==== Sys2Proof/Machine/Engine.lean ====
section
/-! DEFINITION. The turns of the engine (40_control.md R112, R114), the reset event (70_reset_and_hazards.md R240), and the
bookkeeping of the agenda (log 5). -/

namespace Sys2Proof.Machine

/-- A turn of the engine: `Perform(w)` of the pending word (R112, R114). With PENDING = none the engine has no step, and
the turn passes. (log 6) -/
def engineStep (s : State) : Host.Outcome State Fault Refusal :=
  match s.pending with
  | none => .next s
  | some w =>
    match decodeWord w with
    | .ok i => exec i s
    | .error .badOpcode => .next (performBadOpcode w s)

/-- The reset event (R240 to R243): the reset state whatever the state before; the parameter LMEM_SIZE stays, and so do
the model's own fields. (log 21) -/
def resetBlock (s : State) : State :=
  { State.reset with lmemSize := s.lmemSize, agenda := s.agenda, returned := s.returned, draws := s.draws }

/-- Take the event at hand off the agenda and number it. (log 3, log 5) -/
def beginEvent (rest : List Event) (s : State) : State := { s with agenda := rest, draws := s.draws + 1 }

/-- One event (20_memory.md R73). -/
def eventStep (e : Event) (s : State) : Host.Outcome State Fault Refusal :=
  match e with
  | .access a => hostStep a s
  | .engine => engineStep s
  | .reset => .next (resetBlock s)

/-- The next event: the first of the agenda; with nothing on it, a turn of the engine, which is how every accepted
command completes (70_reset_and_hazards.md R254). (log 5) -/
def nextEvent (s : State) : Event × List Event :=
  match s.agenda with
  | [] => (.engine, [])
  | e :: rest => (e, rest)

/-- Place a command word as its acceptance does (R111), and give the engine the next turn. (log 17) -/
def placeCommand (w : Word) (s : State) : State := { acceptCommand w s with agenda := .engine :: s.agenda }

end Sys2Proof.Machine
end

