-- ==== Sys2Proof/Machine/Step.lean ====
section
/-! DEFINITION. One step of the machine: the next event of the total order (20_memory.md R73). -/

namespace Sys2Proof.Machine

/-- One step: the next event, taken off the agenda and performed. -/
def step (s : State) : Host.Outcome State Fault Refusal :=
  eventStep (nextEvent s).1 (beginEvent (nextEvent s).2 s)

/-- `s` with a command word placed where the engine takes its next command from, so that the next step performs it.
(log 17) -/
def State.withFetchWord (s : State) (nbits w : Nat) : State := placeCommand (tableWord nbits w) s

end Sys2Proof.Machine
end

