-- ==== Sys2Proof/Laws/PerInstr.lean ====
section
/-! SUPPORT. Facts about every command as syntax, one lemma per constructor. -/

/-- The word of a command is a well-formed command word: the table's rows select it (30_encoding.md R91). -/
def Sys2Proof.Laws.EncodedWord.Statement (i : Sys2Proof.Instr) : Prop :=
  Sys2Proof.wordWellFormed (Sys2Proof.encodeInstr i) = true

namespace Sys2Proof.Laws.EncodedWord

theorem nop : Statement .nop := by unfold Statement; decide
theorem clear : Statement .clear := by unfold Statement; decide
theorem build : Statement .build := by unfold Statement; decide
theorem gencodes : Statement .gencodes := by unfold Statement; decide
theorem serialize : Statement .serialize := by unfold Statement; decide
theorem deserialize : Statement .deserialize := by unfold Statement; decide
theorem encode : Statement .encode := by unfold Statement; decide
theorem flush : Statement .flush := by unfold Statement; decide
theorem decode (last : Bool) : Statement (.decode last) := by unfold Statement; cases last <;> decide

end Sys2Proof.Laws.EncodedWord
end

