-- ==== Sys2Proof/Safety.lean ====
section
/-! DEFINITION. The terms in which claims about the machine are made: the invariants of 10_state.md R44, how a run ends (R256),
the states an error leaves (60_exceptions.md R212, R213), and readings of a state written without the commands'
own functions. -/

namespace Sys2Proof.Machine

/-! ## The tree -/

/-- The tree the arena holds below NODE_COUNT, from ROOT. -/
def treeOf (s : State) : Option Tree := Tree.fromArena (nodeAt s) Config.maxNodes s.root

/-- The handles of a tree, in preorder. -/
def Tree.handles : Tree → List Handle
  | .leaf h _ => [h]
  | .internal h l r => h :: (l.handles ++ r.handles)

/-- The handles of a tree's internal nodes. -/
def Tree.internalHandles : Tree → List Handle
  | .leaf _ _ => []
  | .internal h l r => h :: (l.internalHandles ++ r.internalHandles)

/-- The symbols of a tree's leaves, from left to right. -/
def Tree.symbols : Tree → List Byte
  | .leaf _ c => [c]
  | .internal _ l r => l.symbols ++ r.symbols

/-- FREQ of the node at a handle. -/
def nodeFreq (s : State) (h : Handle) : NodeFreq :=
  match nodeAt s h with
  | some n => n.freq
  | none => 0

/-- The node reached from `h` by a path of bits, left for 0 and right for 1 (42_code_table_gen.md R140). -/
def followPath (s : State) : Handle → Bits → Option Handle
  | h, [] => some h
  | h, b :: p =>
    match nodeAt s h with
    | some (.internal _ l r) => followPath s (if b then r else l) p
    | _ => none

/-- `h` is a leaf of symbol `c`. -/
def leafAt (s : State) (h : Handle) (c : Byte) : Prop := ∃ f, nodeAt s h = some (.leaf f c)

/-- `h` is an internal node. -/
def internalAt (s : State) (h : Handle) : Prop := ∃ f l r, nodeAt s h = some (.internal f l r)

/-- `p` is the code of `c` in the current tree: its leaf's path (R140), but "0" for a lone leaf (R142). -/
def codeIs (s : State) (c : Byte) (p : Bits) : Prop :=
  (leafAt s s.root c ∧ p = [false]) ∨
    (internalAt s s.root ∧ ∃ h, followPath s s.root p = some h ∧ leafAt s h c)

/-- `p` is a path from ROOT to `n` that completes no codeword: the candidate of 10_state.md R38. -/
def candidateAt (s : State) (p : Bits) (n : Handle) : Prop :=
  followPath s s.root p = some n ∧ (p = [] ∨ internalAt s n)

/-- The node at `x` is a child of an internal node with a handle below `h`. -/
def takenBefore (s : State) (h x : Handle) : Prop :=
  ∃ g f l r, g.toNat < h.toNat ∧ nodeAt s g = some (.internal f l r) ∧ (x = l ∨ x = r)

/-- The queue order of 41_tree_builder.md R130 on handles. -/
def keyBefore (s : State) (x y : Handle) : Prop :=
  (nodeFreq s x).toNat < (nodeFreq s y).toNat ∨ (nodeFreq s x = nodeFreq s y ∧ x.toNat < y.toNat)

/-! ## The arrays -/

/-- FREQ[c] as the array holds it. -/
def freqEntry (s : State) (c : Byte) : Contents Word := s.freq[c.toNat]'c.isLt

/-- CODE[c] as the array holds it. -/
def codeEntry (s : State) (c : Byte) : Contents Bits := s.code[c.toNat]'c.isLt

/-- CODE[c].BITS of a table, the empty string where it has none. -/
def tableCode (table : Vector (Contents Bits) 256) (c : Byte) : Bits :=
  match table[c.toNat]'c.isLt with
  | .written b => b
  | .unspecified => []

/-! ## LMEM -/

/-- LMEM holds the bytes from `a` on. -/
def holdsBytes (m : Memory) (a : Nat) (bytes : List Byte) : Prop :=
  ∀ i (h : i < bytes.length), Memory.get m (a + i) = some bytes[i]

/-- The two memories agree outside [a, a + n). -/
def sameOutside (m m' : Memory) (a n : Nat) : Prop :=
  ∀ x, x < a ∨ a + n ≤ x → Memory.get m' x = Memory.get m x

/-- No byte of [a, a + n) has contents: each reads `any` (60_exceptions.md R213). -/
def unspecifiedIn (m : Memory) (a n : Nat) : Prop := ∀ x, a ≤ x → x < a + n → Memory.get m x = none

/-- Every listed address is an LMEM address (20_memory.md R62). -/
def insideLmem (s : State) : Prop := ∀ c ∈ s.lmem, c.1 < s.lmemSize.bytes

/-! ## The invariants -/

/-- What TREE_VALID = 1 promises of the arena (R44, point 2; R28's sums). -/
structure TreeInv (s : State) (t : Tree) : Prop where
  reads : treeOf s = some t
  atLeastOne : 1 ≤ s.numSyms.toNat
  atMost256 : s.numSyms.toNat ≤ 256
  numSyms : s.numSyms.toNat = t.symbols.length
  nodeCount : s.nodeCount.toNat = 2 * s.numSyms.toNat - 1
  eachHandleOnce : (t.handles.map BitVec.toNat).Perm (List.range s.nodeCount.toNat)
  distinctSymbols : t.symbols.Nodup
  decoder : s.decNode = s.root ∨ s.decNode ∈ t.internalHandles
  sums : ∀ h f l r, nodeAt s h = some (.internal f l r) → f = nodeFreq s l + nodeFreq s r

/-- The invariants of R44, with R30's on ERR_CODE, R62's on LMEM and the arena's size (R7). -/
structure Inv (s : State) : Prop where
  codes : s.codesValid = true → s.treeValid = true ∧ ∃ t, treeOf s = some t ∧ s.code = codeTable t
  tree : s.treeValid = true → ∃ t, TreeInv s t
  noTree : s.treeValid = false → s.numSyms = 0 ∧ s.nodeCount = 0 ∧ s.root = 0 ∧ s.decNode = 0
  packer : s.pk.length ≤ 7 ∧ (s.pk ≠ [] → s.codesValid = true)
  padOut : s.padOut.toNat ≤ 7
  errors : s.err = false ↔ s.errCode = 0
  memory : Memory.wf s.lmem = true ∧ insideLmem s
  arena : s.node.length ≤ Config.maxNodes

/-- The event is a host access, a line of the host's program (30_encoding.md R98). -/
def Event.isAccess : Event → Bool
  | .access _ => true
  | .engine => false
  | .reset => false

/-- No event of the list is a host access. -/
def noAccess (events : List Event) : Bool := events.all (fun e => !e.isAccess)

/-- Both conditions of 70_reset_and_hazards.md R256: the host has performed its last line and PENDING = none. Resets and turns
of the engine may still be on the agenda. -/
def RunEnded (s : State) : Prop := noAccess s.agenda = true ∧ s.pending = none

/-- The run from `s` ends at `t`, its end state (70_reset_and_hazards.md R256): `t` is the first state on the way, `s` itself
counted, in which both conditions hold. `step` goes on past it (log 23). -/
def RunEndsAt (s t : State) : Prop :=
  RunEnded t ∧ ∃ n, core.run n s = .next t ∧ ∀ m, m < n → ∀ u : State, core.run m s = .next u → ¬ RunEnded u

/-! ## The states an error leaves -/

/-- After a Reject (R212, R214): the error record, RESULT_LEN, and completion; nothing else. -/
def rejected (code : BitVec 8) (info : Word) (s : State) : State :=
  { s with
    err := true, errCode := code, errInfo := info, resultLen := 0, pending := none, done := true }

/-- After an Abort of ENCODE (R213). -/
def abortedEncode (code : BitVec 8) (info : Word) (s t : State) : Prop :=
  t = { rejected code info s with pk := [], lmem := t.lmem } ∧
    sameOutside s.lmem t.lmem s.dstAddr.toNat s.dstLen.toNat ∧
    unspecifiedIn t.lmem s.dstAddr.toNat s.dstLen.toNat

/-- After an Abort of DECODE (R213). -/
def abortedDecode (code : BitVec 8) (info : Word) (s t : State) : Prop :=
  t = { rejected code info s with decNode := s.root, lmem := t.lmem } ∧
    sameOutside s.lmem t.lmem s.dstAddr.toNat s.dstLen.toNat ∧
    unspecifiedIn t.lmem s.dstAddr.toNat s.dstLen.toNat

/-- After an Abort of DESERIALIZE (R213): as InvalidateTree (R43) leaves it. -/
def abortedDeserialize (code : BitVec 8) (info : Word) (s : State) : State :=
  { rejected code info s with
    treeValid := false, codesValid := false, code := Vector.replicate 256 (.written []), numSyms := 0,
    nodeCount := 0, root := 0, decNode := 0, pk := [] }

/-! ## Host reads -/

/-- A 32-bit host read at `off` returns `v` and has no other effect (20_memory.md R60, R70). -/
def readsAs (s : State) (off : HostOff) (v : Word) : Prop :=
  hostStep (.read32 off) s = .next { s with returned := .word v :: s.returned }

/-- An 8-bit host read at `off` returns `v` and has no other effect. -/
def readsByteAs (s : State) (off : HostOff) (v : Byte) : Prop :=
  hostStep (.read8 off) s = .next { s with returned := .byte v :: s.returned }

/-- What the host reads of LMEM byte `a` as byte lane `k` of an access while BUSY = 0: the byte written there, or the draw at
place `k` where it has no contents (log 2, log 3). -/
def lmemLane (s : State) (k a : Nat) : Byte := (Memory.get s.lmem a).getD (Config.freeByte s.draws k)

/-! ## Serialized trees, tag by tag -/

/-- One production of the serialization alphabet (43_tree_serializer.md R150): a leaf's tag with its symbol, or an internal node's
tag. -/
inductive Tag where
  | leaf (c : Byte)
  | internal
  deriving DecidableEq, Repr

/-- The bits of a tag (R150). -/
def Tag.bits : Tag → Bits
  | .leaf c => true :: byteToBits c
  | .internal => [false]

/-- The leaf symbol of a tag. -/
def Tag.symbol? : Tag → Option Byte
  | .leaf c => some c
  | .internal => none

/-- The bits of a sequence of tags. -/
def tagBits (tags : List Tag) : Bits := tags.flatMap Tag.bits

/-- The leaf symbols of a sequence of tags, in order. -/
def tagSymbols (tags : List Tag) : List Byte := tags.filterMap Tag.symbol?

/-- With `missing` subtrees still to come, the tags leave at least one to come, and never came to the end before. -/
def leavesOpen : (missing : Nat) → List Tag → Bool
  | missing, [] => decide (0 < missing)
  | missing, .leaf _ :: rest => decide (1 < missing) && leavesOpen (missing - 1) rest
  | missing, .internal :: rest => leavesOpen (missing + 1) rest

/-- The tags are a start of a tree that the parser of DESERIALIZE reads without an error and without coming to the tree's end:
distinct leaves and at most 255 internal nodes (43_tree_serializer.md R156). -/
def openStart (tags : List Tag) : Prop :=
  leavesOpen 1 tags = true ∧ (tagSymbols tags).Nodup ∧ tags.count .internal ≤ Config.maxInternal

/-! ## Streams -/

/-- The premises under which DECODE passes its checks (R191). -/
def decodePremises (last : Bool) (s : State) : Prop :=
  Inv s ∧ s.treeValid = true ∧ s.srcAddr.toNat + s.srcLen.toNat ≤ s.lmemSize.bytes ∧
    s.dstAddr.toNat + s.dstLen.toNat ≤ s.lmemSize.bytes ∧ rangesOverlap s = false ∧
    (last = true → s.padIn.toNat ≤ 7 ∧ s.padIn.toNat ≤ 8 * s.srcLen.toNat)

/-- The bits a DECODE chunk consumes (45_huffman_decoder.md R190, R191): the source's, less PAD_IN at the end when LAST = 1. -/
def chunkBits (last : Bool) (s : State) : Bits :=
  sourceBits s (8 * s.srcLen.toNat - if last then s.padIn.toNat else 0)

/-- The decoding loop of the source (45_huffman_decoder.md R194): bits accumulate in a candidate; when it matches an entry of
code→Symbol its symbol is emitted and the candidate starts again. It answers the symbols and the candidate left. -/
def matchingLoop (look : Bits → Option Byte) : (candidate : Bits) → Bits → List Byte × Bits
  | cand, [] => ([], cand)
  | cand, b :: rest =>
    match look (cand ++ [b]) with
    | some c => (c :: (matchingLoop look [] rest).1, (matchingLoop look [] rest).2)
    | none => matchingLoop look (cand ++ [b]) rest

/-- A command succeeds from a state, whatever error the record still shows: with the record acknowledged first (60_exceptions.md
R219), it ends with ERR = 0. -/
def succeeds (i : Instr) (s : State) : Prop := ∃ t, exec i (acknowledgeError s) = .next t ∧ t.err = false

/-- `S` is the sequence of symbols that successful ENCODE chunks have packed with one code table, from PK = ε on, and `B` the
bytes they wrote, up to the state `s` (44_bit_packer.md R171, R174). Between two chunks the host changes what it likes but PK
and CODE. -/
inductive PackedSoFar (table : Vector (Contents Bits) 256) : (S B : List Byte) → (s : State) → Prop
  | start (s : State) (h : s.pk = []) : PackedSoFar table [] [] s
  | chunk (S B : List Byte) (s s' t : State) (out : List Byte) (before : PackedSoFar table S B s)
      (samePk : s'.pk = s.pk) (sameCode : s'.code = table) (run : exec .encode s' = .next t)
      (ok : succeeds .encode s') (len : out.length = t.resultLen.toNat)
      (bytes : holdsBytes t.lmem t.dstAddr.toNat out) :
      PackedSoFar table (S ++ sourceBytes s') (B ++ out) t

/-- The mnemonic of a command (30_encoding.md R91). -/
def mnemonicOf : Instr → String
  | .nop => "NOP"
  | .clear => "CLEAR"
  | .build => "BUILD"
  | .gencodes => "GENCODES"
  | .serialize => "SERIALIZE"
  | .deserialize => "DESERIALIZE"
  | .encode => "ENCODE"
  | .flush => "FLUSH"
  | .decode _ => "DECODE"

end Sys2Proof.Machine
end

