-- ==== Sys2Proof/Certificates/Slice0/Obligations.lean ====
section
/-! DEFINITION. The statements about HUFFCORE, for the provers. -/

open Sys2Proof Sys2Proof.Machine

/-! ## Command words and the engine's turn -/

/-- 30_encoding.md R91: a word selects a mnemonic exactly when (w AND mask) = match, and at most one row matches. The rows
of the table that select a word are exactly the row of the command the word decodes to, or none. -/
def Obligations.DecodedCommandIsTheOneRowTheWordSelects : Prop :=
  ∀ w : Word,
    (encodingTable.filter (fun r => r.selects w)).map EncodingRow.mnemonic =
      match decodeWord w with
      | .ok i => [mnemonicOf i]
      | .error _ => []

/-- Every command has one word, and every word that decodes is the word of its command (R91, R92, R97). -/
def Obligations.DecodeAndEncodeAreInverse : Prop :=
  (∀ i : Instr, i.wellFormed = true → decodeWord (encodeInstr i) = .ok i) ∧
    ∀ (w : Word) (i : Instr), decodeWord w = .ok i → encodeInstr i = w

/-- The words of R91's map, and some that R95 makes illegal. -/
def Obligations.WordsOfTheOpcodeMapDecode : Prop :=
  decodeWord 0x00000000 = .ok .nop ∧ decodeWord 0x00000001 = .ok .clear ∧ decodeWord 0x00000002 = .ok .build ∧
    decodeWord 0x00000003 = .ok .gencodes ∧ decodeWord 0x00000004 = .ok .serialize ∧
    decodeWord 0x00000005 = .ok .deserialize ∧ decodeWord 0x00000006 = .ok .encode ∧
    decodeWord 0x00000007 = .ok .flush ∧ decodeWord 0x00000008 = .ok (.decode false) ∧
    decodeWord 0x00000108 = .ok (.decode true) ∧ decodeWord 0x00000009 = .error .badOpcode ∧
    decodeWord 0x00000102 = .error .badOpcode ∧ decodeWord 0x00000010 = .error .badOpcode ∧
    decodeWord 0x80000000 = .error .badOpcode

/-- 30_encoding.md R95: an illegal word ends with the Reject BAD_OPCODE and ERR_INFO = w, and nothing else changes. The word
of reserved bits 0 and OP 0x0 is NOP. -/
def Obligations.IllegalWordEndsInBadOpcode : Prop :=
  (∀ (s : State) (w : Word), s.pending = some w →
    (8 < (w.extractLsb' 0 4).toNat ∨ w.extractLsb' 4 4 ≠ 0 ∨ w.extractLsb' 9 23 ≠ 0 ∨
      (w.getLsbD 8 = true ∧ w.extractLsb' 0 4 ≠ 8)) →
    engineStep s = .next (rejected 0x01 w s)) ∧
    decodeWord 0x00000000 = .ok .nop

/-- When the engine's turn comes with a word pending that decodes to a command, the step is `exec` of that command (R112,
R114). The other events happen in the agenda's order: a host access, a reset; and a turn of the engine with nothing pending
passes: it changes nothing but the agenda and the draw counter. The agenda, what comes when it is empty, and the idle turn are
the model's choice (log 5, log 6), and so is the draw counter (log 3). -/
def Obligations.StepPerformsTheDecodedCommand : Prop :=
  (∀ (s : State) (w : Word) (i : Instr) (rest : List Event), s.pending = some w → decodeWord w = .ok i →
      (s.agenda = .engine :: rest ∨ (s.agenda = [] ∧ rest = [])) →
      step s = exec i { s with agenda := rest, draws := s.draws + 1 }) ∧
    (∀ (s : State) (a : Access) (rest : List Event), s.agenda = .access a :: rest →
      step s = hostStep a { s with agenda := rest, draws := s.draws + 1 }) ∧
    (∀ (s : State) (rest : List Event), s.agenda = .reset :: rest →
      step s = .next (resetBlock { s with agenda := rest, draws := s.draws + 1 })) ∧
    ∀ (s : State) (rest : List Event), s.pending = none →
      (s.agenda = .engine :: rest ∨ (s.agenda = [] ∧ rest = [])) →
      step s = .next { s with agenda := rest, draws := s.draws + 1 }

/-! ## Whole-machine rules -/

/-- R44's invariants hold in the reset state (70_reset_and_hazards.md R242). -/
def Obligations.ResetStateMeetsTheInvariants : Prop := Inv State.reset

/-- 10_state.md R44: every step keeps the invariants, from every state that meets them. -/
def Obligations.EveryStepKeepsTheInvariants : Prop :=
  ∀ s t : State, Inv s → step s = .next t → Inv t

/-- From a state that meets the invariants no step faults (the fault is log 11's), and a step is refused only for a host
access that 20_memory.md R63 makes illegal (log 8). -/
def Obligations.NoStepFaultsUnderTheInvariants : Prop :=
  ∀ s : State, Inv s →
    (∃ t, step s = .next t) ∨
      ∃ a rest, s.agenda = .access a :: rest ∧ a.legal = false ∧ step s = .refused (.illegalAccess a)

/-- 40_control.md R113, 70_reset_and_hazards.md R254, R256: an accepted command completes. Under the invariants, every command
performs to an end with PENDING = none and DONE = 1. When the engine's turn comes (log 5), the next step is that end; where the
host has no line left then, it is the first point at which the run has ended, whatever resets and turns of the engine are
still to come. -/
def Obligations.EveryAcceptedCommandCompletes : Prop :=
  (∀ (i : Instr) (s : State), Inv s → ∃ t, exec i s = .next t ∧ t.pending = none ∧ t.done = true) ∧
    ∀ (s : State) (w : Word) (rest : List Event), Inv s → s.pending = some w →
      (s.agenda = .engine :: rest ∨ (s.agenda = [] ∧ rest = [])) →
      ∃ t, step s = .next t ∧ t.pending = none ∧ t.done = true ∧ t.agenda = rest ∧
        (noAccess rest = true → RunEndsAt s t)

/-- R214, R30: a command that completes either leaves the error record as it was, or sets ERR, one of the fifteen codes,
and RESULT_LEN = 0. -/
def Obligations.CompletionRecordsAtMostOneError : Prop :=
  ∀ (i : Instr) (s t : State), exec i s = .next t →
    t.pending = none ∧ t.done = true ∧
      ((t.err = s.err ∧ t.errCode = s.errCode ∧ t.errInfo = s.errInfo) ∨
        (t.err = true ∧ 0x01 ≤ t.errCode.toNat ∧ t.errCode.toNat ≤ 0x0F ∧ t.resultLen = 0))

/-- The frame of every command: the fields it may write, by name; all others are as before. In particular no command
writes an operand register, CTRL, CMD_LAST, BUSY_VIOL or LMEM_SIZE, and only CLEAR writes FREQ. -/
def Obligations.CommandsWriteOnlyTheirOwnFields : Prop :=
  ∀ s t : State,
    (exec .nop s = .next t → t = { s with pending := none, done := true }) ∧
    (exec .clear s = .next t →
      t = { s with
        pending := none, done := true, freq := t.freq, treeValid := t.treeValid, codesValid := t.codesValid,
        code := t.code, numSyms := t.numSyms, nodeCount := t.nodeCount, root := t.root, decNode := t.decNode,
        pk := t.pk, padOut := t.padOut, resultLen := t.resultLen }) ∧
    (exec .build s = .next t →
      t = { s with
        pending := none, done := true, err := t.err, errCode := t.errCode, errInfo := t.errInfo,
        resultLen := t.resultLen, treeValid := t.treeValid, codesValid := t.codesValid, code := t.code,
        node := t.node, numSyms := t.numSyms, nodeCount := t.nodeCount, root := t.root, decNode := t.decNode,
        pk := t.pk }) ∧
    (exec .gencodes s = .next t →
      t = { s with
        pending := none, done := true, err := t.err, errCode := t.errCode, errInfo := t.errInfo,
        resultLen := t.resultLen, codesValid := t.codesValid, code := t.code }) ∧
    (exec .serialize s = .next t →
      t = { s with
        pending := none, done := true, err := t.err, errCode := t.errCode, errInfo := t.errInfo,
        resultLen := t.resultLen, lmem := t.lmem }) ∧
    (exec .deserialize s = .next t →
      t = { s with
        pending := none, done := true, err := t.err, errCode := t.errCode, errInfo := t.errInfo,
        resultLen := t.resultLen, treeValid := t.treeValid, codesValid := t.codesValid, code := t.code,
        node := t.node, numSyms := t.numSyms, nodeCount := t.nodeCount, root := t.root, decNode := t.decNode,
        pk := t.pk }) ∧
    (exec .encode s = .next t →
      t = { s with
        pending := none, done := true, err := t.err, errCode := t.errCode, errInfo := t.errInfo,
        resultLen := t.resultLen, pk := t.pk, lmem := t.lmem }) ∧
    (exec .flush s = .next t →
      t = { s with
        pending := none, done := true, err := t.err, errCode := t.errCode, errInfo := t.errInfo,
        resultLen := t.resultLen, padOut := t.padOut, pk := t.pk, lmem := t.lmem }) ∧
    ∀ last : Bool, exec (.decode last) s = .next t →
      t = { s with
        pending := none, done := true, err := t.err, errCode := t.errCode, errInfo := t.errInfo,
        resultLen := t.resultLen, decNode := t.decNode, lmem := t.lmem }

/-- The memory frame of the storing commands: every byte outside the bytes written from DST_ADDR on, RESULT_LEN of them and
at most DST_LEN, is as before; or the command aborted, and every byte outside the destination range is as before while the range reads
`any` (R213). -/
def Obligations.CommandsStoreOnlyInTheDestination : Prop :=
  ∀ (i : Instr) (s t : State),
    (i = .serialize ∨ i = .encode ∨ i = .flush ∨ i = .decode false ∨ i = .decode true) →
    exec i s = .next t →
    (i = .flush → s.pk = [] → t.lmem = s.lmem) ∧
    ((t.resultLen.toNat ≤ s.dstLen.toNat ∧ sameOutside s.lmem t.lmem s.dstAddr.toNat t.resultLen.toNat) ∨
      (i ≠ .serialize ∧ i ≠ .flush ∧ t.err = true ∧ t.resultLen = 0 ∧
        sameOutside s.lmem t.lmem s.dstAddr.toNat s.dstLen.toNat ∧
        unspecifiedIn t.lmem s.dstAddr.toNat s.dstLen.toNat))

/-- 20_memory.md R62, R69: every step keeps LMEM in its canonical form and inside LMEM_SIZE, and LMEM_SIZE itself (R39). -/
def Obligations.EveryStepKeepsLmemInItsBounds : Prop :=
  ∀ s t : State, Memory.wf s.lmem = true → insideLmem s → step s = .next t →
    Memory.wf t.lmem = true ∧ insideLmem t ∧ t.lmemSize = s.lmemSize

/-! ## Sequencer -/

/-- 40_control.md R115: the word 0 is NOP, which changes nothing but PENDING and DONE. -/
def Obligations.NopOnlyCompletes : Prop :=
  decodeWord 0x00000000 = .ok .nop ∧ ∀ s : State, exec .nop s = .next { s with pending := none, done := true }

/-- 40_control.md R116: the word 1 is CLEAR, which returns the data path to fresh state and changes nothing else. -/
def Obligations.ClearReturnsTheDataPathToFreshState : Prop :=
  decodeWord 0x00000001 = .ok .clear ∧ ∀ s : State, exec .clear s = .next
    { s with
      freq := Vector.replicate 256 (.written 0), treeValid := false, codesValid := false,
      code := Vector.replicate 256 (.written []), numSyms := 0, nodeCount := 0, root := 0, decNode := 0, pk := [],
      padOut := 0, resultLen := 0, pending := none, done := true }

/-! ## huffman_tree_builder -/

/-- 41_tree_builder.md R131, 42_code_table_gen.md R141: with every FREQ entry 0, BUILD ends in the Reject EMPTY_TABLE; without a
tree, GENCODES ends in the Reject NO_TREE. -/
def Obligations.BuildAndGencodesReject : Prop :=
  ∀ s : State,
    ((∀ c : Byte, freqEntry s c = .written 0) → exec .build s = .next (rejected 0x02 0 s)) ∧
    (s.treeValid = false → exec .gencodes s = .next (rejected 0x03 0 s))

/-- 41_tree_builder.md R131 to R133: with every FREQ entry written and one not 0, BUILD completes with a full tree over the
symbols present: leaf handles in ascending symbol order, NODE_COUNT = 2k - 1, ROOT = 2k - 2, sums of frequencies,
DEC_NODE = ROOT, codes invalid, PK empty; RESULT_LEN and PAD_OUT stay. -/
def Obligations.BuildMakesAFullTreeOfTheSymbolsPresent : Prop :=
  ∀ (s : State) (f : Byte → Word), (∀ c, freqEntry s c = .written (f c)) → (∃ c, f c ≠ 0) →
    ∃ t tr,
      exec .build s = .next t ∧
      t = { s with
        treeValid := true, codesValid := false, code := Vector.replicate 256 (.written []), node := t.node,
        numSyms := t.numSyms, nodeCount := t.nodeCount, root := t.root, decNode := t.root, pk := [],
        pending := none, done := true } ∧
      TreeInv t tr ∧
      t.numSyms.toNat = (allSymbols.filter (fun c => f c != 0)).length ∧
      t.root.toNat = 2 * t.numSyms.toNat - 2 ∧
      ∀ h : Handle, h.toNat < t.numSyms.toNat →
        ∃ c, (allSymbols.filter (fun c => f c != 0))[h.toNat]? = some c ∧
          nodeAt t h = some (.leaf ((f c).setWidth 40) c)

/-- 00_scope.md R8: the root's 40-bit frequency is the sum of all counts; no sum overflows. -/
def Obligations.RootFrequencyIsTheSumOfTheCounts : Prop :=
  ∀ (s t : State) (f : Byte → Word), (∀ c, freqEntry s c = .written (f c)) → (∃ c, f c ≠ 0) →
    exec .build s = .next t →
    (nodeFreq t t.root).toNat = (allSymbols.map (fun c => (f c).toNat)).sum

/-- 41_tree_builder.md R130: PopMin takes the least key and leaves the rest of the queue. -/
def Obligations.PopMinTakesTheLeastKey : Prop :=
  ∀ q : List QueueKey, q ≠ [] →
    ∃ a rest, popMin q = some (a, rest) ∧ q.Perm (a :: rest) ∧ ∀ b ∈ rest, b.less a = false

/-- 41_tree_builder.md R130, R131: in the tree BUILD makes, the node with handle h is made of the two nodes that come first
in the queue order among those with a handle below h that no earlier node has taken, LEFT the first and RIGHT the second. -/
def Obligations.BuildMergesTheTwoLeastNodes : Prop :=
  ∀ (s t : State) (f : Byte → Word), (∀ c, freqEntry s c = .written (f c)) → (∃ c, f c ≠ 0) →
    exec .build s = .next t →
    ∀ (h l r : Handle) (v : NodeFreq), nodeAt t h = some (.internal v l r) →
      l.toNat < h.toNat ∧ r.toNat < h.toNat ∧ ¬ takenBefore t h l ∧ ¬ takenBefore t h r ∧ keyBefore t l r ∧
        ∀ x : Handle, x.toNat < h.toNat → x ≠ l → x ≠ r → ¬ takenBefore t h x → keyBefore t r x

/-- 41_tree_builder.md R134: BUILD is deterministic. Two BUILDs from equal FREQ contents, whatever else differs, produce the
same nodes below NODE_COUNT, ROOT, NUM_SYMS and NODE_COUNT. -/
def Obligations.BuildDependsOnFreqAlone : Prop :=
  ∀ (s1 s2 t1 t2 : State) (f : Byte → Word), (∀ c, freqEntry s1 c = .written (f c)) →
    (∀ c, freqEntry s2 c = .written (f c)) → (∃ c, f c ≠ 0) →
    exec .build s1 = .next t1 → exec .build s2 = .next t2 →
    t1.root = t2.root ∧ t1.numSyms = t2.numSyms ∧ t1.nodeCount = t2.nodeCount ∧
      ∀ h : Handle, nodeAt t1 h = nodeAt t2 h

/-! ## huffman_code_table_gen -/

/-- 42_code_table_gen.md R140, R141: with an internal root, GENCODES gives each leaf's symbol the path of that leaf, and
every other symbol LEN = 0. -/
def Obligations.GencodesWritesThePathOfEveryLeaf : Prop :=
  ∀ s : State, Inv s → s.treeValid = true → internalAt s s.root →
    ∃ t, exec .gencodes s = .next t ∧
      t = { s with code := t.code, codesValid := true, pending := none, done := true } ∧
      ∀ c : Byte, ∃ p, codeEntry t c = .written p ∧
        ∀ q : Bits, (∃ h, followPath s s.root q = some h ∧ leafAt s h c) ↔ (q = p ∧ p ≠ [])

/-- 42_code_table_gen.md R142: when the root is a leaf, its symbol gets the one-bit code "0", every other symbol none. -/
def Obligations.LoneLeafGetsTheCodeZero : Prop :=
  ∀ (s : State) (c : Byte), s.treeValid = true → leafAt s s.root c →
    ∃ t, exec .gencodes s = .next t ∧
      t = { s with code := t.code, codesValid := true, pending := none, done := true } ∧
      codeEntry t c = .written [false] ∧ ∀ d : Byte, d ≠ c → codeEntry t d = .written []

/-- 42_code_table_gen.md R143: no code is a prefix of another. -/
def Obligations.GeneratedCodesArePrefixFree : Prop :=
  ∀ s t : State, Inv s → s.treeValid = true → exec .gencodes s = .next t →
    ∀ (c d : Byte) (p q : Bits), c ≠ d → codeEntry t c = .written p → codeEntry t d = .written q →
      p ≠ [] → q ≠ [] → ¬ p <+: q

/-! ## tree_serializer -/

/-- 43_tree_serializer.md R152: a valid tree of k leaves has k - 1 internal nodes and serializes to 10k - 1 bits, between 9
and 2559, in 2 to 320 bytes, and TREE_BITS reads that length. -/
def Obligations.SerializationHasTenBitsALeafLessOne : Prop :=
  ∀ (s : State) (tr : Tree), Inv s → s.treeValid = true → treeOf s = some tr →
    tr.symbols.length = s.numSyms.toNat ∧ tr.internalHandles.length = s.numSyms.toNat - 1 ∧
      tr.ser.length = 10 * s.numSyms.toNat - 1 ∧ 9 ≤ tr.ser.length ∧ tr.ser.length ≤ 2559 ∧
      2 ≤ bytesFor tr.ser.length ∧ bytesFor tr.ser.length ≤ 320 ∧
      readReg s .treeBits = BitVec.ofNat 32 tr.ser.length ∧
      (s.pending = none → readsAs s 0x00044 (BitVec.ofNat 32 tr.ser.length))

/-- 43_tree_serializer.md R153, R215: the checks of SERIALIZE, in order, each a Reject. -/
def Obligations.SerializeChecksInOrder : Prop :=
  ∀ s : State,
    (s.treeValid = false → exec .serialize s = .next (rejected 0x03 0 s)) ∧
    (s.treeValid = true → s.lmemSize.bytes < s.dstAddr.toNat + s.dstLen.toNat →
      exec .serialize s = .next (rejected 0x06 0 s)) ∧
    ∀ tr : Tree, s.treeValid = true → s.dstAddr.toNat + s.dstLen.toNat ≤ s.lmemSize.bytes →
      treeOf s = some tr → s.dstLen.toNat < bytesFor tr.ser.length →
      exec .serialize s = .next (rejected 0x09 (BitVec.ofNat 32 (bytesFor tr.ser.length)) s)

/-- 43_tree_serializer.md R153, R154: SERIALIZE writes the preorder bits, padded with 0 bits to a byte boundary, from DST_ADDR
on, and nothing else but RESULT_LEN. -/
def Obligations.SerializeWritesThePreorderBits : Prop :=
  ∀ (s : State) (tr : Tree), s.treeValid = true → treeOf s = some tr →
    s.dstAddr.toNat + s.dstLen.toNat ≤ s.lmemSize.bytes → bytesFor tr.ser.length ≤ s.dstLen.toNat →
    ∃ t out, exec .serialize s = .next t ∧
      t = { s with
        lmem := t.lmem, resultLen := BitVec.ofNat 32 out.length, pending := none, done := true } ∧
      out.length = bytesFor tr.ser.length ∧
      out.flatMap byteToBits = tr.ser ++ List.replicate (8 * out.length - tr.ser.length) false ∧
      holdsBytes t.lmem s.dstAddr.toNat out ∧
      sameOutside s.lmem t.lmem s.dstAddr.toNat out.length

/-- 43_tree_serializer.md R151, R155, R157, R158: on a source that starts with the serialization of a tree with distinct
symbols, DESERIALIZE parses that tree and no further: handles in preorder, FREQ 0, NUM_SYMS, NODE_COUNT, and RESULT_LEN the
bytes the tree reaches. -/
def Obligations.DeserializeParsesOneSerializedTree : Prop :=
  ∀ (s : State) (tr : Tree) (rest : Bits), s.srcAddr.toNat + s.srcLen.toNat ≤ s.lmemSize.bytes →
    tr.symbols.Nodup → sourceBits s (8 * s.srcLen.toNat) = tr.ser ++ rest →
    ∃ t tr', exec .deserialize s = .next t ∧
      t = { s with
        treeValid := true, codesValid := false, code := Vector.replicate 256 (.written []), node := t.node,
        numSyms := t.numSyms, nodeCount := t.nodeCount, root := 0, decNode := 0, pk := [],
        resultLen := BitVec.ofNat 32 (bytesFor tr.ser.length), pending := none, done := true } ∧
      TreeInv t tr' ∧ tr'.ser = tr.ser ∧ t.numSyms.toNat = tr.symbols.length ∧
      tr'.handles.map BitVec.toNat = List.range t.nodeCount.toNat ∧
      ∀ h n, nodeAt t h = some n → n.freq = 0

/-- 43_tree_serializer.md R157: a source that ends inside a serialization is the Abort TREE_TRUNCATED with ERR_INFO =
8*SRC_LEN. -/
def Obligations.DeserializeReportsATruncatedTree : Prop :=
  ∀ (s : State) (tr : Tree) (missing : Bits), s.srcAddr.toNat + s.srcLen.toNat ≤ s.lmemSize.bytes →
    tr.symbols.Nodup → missing ≠ [] → sourceBits s (8 * s.srcLen.toNat) ++ missing = tr.ser →
    exec .deserialize s = .next (abortedDeserialize 0x0B (BitVec.ofNat 32 (8 * s.srcLen.toNat)) s)

/-- 43_tree_serializer.md R156, R157, 60_exceptions.md R211, R213: SRC_RANGE is a Reject; past it DESERIALIZE ends with a valid tree
and the error record as it was, or as InvalidateTree leaves the state with one of its three Aborts. Which one: after an open
start of a tree, DUP_SYMBOL at a leaf of a symbol seen before and TREE_TOO_LARGE at a 256th internal node, ERR_INFO being the
index of that tag's first bit; TREE_TRUNCATED where no whole tag follows, ERR_INFO being 8*SRC_LEN. -/
def Obligations.DeserializeEndsWithATreeOrNone : Prop :=
  ∀ s : State,
    (s.lmemSize.bytes < s.srcAddr.toNat + s.srcLen.toNat →
      exec .deserialize s = .next (rejected 0x05 0 s)) ∧
    (s.srcAddr.toNat + s.srcLen.toNat ≤ s.lmemSize.bytes →
      ((∃ t tr, exec .deserialize s = .next t ∧ t.treeValid = true ∧ TreeInv t tr ∧ t.err = s.err ∧
          t.errCode = s.errCode ∧ t.errInfo = s.errInfo) ∨
        ∃ code info, (code = 0x0B ∨ code = 0x0C ∨ code = 0x0D) ∧
          exec .deserialize s = .next (abortedDeserialize code info s)) ∧
      ∀ tags : List Tag, openStart tags →
        (∀ (c : Byte) (rest : Bits), c ∈ tagSymbols tags →
          sourceBits s (8 * s.srcLen.toNat) = tagBits tags ++ (Tag.bits (.leaf c) ++ rest) →
          exec .deserialize s =
            .next (abortedDeserialize 0x0C (BitVec.ofNat 32 (tagBits tags).length) s)) ∧
        (∀ rest : Bits, tags.count .internal = 255 →
          sourceBits s (8 * s.srcLen.toNat) = tagBits tags ++ (Tag.bits .internal ++ rest) →
          exec .deserialize s =
            .next (abortedDeserialize 0x0D (BitVec.ofNat 32 (tagBits tags).length) s)) ∧
        ∀ part : Bits, (part = [] ∨ ∃ p : Bits, part = true :: p ∧ p.length < 8) →
          sourceBits s (8 * s.srcLen.toNat) = tagBits tags ++ part →
          exec .deserialize s =
            .next (abortedDeserialize 0x0B (BitVec.ofNat 32 (8 * s.srcLen.toNat)) s))

/-- 43_tree_serializer.md R159: SERIALIZE, then DESERIALIZE of what it wrote, gives a tree with the same serialization, and
GENCODES gives both trees the same code table. Between the two the host sets SRC_ADDR to DST_ADDR and SRC_LEN to
RESULT_LEN. -/
def Obligations.DeserializeUndoesSerialize : Prop :=
  ∀ (s t1 : State) (tr : Tree), Inv s → s.treeValid = true → treeOf s = some tr →
    s.dstAddr.toNat + s.dstLen.toNat ≤ s.lmemSize.bytes → bytesFor tr.ser.length ≤ s.dstLen.toNat →
    exec .serialize s = .next t1 →
    ∃ t2 tr2 g1 g2,
      exec .deserialize { t1 with srcAddr := t1.dstAddr, srcLen := t1.resultLen } = .next t2 ∧
      t2.treeValid = true ∧ treeOf t2 = some tr2 ∧ tr2.ser = tr.ser ∧ t2.resultLen = t1.resultLen ∧
      exec .gencodes s = .next g1 ∧ exec .gencodes t2 = .next g2 ∧ g1.codesValid = true ∧
      g2.codesValid = true ∧ g1.code = g2.code

/-! ## bit_packer -/

/-- 44_bit_packer.md R172, R215: the checks of ENCODE, in order, each a Reject that changes nothing. -/
def Obligations.EncodeChecksInOrder : Prop :=
  ∀ s : State,
    (s.codesValid = false → exec .encode s = .next (rejected 0x04 0 s)) ∧
    (s.codesValid = true → s.lmemSize.bytes < s.srcAddr.toNat + s.srcLen.toNat →
      exec .encode s = .next (rejected 0x05 0 s)) ∧
    (s.codesValid = true → s.srcAddr.toNat + s.srcLen.toNat ≤ s.lmemSize.bytes →
      s.lmemSize.bytes < s.dstAddr.toNat + s.dstLen.toNat → exec .encode s = .next (rejected 0x06 0 s)) ∧
    (s.codesValid = true → s.srcAddr.toNat + s.srcLen.toNat ≤ s.lmemSize.bytes →
      s.dstAddr.toNat + s.dstLen.toNat ≤ s.lmemSize.bytes → rangesOverlap s = true →
      exec .encode s = .next (rejected 0x07 0 s))

/-- 44_bit_packer.md R170, R172: when every source symbol has a code and the complete bytes fit, ENCODE emits the bits of PK and
of the codes in order, whole bytes to DST_ADDR on and the rest, at most 7 bits, to PK. -/
def Obligations.EncodePacksTheCodesInOrder : Prop :=
  ∀ s : State, s.codesValid = true → s.pk.length ≤ 7 →
    s.srcAddr.toNat + s.srcLen.toNat ≤ s.lmemSize.bytes →
    s.dstAddr.toNat + s.dstLen.toNat ≤ s.lmemSize.bytes → rangesOverlap s = false →
    (∀ c ∈ sourceBytes s, readCode s c ≠ []) →
    (s.pk ++ (sourceBytes s).flatMap (readCode s)).length / 8 ≤ s.dstLen.toNat →
    ∃ t out, exec .encode s = .next t ∧
      t = { s with
        lmem := t.lmem, pk := t.pk, resultLen := BitVec.ofNat 32 out.length, pending := none, done := true } ∧
      t.pk.length ≤ 7 ∧
      out.flatMap byteToBits ++ t.pk = s.pk ++ (sourceBytes s).flatMap (readCode s) ∧
      holdsBytes t.lmem s.dstAddr.toNat out ∧
      sameOutside s.lmem t.lmem s.dstAddr.toNat out.length

/-- 44_bit_packer.md R172, 60_exceptions.md R211, R213: the Aborts of ENCODE at symbol i, the symbols before it having gone
out: SYMBOL_NOT_IN_TABLE when it has no code, DST_OVERFLOW when a byte it completes has no room. -/
def Obligations.EncodeAbortsAtTheFirstBadSymbol : Prop :=
  ∀ (s : State) (before after : List Byte) (c : Byte), s.codesValid = true → s.pk.length ≤ 7 →
    s.srcAddr.toNat + s.srcLen.toNat ≤ s.lmemSize.bytes →
    s.dstAddr.toNat + s.dstLen.toNat ≤ s.lmemSize.bytes → rangesOverlap s = false →
    sourceBytes s = before ++ c :: after → (∀ d ∈ before, readCode s d ≠ []) →
    (s.pk ++ before.flatMap (readCode s)).length / 8 ≤ s.dstLen.toNat →
    (readCode s c = [] →
      ∃ t, exec .encode s = .next t ∧ abortedEncode 0x0A (BitVec.ofNat 32 before.length) s t) ∧
    (readCode s c ≠ [] →
      s.dstLen.toNat < (s.pk ++ (before ++ [c]).flatMap (readCode s)).length / 8 →
      ∃ t, exec .encode s = .next t ∧ abortedEncode 0x09 (BitVec.ofNat 32 before.length) s t)

/-- 44_bit_packer.md R176: FLUSH, the word 7, checks its range; with bits pending it needs one byte of room, writes them padded with 0 bits,
and records the pad count; with none it writes no byte. -/
def Obligations.FlushPadsTheFinalByte : Prop :=
  decodeWord 0x00000007 = .ok .flush ∧ ∀ s : State,
    (s.lmemSize.bytes < s.dstAddr.toNat + s.dstLen.toNat → exec .flush s = .next (rejected 0x06 0 s)) ∧
    (s.dstAddr.toNat + s.dstLen.toNat ≤ s.lmemSize.bytes → s.pk = [] →
      exec .flush s = .next { s with padOut := 0, resultLen := 0, pending := none, done := true }) ∧
    (s.dstAddr.toNat + s.dstLen.toNat ≤ s.lmemSize.bytes → s.pk ≠ [] → s.dstLen = 0 →
      exec .flush s = .next (rejected 0x09 1 s)) ∧
    (s.dstAddr.toNat + s.dstLen.toNat ≤ s.lmemSize.bytes → s.pk ≠ [] → s.pk.length ≤ 7 → s.dstLen ≠ 0 →
      ∃ t v, exec .flush s = .next t ∧
        t = { s with
          lmem := t.lmem, padOut := t.padOut, resultLen := 1, pk := [], pending := none, done := true } ∧
        t.padOut.toNat = 8 - s.pk.length ∧
        Memory.get t.lmem s.dstAddr.toNat = some v ∧
        byteToBits v = s.pk ++ List.replicate (8 - s.pk.length) false ∧
        sameOutside s.lmem t.lmem s.dstAddr.toNat 1)

/-- 44_bit_packer.md R174: however a symbol sequence is cut into ENCODE chunks, starting from PK = ε and ending with one FLUSH,
the bytes written are the packing of the concatenated codes, padded with PAD_OUT zero bits. -/
def Obligations.ChunkingDoesNotChangeThePackedBytes : Prop :=
  ∀ (table : Vector (Contents Bits) 256) (S B : List Byte) (s s' t : State) (out : List Byte),
    (∀ c : Byte, ∃ b, table[c.toNat]'c.isLt = .written b) → PackedSoFar table S B s → s'.pk = s.pk →
    exec .flush s' = .next t → succeeds .flush s' → out.length = t.resultLen.toNat →
    holdsBytes t.lmem t.dstAddr.toNat out →
    (B ++ out).flatMap byteToBits =
        S.flatMap (tableCode table) ++ List.replicate t.padOut.toNat false ∧
      t.padOut.toNat = (8 - (S.flatMap (tableCode table)).length % 8) % 8 ∧
      (B ++ out).length = bytesFor (S.flatMap (tableCode table)).length

/-! ## huffman_decoder -/

/-- 45_huffman_decoder.md R191, R215: the checks of DECODE, in order, each a Reject that changes nothing. -/
def Obligations.DecodeChecksInOrder : Prop :=
  ∀ (last : Bool) (s : State),
    (s.treeValid = false → exec (.decode last) s = .next (rejected 0x03 0 s)) ∧
    (s.treeValid = true → s.lmemSize.bytes < s.srcAddr.toNat + s.srcLen.toNat →
      exec (.decode last) s = .next (rejected 0x05 0 s)) ∧
    (s.treeValid = true → s.srcAddr.toNat + s.srcLen.toNat ≤ s.lmemSize.bytes →
      s.lmemSize.bytes < s.dstAddr.toNat + s.dstLen.toNat →
      exec (.decode last) s = .next (rejected 0x06 0 s)) ∧
    (s.treeValid = true → s.srcAddr.toNat + s.srcLen.toNat ≤ s.lmemSize.bytes →
      s.dstAddr.toNat + s.dstLen.toNat ≤ s.lmemSize.bytes → rangesOverlap s = true →
      exec (.decode last) s = .next (rejected 0x07 0 s)) ∧
    (s.treeValid = true → s.srcAddr.toNat + s.srcLen.toNat ≤ s.lmemSize.bytes →
      s.dstAddr.toNat + s.dstLen.toNat ≤ s.lmemSize.bytes → rangesOverlap s = false → last = true →
      (7 < s.padIn.toNat ∨ 8 * s.srcLen.toNat < s.padIn.toNat) →
      exec (.decode last) s = .next (rejected 0x08 (s.padIn.setWidth 32) s))

/-- 45_huffman_decoder.md R190 to R193, R195: the candidate `p0` left by the chunks before, followed by this chunk's bits, being
the codes of a symbol sequence followed by a candidate `p`, DECODE emits that sequence and keeps `p` in DEC_NODE; with
LAST = 1, `p` is empty. -/
def Obligations.DecodeEmitsTheSymbolsOfTheCodewords : Prop :=
  ∀ (last : Bool) (s : State) (words : List (Byte × Bits)) (p0 p : Bits) (n : Handle),
    decodePremises last s → candidateAt s p0 s.decNode → candidateAt s p n → (last = true → p = []) →
    (∀ w ∈ words, codeIs s w.1 w.2) → p0 ++ chunkBits last s = words.flatMap Prod.snd ++ p →
    words.length ≤ s.dstLen.toNat →
    ∃ t, exec (.decode last) s = .next t ∧
      t = { s with
        lmem := t.lmem, decNode := n, resultLen := BitVec.ofNat 32 words.length, pending := none,
        done := true } ∧
      holdsBytes t.lmem s.dstAddr.toNat (words.map Prod.fst) ∧
      sameOutside s.lmem t.lmem s.dstAddr.toNat words.length

/-- 45_huffman_decoder.md R195, 60_exceptions.md R213: a stream that ends inside a codeword is the Abort INCOMPLETE_CODE, with
ERR_INFO the number of bits. -/
def Obligations.DecodeReportsAnIncompleteCodeword : Prop :=
  ∀ (s : State) (words : List (Byte × Bits)) (p0 p : Bits) (n : Handle), decodePremises true s →
    candidateAt s p0 s.decNode → candidateAt s p n → p ≠ [] → (∀ w ∈ words, codeIs s w.1 w.2) →
    p0 ++ chunkBits true s = words.flatMap Prod.snd ++ p → words.length ≤ s.dstLen.toNat →
    ∃ t, exec (.decode true) s = .next t ∧
      abortedDecode 0x0F (BitVec.ofNat 32 (8 * s.srcLen.toNat - s.padIn.toNat)) s t

/-- 45_huffman_decoder.md R191, 60_exceptions.md R211, R213: when the symbol that completes at bit j has no room, DECODE is the
Abort DST_OVERFLOW with ERR_INFO = j. -/
def Obligations.DecodeReportsAFullDestination : Prop :=
  ∀ (last : Bool) (s : State) (words : List (Byte × Bits)) (w : Byte × Bits) (p0 rest : Bits),
    decodePremises last s → candidateAt s p0 s.decNode → (∀ x ∈ words ++ [w], codeIs s x.1 x.2) →
    p0 ++ chunkBits last s = (words ++ [w]).flatMap Prod.snd ++ rest → words.length = s.dstLen.toNat →
    ∃ t, exec (.decode last) s = .next t ∧
      abortedDecode 0x09
        (BitVec.ofNat 32 (((words ++ [w]).flatMap Prod.snd).length - p0.length - 1)) s t

/-- 45_huffman_decoder.md R193: under a single-leaf root each 0 bit emits the symbol, and the first 1 bit is the Abort
INVALID_CODE with ERR_INFO its index. -/
def Obligations.LoneLeafRejectsAOneBit : Prop :=
  ∀ (last : Bool) (s : State) (c : Byte) (j : Nat) (rest : Bits), decodePremises last s →
    leafAt s s.root c → chunkBits last s = List.replicate j false ++ true :: rest → j ≤ s.dstLen.toNat →
    ∃ t, exec (.decode last) s = .next t ∧ abortedDecode 0x0E (BitVec.ofNat 32 j) s t

/-- 45_huffman_decoder.md R194: tree descent emits exactly the symbols, in the same order, that the source's exact-match loop
over the code→Symbol table emits from the candidate `p0` on, and DEC_NODE is the node its candidate leads to. A LAST chunk that
leaves a candidate, and a 1 bit under a lone leaf, are the Aborts of DecodeReportsAnIncompleteCodeword and
LoneLeafRejectsAOneBit. -/
def Obligations.DescentEqualsTheExactMatchLoop : Prop :=
  ∀ (last : Bool) (s : State) (look : Bits → Option Byte) (p0 : Bits), decodePremises last s →
    s.codesValid = true → candidateAt s p0 s.decNode →
    (∀ c, leafAt s s.root c → true ∉ chunkBits last s) →
    (∀ p c, look p = some c ↔ (p ≠ [] ∧ codeEntry s c = .written p)) →
    (matchingLoop look p0 (chunkBits last s)).1.length ≤ s.dstLen.toNat →
    (last = true → (matchingLoop look p0 (chunkBits last s)).2 = []) →
    ∃ t, exec (.decode last) s = .next t ∧ t.err = s.err ∧
      t.resultLen.toNat = (matchingLoop look p0 (chunkBits last s)).1.length ∧
      holdsBytes t.lmem s.dstAddr.toNat (matchingLoop look p0 (chunkBits last s)).1 ∧
      followPath s s.root (matchingLoop look p0 (chunkBits last s)).2 = some t.decNode

/-- 45_huffman_decoder.md R196. First: ENCODE, FLUSH right behind it, and DECODE.LAST of the bytes they wrote with PAD_IN =
PAD_OUT, on the same tree, write exactly the source bytes and end at ROOT. Between the commands the host sets the operand
registers; `da` and `dl` are where it lets DECODE write. Second: the same of the bytes of any number of ENCODE chunks and one
FLUSH, decoded by one DECODE.LAST in any state that holds them and whose tree has the same code table, the tree they were
packed with or its DESERIALIZE copy (43_tree_serializer.md R159). -/
def Obligations.DecodeOfThePackedStreamIsTheSource : Prop :=
  (∀ (s t1 t2 : State) (da dl : Word), Inv s → s.errCode = 0 → s.pk = [] → s.decNode = s.root →
    exec .encode s = .next t1 → t1.errCode = 0 →
    exec .flush { t1 with dstAddr := t1.dstAddr + t1.resultLen, dstLen := 1 } = .next t2 → t2.errCode = 0 →
    da.toNat + dl.toNat ≤ s.lmemSize.bytes → s.srcLen.toNat ≤ dl.toNat →
    overlap s.dstAddr (t1.resultLen + t2.resultLen) da dl = false →
    ∃ t3,
      exec (.decode true)
        { t2 with
          srcAddr := s.dstAddr, srcLen := t1.resultLen + t2.resultLen, dstAddr := da, dstLen := dl,
          padIn := t2.padOut.setWidth 8 } = .next t3 ∧
      t3.errCode = 0 ∧ holdsBytes t3.lmem da.toNat (sourceBytes s) ∧ t3.resultLen = s.srcLen ∧
      t3.decNode = t3.root) ∧
    ∀ (tr : Tree) (S B out : List Byte) (s s' t d : State),
      PackedSoFar (codeTable tr) S B s → s'.pk = s.pk → exec .flush s' = .next t → succeeds .flush s' →
      out.length = t.resultLen.toNat → holdsBytes t.lmem t.dstAddr.toNat out →
      decodePremises true d → treeOf d = some tr → d.decNode = d.root → d.padIn = t.padOut.setWidth 8 →
      d.srcLen.toNat = (B ++ out).length → holdsBytes d.lmem d.srcAddr.toNat (B ++ out) →
      S.length ≤ d.dstLen.toNat →
      ∃ t3, exec (.decode true) d = .next t3 ∧ t3.err = d.err ∧ holdsBytes t3.lmem d.dstAddr.toNat S ∧
        t3.resultLen.toNat = S.length ∧ t3.decNode = t3.root

/-! ## Host accesses -/

/-- 40_control.md R111, 10_state.md R26: a write of CMD while BUSY = 0 accepts the word, whatever it is; while BUSY = 1 it is
dropped. A read of CMD gives the last accepted word. -/
def Obligations.CommandWriteIsAcceptedUnlessBusy : Prop :=
  ∀ (s : State) (w : Word),
    (s.pending = none →
      hostStep (.write32 0x0000C w) s =
        .next { s with cmdLast := w, pending := some w, done := false }) ∧
    (s.pending ≠ none → hostStep (.write32 0x0000C w) s = .next { s with busyViol := true }) ∧
    hostStep (.read32 0x0000C) s = .next { s with returned := .word s.cmdLast :: s.returned }

/-- 20_memory.md R66: while BUSY = 1 a write of CMD, of an operand register, of FREQ or of an LMEM byte is dropped and sets
BUSY_VIOL; CTRL and STATUS are written as usual. (The places that ignore writes are ReadOnlyAndReservedPlaces.) -/
def Obligations.InputWritesAreDroppedWhileBusy : Prop :=
  ∀ (s : State) (w : Word), s.pending = some w →
    (∀ (off : HostOff) (v : Word), off.toNat % 4 = 0 →
      (off.toNat = 0x00C ∨ (0x018 ≤ off.toNat ∧ off.toNat ≤ 0x028) ∨ (0x400 ≤ off.toNat ∧ off.toNat < 0x800) ∨
        (0x10000 ≤ off.toNat ∧ off.toNat < 0x10000 + s.lmemSize.bytes)) →
      hostStep (.write32 off v) s = .next { s with busyViol := true }) ∧
    (∀ (off : HostOff) (v : Byte), 0x10000 ≤ off.toNat → off.toNat < 0x10000 + s.lmemSize.bytes →
      hostStep (.write8 off v) s = .next { s with busyViol := true }) ∧
    (∀ v : Word,
      hostStep (.write32 0x00004 v) s = .next { s with doneIE := v.getLsbD 0, errIE := v.getLsbD 1 } ∧
      ∃ t, hostStep (.write32 0x00008 v) s = .next t ∧ t.pending = some w ∧
        t.done = (s.done && !v.getLsbD 1) ∧ t.err = (s.err && !v.getLsbD 2) ∧
        t.busyViol = (s.busyViol && !v.getLsbD 3))

/-- 10_state.md R23, R28, R29, R41, 20_memory.md R65: read-only and reserved places, and the LMEM window at or beyond LMEM_SIZE,
ignore writes, BUSY or not (beyond LMEM_SIZE: log 10). The reserved ones read 0; that they do so while BUSY = 1 too is the
model's reading (log 9). -/
def Obligations.ReadOnlyAndReservedPlaces : Prop :=
  ∀ s : State,
    (∀ (off : HostOff) (v : Word), off.toNat % 4 = 0 →
      (off.toNat = 0x000 ∨ (0x010 ≤ off.toNat ∧ off.toNat < 0x018) ∨ (0x02C ≤ off.toNat ∧ off.toNat < 0x400) ∨
        (0x800 ≤ off.toNat ∧ off.toNat < 0x10000) ∨ 0x10000 + s.lmemSize.bytes ≤ off.toNat) →
      hostStep (.write32 off v) s = .next s) ∧
    (∀ (off : HostOff) (v : Byte), 0x10000 + s.lmemSize.bytes ≤ off.toNat →
      hostStep (.write8 off v) s = .next s) ∧
    (∀ off : HostOff, off.toNat % 4 = 0 →
      ((0x050 ≤ off.toNat ∧ off.toNat < 0x400) ∨ (0xC00 ≤ off.toNat ∧ off.toNat < 0x1000) ∨
        (0x3000 ≤ off.toNat ∧ off.toNat < 0x4000) ∨ (0x5FF0 ≤ off.toNat ∧ off.toNat < 0x10000) ∨
        0x10000 + s.lmemSize.bytes ≤ off.toNat) →
      hostStep (.read32 off) s = .next { s with returned := .word 0 :: s.returned }) ∧
    ∀ off : HostOff, 0x10000 + s.lmemSize.bytes ≤ off.toNat →
      hostStep (.read8 off) s = .next { s with returned := .byte 0 :: s.returned }

/-- 20_memory.md R63: an access of another size or alignment is refused, and every legal one is performed. -/
def Obligations.IllegalAccessesAreRefused : Prop :=
  ∀ (s : State) (off : HostOff) (v : Word) (b : Byte),
    (off.toNat % 4 ≠ 0 →
      hostStep (.read32 off) s = .refused (.illegalAccess (.read32 off)) ∧
      hostStep (.write32 off v) s = .refused (.illegalAccess (.write32 off v))) ∧
    (off.toNat < 0x10000 →
      hostStep (.read8 off) s = .refused (.illegalAccess (.read8 off)) ∧
      hostStep (.write8 off b) s = .refused (.illegalAccess (.write8 off b))) ∧
    (off.toNat % 4 = 0 →
      (∃ t, hostStep (.read32 off) s = .next t) ∧ ∃ t, hostStep (.write32 off v) s = .next t) ∧
    (0x10000 ≤ off.toNat →
      (∃ t, hostStep (.read8 off) s = .next t) ∧ ∃ t, hostStep (.write8 off b) s = .next t)

/-- 20_memory.md R70: no host read has a side effect on the block; it returns one value, which the model's own field `returned`
records (log 7). -/
def Obligations.ReadsHaveNoSideEffect : Prop :=
  ∀ (s t : State) (off : HostOff), hostStep (.read32 off) s = .next t ∨ hostStep (.read8 off) s = .next t →
    ∃ r, t = { s with returned := r :: s.returned }

/-- 20_memory.md R60, R62, R64: while BUSY = 0 an 8-bit access to LMEM writes and reads its one byte, a 32-bit access is
big-endian across the byte lanes, and a mixed access sees the lanes. A byte without contents (70_reset_and_hazards.md R241)
reads the free draw of its lane (log 2, log 3). -/
def Obligations.LmemWordsAreBigEndian : Prop :=
  ∀ (s : State) (off : HostOff), s.pending = none → 0x10000 ≤ off.toNat →
    off.toNat - 0x10000 < s.lmemSize.bytes →
    readsByteAs s off (lmemLane s 0 (off.toNat - 0x10000)) ∧
    (∀ v : Byte, ∃ t, hostStep (.write8 off v) s = .next t ∧ t = { s with lmem := t.lmem } ∧
      holdsBytes t.lmem (off.toNat - 0x10000) [v] ∧
      sameOutside s.lmem t.lmem (off.toNat - 0x10000) 1 ∧
      readsByteAs t off v) ∧
    (off.toNat % 4 = 0 →
      readsAs s off
        (lmemLane s 0 (off.toNat - 0x10000) ++ lmemLane s 1 (off.toNat - 0x10000 + 1) ++
          lmemLane s 2 (off.toNat - 0x10000 + 2) ++ lmemLane s 3 (off.toNat - 0x10000 + 3)) ∧
      ∀ v : Word, ∃ t, hostStep (.write32 off v) s = .next t ∧ t = { s with lmem := t.lmem } ∧
        holdsBytes t.lmem (off.toNat - 0x10000)
          [v.extractLsb' 24 8, v.extractLsb' 16 8, v.extractLsb' 8 8, v.extractLsb' 0 8] ∧
        sameOutside s.lmem t.lmem (off.toNat - 0x10000) 4 ∧
        readsAs t off v ∧ readsByteAs t off (v.extractLsb' 24 8) ∧ readsByteAs t (off + 1) (v.extractLsb' 16 8) ∧
        readsByteAs t (off + 2) (v.extractLsb' 8 8) ∧ readsByteAs t (off + 3) (v.extractLsb' 0 8))

/-- 10_state.md R24, R25, R30: a write of CTRL stores value[1:0], and a read gives them back; a write of STATUS clears each W1C
bit written 1, ERR together with ERR_CODE and ERR_INFO, BUSY or not, and changes nothing else. -/
def Obligations.ControlAndStatusWrites : Prop :=
  ∀ (s : State) (v : Word),
    hostStep (.write32 0x00004 v) s = .next { s with doneIE := v.getLsbD 0, errIE := v.getLsbD 1 } ∧
    readReg { s with doneIE := v.getLsbD 0, errIE := v.getLsbD 1 } .ctrl = v &&& 3 ∧
    hostStep (.write32 0x00008 v) s = .next
      { s with
        done := s.done && !v.getLsbD 1, err := s.err && !v.getLsbD 2, busyViol := s.busyViol && !v.getLsbD 3,
        errCode := if v.getLsbD 2 then 0 else s.errCode, errInfo := if v.getLsbD 2 then 0 else s.errInfo }

/-- 10_state.md R25: what a read of STATUS shows, bit by bit; while BUSY = 1, bits 6:4 are left free (20_memory.md R67). -/
def Obligations.StatusShowsTheFlags : Prop :=
  ∀ s : State, ∃ v, hostStep (.read32 0x00008) s = .next { s with returned := .word v :: s.returned } ∧
    v.getLsbD 0 = s.pending.isSome ∧ v.getLsbD 1 = s.done ∧ v.getLsbD 2 = s.err ∧ v.getLsbD 3 = s.busyViol ∧
    (s.pending = none →
      v.getLsbD 4 = s.treeValid ∧ v.getLsbD 5 = s.codesValid ∧
      (v.getLsbD 6 = true ↔ s.treeValid = true ∧ s.decNode ≠ s.root)) ∧
    ∀ k, 7 ≤ k → v.getLsbD k = false

/-- 10_state.md R23, R27, R30 to R34, R36 to R40: while BUSY = 0 a write of an operand register or of a FREQ entry stores its
value, changes nothing else, and reads back; and a read at each register's offset returns that register's field, zero-extended
(STATUS and PACK_STATE have statements of their own). A FREQ entry without contents (70_reset_and_hazards.md R241) reads a free
draw (log 2, log 3). -/
def Obligations.OperandsAndCountsReadBack : Prop :=
  ∀ s : State, s.pending = none →
    (∀ v : Word,
      (hostStep (.write32 0x00018 v) s = .next { s with srcAddr := v } ∧
        readsAs { s with srcAddr := v } 0x00018 v) ∧
      (hostStep (.write32 0x0001C v) s = .next { s with srcLen := v } ∧
        readsAs { s with srcLen := v } 0x0001C v) ∧
      (hostStep (.write32 0x00020 v) s = .next { s with dstAddr := v } ∧
        readsAs { s with dstAddr := v } 0x00020 v) ∧
      (hostStep (.write32 0x00024 v) s = .next { s with dstLen := v } ∧
        readsAs { s with dstLen := v } 0x00024 v) ∧
      (hostStep (.write32 0x00028 v) s = .next { s with padIn := v.setWidth 8 } ∧
        readsAs { s with padIn := v.setWidth 8 } 0x00028 (v &&& 0xFF)) ∧
      ∀ (c : Byte) (off : HostOff), off.toNat = 0x400 + 4 * c.toNat →
        ∃ t, hostStep (.write32 off v) s = .next t ∧ t = { s with freq := t.freq } ∧
          freqEntry t c = .written v ∧ (∀ d : Byte, d ≠ c → freqEntry t d = freqEntry s d) ∧
          readsAs t off v) ∧
    (∀ (c : Byte) (off : HostOff), freqEntry s c = .unspecified → off.toNat = 0x400 + 4 * c.toNat →
      readsAs s off (Config.freeWord s.draws 0)) ∧
    readsAs s 0x00000 0x48554646 ∧
    (∃ v, readsAs s 0x00004 v ∧ v.getLsbD 0 = s.doneIE ∧ v.getLsbD 1 = s.errIE ∧
      ∀ k, 2 ≤ k → v.getLsbD k = false) ∧
    readsAs s 0x0000C s.cmdLast ∧ readsAs s 0x00010 (s.errCode.setWidth 32) ∧ readsAs s 0x00014 s.errInfo ∧
    readsAs s 0x00018 s.srcAddr ∧ readsAs s 0x0001C s.srcLen ∧ readsAs s 0x00020 s.dstAddr ∧
    readsAs s 0x00024 s.dstLen ∧ readsAs s 0x00028 (s.padIn.setWidth 32) ∧ readsAs s 0x0002C s.resultLen ∧
    readsAs s 0x00030 (s.padOut.setWidth 32) ∧ readsAs s 0x00038 (s.numSyms.setWidth 32) ∧
    readsAs s 0x0003C (s.nodeCount.setWidth 32) ∧ readsAs s 0x00040 (s.root.setWidth 32) ∧
    readsAs s 0x00044 (if s.treeValid then BitVec.ofNat 32 (10 * s.numSyms.toNat - 1) else 0) ∧
    readsAs s 0x00048 (s.decNode.setWidth 32) ∧ readsAs s 0x0004C (BitVec.ofNat 32 s.lmemSize.bytes)

/-- 20_memory.md R67, 10_state.md R24: while BUSY = 1, ID, CTRL, CMD, LMEM_SIZE and the operand registers read their true value
(CTRL with bits 31:2 at 0); every other register but STATUS, every FREQ, CODE and NODE word and every LMEM byte read a free
draw of that event, keyed as log 3 says. -/
def Obligations.ReadsWhileBusy : Prop :=
  ∀ (s : State) (w : Word), s.pending = some w →
    readsAs s 0x00000 0x48554646 ∧
    (∃ v, readsAs s 0x00004 v ∧ v.getLsbD 0 = s.doneIE ∧ v.getLsbD 1 = s.errIE ∧
      ∀ k, 2 ≤ k → v.getLsbD k = false) ∧
    readsAs s 0x0000C s.cmdLast ∧ readsAs s 0x00018 s.srcAddr ∧ readsAs s 0x0001C s.srcLen ∧
    readsAs s 0x00020 s.dstAddr ∧ readsAs s 0x00024 s.dstLen ∧ readsAs s 0x00028 (s.padIn.setWidth 32) ∧
    readsAs s 0x0004C (BitVec.ofNat 32 s.lmemSize.bytes) ∧
    (∀ off : HostOff, off.toNat % 4 = 0 →
      ((0x010 ≤ off.toNat ∧ off.toNat < 0x018) ∨ (0x02C ≤ off.toNat ∧ off.toNat < 0x04C) ∨
        (0x400 ≤ off.toNat ∧ off.toNat < 0xC00) ∨ (0x1000 ≤ off.toNat ∧ off.toNat < 0x3000) ∨
        (0x4000 ≤ off.toNat ∧ off.toNat < 0x5FF0)) →
      readsAs s off (Config.freeWord s.draws 0)) ∧
    ∀ off : HostOff, 0x10000 ≤ off.toNat → off.toNat < 0x10000 + s.lmemSize.bytes →
      hostStep (.read8 off) s =
        .next { s with returned := .byte (Config.freeByte s.draws 0) :: s.returned } ∧
      (off.toNat % 4 = 0 →
        readsAs s off
          (Config.freeByte s.draws 0 ++ Config.freeByte s.draws 1 ++ Config.freeByte s.draws 2 ++
            Config.freeByte s.draws 3))

/-- 10_state.md R35: PACK_STATE shows len(PK) in bits 2:0 and PK[m] in bit 15 - m; its other bits are 0. While BUSY = 0 a host
read at 0x034 returns it. -/
def Obligations.PackStateShowsThePendingBits : Prop :=
  ∀ s : State, s.pk.length ≤ 7 →
    (s.pending = none → readsAs s 0x00034 (readReg s .packState)) ∧
    (readReg s .packState).extractLsb' 0 3 = BitVec.ofNat 3 s.pk.length ∧
    (∀ m, m < 8 → (readReg s .packState).getLsbD (15 - m) = s.pk.getD m false) ∧
    ∀ k, (3 ≤ k ∧ k < 8) ∨ 16 ≤ k → (readReg s .packState).getLsbD k = false

/-- 10_state.md R29: while BUSY = 0 CODE_LEN reads LEN, and bit 31 - m of CODE_BITS word j reads BITS[32j + m], 0 past LEN. The
words of an entry without contents (70_reset_and_hazards.md R241) each read a free draw (log 2, log 3). -/
def Obligations.CodeWordsShowTheCode : Prop :=
  ∀ (s : State) (c : Byte) (off : HostOff), s.pending = none → off.toNat = 0x800 + 4 * c.toNat →
    (∀ b : Bits, codeEntry s c = .written b → b.length ≤ 255 →
      readsAs s off (BitVec.ofNat 32 b.length) ∧
      ∀ (j : Nat) (boff : HostOff), j < 8 → boff.toNat = 0x1000 + 32 * c.toNat + 4 * j →
        ∃ v, readsAs s boff v ∧ ∀ m, m < 32 → v.getLsbD (31 - m) = b.getD (32 * j + m) false) ∧
    (codeEntry s c = .unspecified →
      readsAs s off (Config.freeWord s.draws 0) ∧
      ∀ (j : Nat) (boff : HostOff), j < 8 → boff.toNat = 0x1000 + 32 * c.toNat + 4 * j →
        readsAs s boff (Config.freeWord s.draws 0))

/-- 10_state.md R28: while BUSY = 0, the four words of a node below NODE_COUNT; those of a handle at or above NODE_COUNT each read
a free draw (log 2, log 3). -/
def Obligations.NodeWordsShowTheNode : Prop :=
  ∀ (s : State) (h : Handle) (off : HostOff), s.pending = none → h.toNat ≤ 510 →
    off.toNat = 0x4000 + 16 * h.toNat →
    (∀ n : Node, nodeAt s h = some n →
      ∃ w0 w1 w2 w3,
        readsAs s off w0 ∧ readsAs s (off + 4) w1 ∧ readsAs s (off + 8) w2 ∧ readsAs s (off + 12) w3 ∧
        w0 = n.freq.extractLsb' 0 32 ∧
        w1.extractLsb' 0 8 = n.freq.extractLsb' 32 8 ∧ w1.getLsbD 31 = n.isLeaf ∧ w1.extractLsb' 8 23 = 0 ∧
        w2.extractLsb' 0 9 = n.left ∧ w2.extractLsb' 16 9 = n.right ∧ w2.extractLsb' 9 7 = 0 ∧
        w2.extractLsb' 25 7 = 0 ∧ w3 = n.symbol.setWidth 32) ∧
    (s.nodeCount.toNat ≤ h.toNat →
      readsAs s off (Config.freeWord s.draws 0) ∧ readsAs s (off + 4) (Config.freeWord s.draws 0) ∧
      readsAs s (off + 8) (Config.freeWord s.draws 0) ∧ readsAs s (off + 12) (Config.freeWord s.draws 0))

/-- 60_exceptions.md R220: the level of irq is a function of the state, and a completed command drives it exactly as the enables
of CTRL say. -/
def Obligations.CompletionDrivesTheInterrupt : Prop :=
  ∀ s : State, (irq s = true ↔ (s.done = true ∧ s.doneIE = true) ∨ (s.err = true ∧ s.errIE = true)) ∧
    ∀ (i : Instr) (t : State), exec i s = .next t → irq t = (s.doneIE || (t.err && s.errIE))

/-- 20_memory.md R81, R82: the range check is on unbounded integers, and the overlap check is true exactly when both ranges hold
a common byte. -/
def Obligations.RangeAndOverlapChecks : Prop :=
  (∀ (s : State) (a l : Word), rangeOK s a l = true ↔ a.toNat + l.toNat ≤ s.lmemSize.bytes) ∧
    ∀ sa sl da dl : Word, overlap sa sl da dl = true ↔
      ∃ x : Nat, (sa.toNat ≤ x ∧ x < sa.toNat + sl.toNat) ∧ (da.toNat ≤ x ∧ x < da.toNat + dl.toNat)

/-! ## Reset -/

/-- 70_reset_and_hazards.md R240 to R243: reset, from any state, gives every register its reset value, leaves the arrays and LMEM
without contents, keeps LMEM_SIZE, and drops irq. That the model's own fields stay is the model's choice (log 21). -/
def Obligations.ResetGivesTheResetState : Prop :=
  ∀ s : State, ∃ t, eventStep .reset s = .next t ∧
    t.pending = none ∧ t.doneIE = false ∧ t.errIE = false ∧ t.done = false ∧ t.err = false ∧
    t.busyViol = false ∧ t.treeValid = false ∧ t.codesValid = false ∧ t.cmdLast = 0 ∧ t.errCode = 0 ∧
    t.errInfo = 0 ∧ t.srcAddr = 0 ∧ t.srcLen = 0 ∧ t.dstAddr = 0 ∧ t.dstLen = 0 ∧ t.padIn = 0 ∧
    t.resultLen = 0 ∧ t.padOut = 0 ∧ t.pk = [] ∧ t.numSyms = 0 ∧ t.nodeCount = 0 ∧ t.root = 0 ∧
    t.decNode = 0 ∧ (∀ c : Byte, freqEntry t c = .unspecified ∧ codeEntry t c = .unspecified) ∧
    (∀ h : Handle, nodeAt t h = none) ∧ t.lmem = [] ∧ t.lmemSize = s.lmemSize ∧ irq t = false ∧
    t.agenda = s.agenda ∧ t.returned = s.returned ∧ t.draws = s.draws ∧
    read32At t (.reg .id) = 0x48554646 ∧ read32At t (.reg .lmemSize) = BitVec.ofNat 32 s.lmemSize.bytes ∧
    ∀ r : Reg, r ≠ .id → r ≠ .lmemSize → read32At t (.reg r) = 0

/-- 70_reset_and_hazards.md R258: the state after reset and CLEAR, the clean entry of a run, whatever LMEM_SIZE is. R258 lists
DONE alone as not at its reset value; that CMD_LAST is 1, the word of the accepted CLEAR, is the model's choice among the
rules, by 10_state.md R26 and 40_control.md R111 (log 24). -/
def Obligations.ClearAfterResetIsCleanEntry : Prop :=
  ∀ s r a : State, eventStep .reset s = .next r → hostStep (.write32 0x0000C 0x00000001) r = .next a →
    ∃ t, engineStep a = .next t ∧
      t = { r with
        freq := Vector.replicate 256 (.written 0), code := Vector.replicate 256 (.written []),
        cmdLast := 1, done := true }
end

