-- ==== Sys2Proof/Laws/Bits.lean ====
section
/-! SUPPORT. Bytes and bit strings, back and forth (00_scope.md R10). -/

namespace Sys2Proof.Machine

@[simp] theorem byteToBits_length (v : Byte) : (byteToBits v).length = 8 := rfl

theorem bitsToByte_byteToBits (v : Byte) : bitsToByte (byteToBits v) = v := by
  revert v; decide +kernel

theorem byteToBits_bitsToByte (b0 b1 b2 b3 b4 b5 b6 b7 : Bool) :
    byteToBits (bitsToByte [b0, b1, b2, b3, b4, b5, b6, b7]) = [b0, b1, b2, b3, b4, b5, b6, b7] := by
  revert b0 b1 b2 b3 b4 b5 b6 b7; decide +kernel

theorem byteToBits_bitsToByte_of_length {b : Bits} (h : b.length = 8) : byteToBits (bitsToByte b) = b := by
  match b, h with
  | [b0, b1, b2, b3, b4, b5, b6, b7], _ => exact byteToBits_bitsToByte b0 b1 b2 b3 b4 b5 b6 b7

theorem padRight_length (n : Nat) (b : Bits) (h : b.length ≤ n) : (padRight n b).length = n := by
  simp [padRight]; omega

theorem padToByte_length (b : Bits) : (padToByte b).length = 8 * bytesFor b.length :=
  padRight_length _ _ (by unfold bytesFor; omega)

/-- `packBytes` drops nothing of a string of whole bytes. -/
theorem packBytes_flatMap (n : Nat) (b : Bits) (h : b.length = 8 * n) :
    (packBytes b).length = n ∧ (packBytes b).flatMap byteToBits = b := by
  induction n generalizing b with
  | zero => simp_all [packBytes]
  | succ n ih =>
    match b, h with
    | b0 :: b1 :: b2 :: b3 :: b4 :: b5 :: b6 :: b7 :: rest, h =>
      have ⟨h1, h2⟩ := ih rest (by simp at h; omega)
      simp [packBytes, h1, h2, byteToBits_bitsToByte]

end Sys2Proof.Machine
end

