-- ==== Sys2Proof/Laws/Memory.lean ====
section
/-! SUPPORT. LMEM: read after write, what a write leaves alone, and the canonical form. -/

namespace Sys2Proof.Machine

/-! ## One byte -/

theorem Memory.get_set_same (m : Memory) (a : Nat) (v : Byte) : Memory.get (Memory.set m a v) a = some v := by
  induction m with
  | nil => simp [Memory.set, Memory.get]
  | cons c m ih =>
    obtain ⟨k, w⟩ := c
    unfold Memory.set
    split
    · simp [Memory.get]
    · split
      · simp [Memory.get]
      · next hlt hne => simp [Memory.get, ih, Ne.symm hne]

theorem Memory.get_set_other (m : Memory) (a b : Nat) (v : Byte) (h : b ≠ a) :
    Memory.get (Memory.set m a v) b = Memory.get m b := by
  induction m with
  | nil => simp [Memory.set, Memory.get, Ne.symm h]
  | cons c m ih =>
    obtain ⟨k, w⟩ := c
    unfold Memory.set
    split
    · simp [Memory.get, Ne.symm h]
    · split
      · next hlt heq => subst heq; simp [Memory.get, Ne.symm h]
      · simp only [Memory.get, ih]

theorem Memory.get_set (m : Memory) (a b : Nat) (v : Byte) :
    Memory.get (Memory.set m a v) b = if b = a then some v else Memory.get m b := by
  split
  · next h => rw [h]; exact Memory.get_set_same m a v
  · next h => exact Memory.get_set_other m a b v h

/-! ## Several bytes -/

theorem Memory.setBytes_sameOutside (bytes : List Byte) (m : Memory) (a : Nat) :
    sameOutside m (Memory.setBytes m a bytes) a bytes.length := by
  induction bytes generalizing m a with
  | nil => exact fun _ _ => rfl
  | cons v vs ih =>
    intro x hx
    simp only [List.length_cons] at hx
    rw [Memory.setBytes, ih _ _ x (by omega), Memory.get_set_other _ _ _ _ (by omega)]

theorem Memory.setBytes_holdsBytes (bytes : List Byte) (m : Memory) (a : Nat) :
    holdsBytes (Memory.setBytes m a bytes) a bytes := by
  induction bytes generalizing m a with
  | nil => intro i h; simp at h
  | cons v vs ih =>
    intro i h
    rw [Memory.setBytes]
    cases i with
    | zero =>
      show Memory.get _ a = some v
      rw [Memory.setBytes_sameOutside vs _ (a + 1) a (.inl (Nat.lt_succ_self a)), Memory.get_set_same]
    | succ i =>
      have := ih (Memory.set m a v) (a + 1) i (by simpa using h)
      rw [show a + (i + 1) = a + 1 + i by omega, this]
      rfl

/-- A range that agrees outside a smaller range agrees outside a larger one. -/
theorem sameOutside.mono {m m' : Memory} {a n k : Nat} (h : sameOutside m m' a n) (le : n ≤ k) :
    sameOutside m m' a k := fun x hx => h x (by omega)

/-! ## Forgetting a range -/

theorem Memory.get_forget (m : Memory) (a n x : Nat) :
    Memory.get (Memory.forget m a n) x = if a ≤ x ∧ x < a + n then none else Memory.get m x := by
  unfold Memory.forget
  induction m with
  | nil => simp [Memory.get]
  | cons c m ih =>
    obtain ⟨k, w⟩ := c
    rw [List.filter_cons]
    by_cases hin : a ≤ k ∧ k < a + n
    · have : (!(decide (a ≤ k) && decide (k < a + n))) = false := by simp [hin.1, hin.2]
      simp only [this, Bool.false_eq_true, if_false, ih, Memory.get]
      split
      · rfl
      · next hx => rw [if_neg (by rintro rfl; exact hx hin)]
    · have : (!(decide (a ≤ k) && decide (k < a + n))) = true := by
        rw [Bool.not_eq_true', Bool.and_eq_false_iff, decide_eq_false_iff_not, decide_eq_false_iff_not]
        omega
      simp only [this, if_true, Memory.get, ih]
      split
      · next e => subst e; rw [if_neg hin]
      · rfl

theorem Memory.forget_sameOutside (m : Memory) (a n : Nat) : sameOutside m (Memory.forget m a n) a n := by
  intro x hx
  rw [Memory.get_forget, if_neg (by omega)]

theorem Memory.forget_unspecifiedIn (m : Memory) (a n : Nat) : unspecifiedIn (Memory.forget m a n) a n := by
  intro x h1 h2
  rw [Memory.get_forget, if_pos ⟨h1, h2⟩]

/-! ## The canonical form -/

/-- The canonical form says that the listed addresses strictly rise. -/
theorem Memory.wf_iff (m : Memory) : Memory.wf m = true ↔ m.Pairwise (fun c d => c.1 < d.1) := by
  induction m with
  | nil => simp [Memory.wf]
  | cons c m ih =>
    cases m with
    | nil => simp [Memory.wf]
    | cons d m =>
      obtain ⟨a, v⟩ := c
      obtain ⟨b, w⟩ := d
      rw [Memory.wf, Bool.and_eq_true, ih, decide_eq_true_iff, List.pairwise_cons (a := (a, v))]
      constructor
      · rintro ⟨hab, hp⟩
        refine ⟨?_, hp⟩
        intro e he
        rcases List.mem_cons.mp he with rfl | he
        · exact hab
        · exact Nat.lt_trans hab ((List.pairwise_cons.mp hp).1 e he)
      · rintro ⟨hall, hp⟩
        exact ⟨hall (b, w) (by simp), hp⟩

/-- Writing a byte lists that address and the addresses listed before. -/
theorem Memory.mem_set_address {m : Memory} {a : Nat} {v : Byte} {c : Host.Cell} (h : c ∈ Memory.set m a v) :
    c.1 = a ∨ ∃ d ∈ m, d.1 = c.1 := by
  induction m with
  | nil => simp only [Memory.set, List.mem_singleton] at h; exact .inl (by rw [h])
  | cons d m ih =>
    obtain ⟨k, w⟩ := d
    unfold Memory.set at h
    split at h
    · rcases List.mem_cons.mp h with rfl | h
      · exact .inl rfl
      · exact .inr ⟨c, h, rfl⟩
    · split at h
      · rcases List.mem_cons.mp h with rfl | h
        · exact .inl rfl
        · exact .inr ⟨c, List.mem_cons_of_mem _ h, rfl⟩
      · rcases List.mem_cons.mp h with rfl | h
        · exact .inr ⟨(k, w), List.mem_cons_self, rfl⟩
        · rcases ih h with h | ⟨d, hd, e⟩
          · exact .inl h
          · exact .inr ⟨d, List.mem_cons_of_mem _ hd, e⟩

theorem Memory.wf_set {m : Memory} (h : Memory.wf m = true) (a : Nat) (v : Byte) :
    Memory.wf (Memory.set m a v) = true := by
  rw [Memory.wf_iff] at h ⊢
  induction m with
  | nil => simp [Memory.set]
  | cons c m ih =>
    obtain ⟨k, w⟩ := c
    have ⟨hall, hp⟩ := List.pairwise_cons.mp h
    unfold Memory.set
    split
    · next hlt =>
      refine List.pairwise_cons.mpr ⟨fun d hd => ?_, h⟩
      rcases List.mem_cons.mp hd with rfl | hd
      · exact hlt
      · exact Nat.lt_trans hlt (hall d hd)
    · split
      · next heq => subst heq; exact List.pairwise_cons.mpr ⟨hall, hp⟩
      · next hlt hne =>
        refine List.pairwise_cons.mpr ⟨fun d hd => ?_, ih hp⟩
        rcases Memory.mem_set_address hd with e | ⟨d', hd', e⟩
        · simp only at e ⊢; omega
        · simp only; rw [← e]; exact hall d' hd'

theorem Memory.wf_setBytes {m : Memory} (h : Memory.wf m = true) (a : Nat) (bytes : List Byte) :
    Memory.wf (Memory.setBytes m a bytes) = true := by
  induction bytes generalizing m a with
  | nil => exact h
  | cons v vs ih => exact ih (Memory.wf_set h a v) (a + 1)

theorem Memory.wf_forget {m : Memory} (h : Memory.wf m = true) (a n : Nat) :
    Memory.wf (Memory.forget m a n) = true := by
  rw [Memory.wf_iff] at h ⊢
  exact h.filter _

/-- Writing bytes lists no address but theirs and those listed before. -/
theorem Memory.mem_setBytes_address {bytes : List Byte} {m : Memory} {a : Nat} {c : Host.Cell}
    (h : c ∈ Memory.setBytes m a bytes) : (a ≤ c.1 ∧ c.1 < a + bytes.length) ∨ ∃ d ∈ m, d.1 = c.1 := by
  induction bytes generalizing m a with
  | nil => exact .inr ⟨c, h, rfl⟩
  | cons v vs ih =>
    simp only [List.length_cons]
    rcases ih h with h | ⟨d, hd, e⟩
    · exact .inl (by omega)
    · rcases Memory.mem_set_address hd with e' | ⟨d', hd', e'⟩
      · exact .inl (by omega)
      · exact .inr ⟨d', hd', e'.trans e⟩

theorem Memory.mem_forget {m : Memory} {a n : Nat} {c : Host.Cell} (h : c ∈ Memory.forget m a n) : c ∈ m :=
  (List.mem_filter.mp h).1

/-! ## LMEM inside its size -/

theorem insideLmem_setBytes {s : State} (h : insideLmem s) {a : Nat} {bytes : List Byte}
    (fits : a + bytes.length ≤ s.lmemSize.bytes) :
    ∀ c ∈ Memory.setBytes s.lmem a bytes, c.1 < s.lmemSize.bytes := by
  intro c hc
  rcases Memory.mem_setBytes_address hc with hc | ⟨d, hd, e⟩
  · omega
  · rw [← e]; exact h d hd

theorem insideLmem_forget {s : State} (h : insideLmem s) (a n : Nat) :
    ∀ c ∈ Memory.forget s.lmem a n, c.1 < s.lmemSize.bytes :=
  fun c hc => h c (Memory.mem_forget hc)

/-- LMEM_SIZE is a multiple of 4 from 4 to 65536 (00_scope.md R7). -/
theorem Config.LmemSize.bytes_bounds (z : Config.LmemSize) :
    z.bytes % 4 = 0 ∧ 4 ≤ z.bytes ∧ z.bytes ≤ 65536 := by
  have := z.lastWord.isLt
  unfold Config.LmemSize.bytes
  omega

/-- The reset state's memory is in canonical form. -/
theorem Memory.wf_reset : Memory.wf State.reset.lmem = true := rfl

/-- A read of a byte that has been written. -/
theorem memRead_of_get {s : State} {a : Nat} {v : Byte} (h : Memory.get s.lmem a = some v) (k : Nat) :
    memRead s k a = v := by simp [memRead, h]

end Sys2Proof.Machine
end

