-- ==== Sys2Proof/Laws/State.lean ====
section
/-! SUPPORT. What each named update of State leaves in each field: one lemma per field per update. -/

namespace Sys2Proof.Machine

/-! ## The rows of 60_exceptions.md R213 -/

@[simp] theorem abortRow_reject (s : State) : abortRow .reject s = s := rfl
@[simp] theorem abortRow_deserialize (s : State) : abortRow .abortDeserialize s = invalidateTree s := rfl
@[simp] theorem abortRow_encode (s : State) :
    abortRow .abortEncode s = { forgetDestination s with pk := [] } := rfl
@[simp] theorem abortRow_decode (s : State) :
    abortRow .abortDecode s = { forgetDestination s with decNode := s.root } := rfl

/-! ## The ways a command ends -/

@[simp] theorem perform_ok (t s : State) : perform (.ok t) s = complete t := rfl
@[simp] theorem perform_error (e : CmdError) (s : State) :
    perform (.error e) s = complete (errorCompletion e s) := rfl

/-! ## complete -/

@[simp] theorem complete_pending (s : State) : (complete s).pending = none := rfl
@[simp] theorem complete_doneIE (s : State) : (complete s).doneIE = s.doneIE := rfl
@[simp] theorem complete_errIE (s : State) : (complete s).errIE = s.errIE := rfl
@[simp] theorem complete_done (s : State) : (complete s).done = true := rfl
@[simp] theorem complete_err (s : State) : (complete s).err = s.err := rfl
@[simp] theorem complete_busyViol (s : State) : (complete s).busyViol = s.busyViol := rfl
@[simp] theorem complete_treeValid (s : State) : (complete s).treeValid = s.treeValid := rfl
@[simp] theorem complete_codesValid (s : State) : (complete s).codesValid = s.codesValid := rfl
@[simp] theorem complete_cmdLast (s : State) : (complete s).cmdLast = s.cmdLast := rfl
@[simp] theorem complete_errCode (s : State) : (complete s).errCode = s.errCode := rfl
@[simp] theorem complete_errInfo (s : State) : (complete s).errInfo = s.errInfo := rfl
@[simp] theorem complete_srcAddr (s : State) : (complete s).srcAddr = s.srcAddr := rfl
@[simp] theorem complete_srcLen (s : State) : (complete s).srcLen = s.srcLen := rfl
@[simp] theorem complete_dstAddr (s : State) : (complete s).dstAddr = s.dstAddr := rfl
@[simp] theorem complete_dstLen (s : State) : (complete s).dstLen = s.dstLen := rfl
@[simp] theorem complete_padIn (s : State) : (complete s).padIn = s.padIn := rfl
@[simp] theorem complete_resultLen (s : State) : (complete s).resultLen = s.resultLen := rfl
@[simp] theorem complete_padOut (s : State) : (complete s).padOut = s.padOut := rfl
@[simp] theorem complete_pk (s : State) : (complete s).pk = s.pk := rfl
@[simp] theorem complete_numSyms (s : State) : (complete s).numSyms = s.numSyms := rfl
@[simp] theorem complete_nodeCount (s : State) : (complete s).nodeCount = s.nodeCount := rfl
@[simp] theorem complete_root (s : State) : (complete s).root = s.root := rfl
@[simp] theorem complete_decNode (s : State) : (complete s).decNode = s.decNode := rfl
@[simp] theorem complete_freq (s : State) : (complete s).freq = s.freq := rfl
@[simp] theorem complete_node (s : State) : (complete s).node = s.node := rfl
@[simp] theorem complete_code (s : State) : (complete s).code = s.code := rfl
@[simp] theorem complete_lmem (s : State) : (complete s).lmem = s.lmem := rfl
@[simp] theorem complete_lmemSize (s : State) : (complete s).lmemSize = s.lmemSize := rfl
@[simp] theorem complete_agenda (s : State) : (complete s).agenda = s.agenda := rfl
@[simp] theorem complete_returned (s : State) : (complete s).returned = s.returned := rfl
@[simp] theorem complete_draws (s : State) : (complete s).draws = s.draws := rfl

/-! ## acceptCommand -/

@[simp] theorem acceptCommand_pending (w : Word) (s : State) : (acceptCommand w s).pending = some w := rfl
@[simp] theorem acceptCommand_doneIE (w : Word) (s : State) : (acceptCommand w s).doneIE = s.doneIE := rfl
@[simp] theorem acceptCommand_errIE (w : Word) (s : State) : (acceptCommand w s).errIE = s.errIE := rfl
@[simp] theorem acceptCommand_done (w : Word) (s : State) : (acceptCommand w s).done = false := rfl
@[simp] theorem acceptCommand_err (w : Word) (s : State) : (acceptCommand w s).err = s.err := rfl
@[simp] theorem acceptCommand_busyViol (w : Word) (s : State) : (acceptCommand w s).busyViol = s.busyViol := rfl
@[simp] theorem acceptCommand_treeValid (w : Word) (s : State) : (acceptCommand w s).treeValid = s.treeValid := rfl
@[simp] theorem acceptCommand_codesValid (w : Word) (s : State) : (acceptCommand w s).codesValid = s.codesValid := rfl
@[simp] theorem acceptCommand_cmdLast (w : Word) (s : State) : (acceptCommand w s).cmdLast = w := rfl
@[simp] theorem acceptCommand_errCode (w : Word) (s : State) : (acceptCommand w s).errCode = s.errCode := rfl
@[simp] theorem acceptCommand_errInfo (w : Word) (s : State) : (acceptCommand w s).errInfo = s.errInfo := rfl
@[simp] theorem acceptCommand_srcAddr (w : Word) (s : State) : (acceptCommand w s).srcAddr = s.srcAddr := rfl
@[simp] theorem acceptCommand_srcLen (w : Word) (s : State) : (acceptCommand w s).srcLen = s.srcLen := rfl
@[simp] theorem acceptCommand_dstAddr (w : Word) (s : State) : (acceptCommand w s).dstAddr = s.dstAddr := rfl
@[simp] theorem acceptCommand_dstLen (w : Word) (s : State) : (acceptCommand w s).dstLen = s.dstLen := rfl
@[simp] theorem acceptCommand_padIn (w : Word) (s : State) : (acceptCommand w s).padIn = s.padIn := rfl
@[simp] theorem acceptCommand_resultLen (w : Word) (s : State) : (acceptCommand w s).resultLen = s.resultLen := rfl
@[simp] theorem acceptCommand_padOut (w : Word) (s : State) : (acceptCommand w s).padOut = s.padOut := rfl
@[simp] theorem acceptCommand_pk (w : Word) (s : State) : (acceptCommand w s).pk = s.pk := rfl
@[simp] theorem acceptCommand_numSyms (w : Word) (s : State) : (acceptCommand w s).numSyms = s.numSyms := rfl
@[simp] theorem acceptCommand_nodeCount (w : Word) (s : State) : (acceptCommand w s).nodeCount = s.nodeCount := rfl
@[simp] theorem acceptCommand_root (w : Word) (s : State) : (acceptCommand w s).root = s.root := rfl
@[simp] theorem acceptCommand_decNode (w : Word) (s : State) : (acceptCommand w s).decNode = s.decNode := rfl
@[simp] theorem acceptCommand_freq (w : Word) (s : State) : (acceptCommand w s).freq = s.freq := rfl
@[simp] theorem acceptCommand_node (w : Word) (s : State) : (acceptCommand w s).node = s.node := rfl
@[simp] theorem acceptCommand_code (w : Word) (s : State) : (acceptCommand w s).code = s.code := rfl
@[simp] theorem acceptCommand_lmem (w : Word) (s : State) : (acceptCommand w s).lmem = s.lmem := rfl
@[simp] theorem acceptCommand_lmemSize (w : Word) (s : State) : (acceptCommand w s).lmemSize = s.lmemSize := rfl
@[simp] theorem acceptCommand_agenda (w : Word) (s : State) : (acceptCommand w s).agenda = s.agenda := rfl
@[simp] theorem acceptCommand_returned (w : Word) (s : State) : (acceptCommand w s).returned = s.returned := rfl
@[simp] theorem acceptCommand_draws (w : Word) (s : State) : (acceptCommand w s).draws = s.draws := rfl

/-! ## acknowledgeError -/

@[simp] theorem acknowledgeError_pending (s : State) : (acknowledgeError s).pending = s.pending := rfl
@[simp] theorem acknowledgeError_doneIE (s : State) : (acknowledgeError s).doneIE = s.doneIE := rfl
@[simp] theorem acknowledgeError_errIE (s : State) : (acknowledgeError s).errIE = s.errIE := rfl
@[simp] theorem acknowledgeError_done (s : State) : (acknowledgeError s).done = s.done := rfl
@[simp] theorem acknowledgeError_err (s : State) : (acknowledgeError s).err = false := rfl
@[simp] theorem acknowledgeError_busyViol (s : State) : (acknowledgeError s).busyViol = s.busyViol := rfl
@[simp] theorem acknowledgeError_treeValid (s : State) : (acknowledgeError s).treeValid = s.treeValid := rfl
@[simp] theorem acknowledgeError_codesValid (s : State) : (acknowledgeError s).codesValid = s.codesValid := rfl
@[simp] theorem acknowledgeError_cmdLast (s : State) : (acknowledgeError s).cmdLast = s.cmdLast := rfl
@[simp] theorem acknowledgeError_errCode (s : State) : (acknowledgeError s).errCode = 0 := rfl
@[simp] theorem acknowledgeError_errInfo (s : State) : (acknowledgeError s).errInfo = 0 := rfl
@[simp] theorem acknowledgeError_srcAddr (s : State) : (acknowledgeError s).srcAddr = s.srcAddr := rfl
@[simp] theorem acknowledgeError_srcLen (s : State) : (acknowledgeError s).srcLen = s.srcLen := rfl
@[simp] theorem acknowledgeError_dstAddr (s : State) : (acknowledgeError s).dstAddr = s.dstAddr := rfl
@[simp] theorem acknowledgeError_dstLen (s : State) : (acknowledgeError s).dstLen = s.dstLen := rfl
@[simp] theorem acknowledgeError_padIn (s : State) : (acknowledgeError s).padIn = s.padIn := rfl
@[simp] theorem acknowledgeError_resultLen (s : State) : (acknowledgeError s).resultLen = s.resultLen := rfl
@[simp] theorem acknowledgeError_padOut (s : State) : (acknowledgeError s).padOut = s.padOut := rfl
@[simp] theorem acknowledgeError_pk (s : State) : (acknowledgeError s).pk = s.pk := rfl
@[simp] theorem acknowledgeError_numSyms (s : State) : (acknowledgeError s).numSyms = s.numSyms := rfl
@[simp] theorem acknowledgeError_nodeCount (s : State) : (acknowledgeError s).nodeCount = s.nodeCount := rfl
@[simp] theorem acknowledgeError_root (s : State) : (acknowledgeError s).root = s.root := rfl
@[simp] theorem acknowledgeError_decNode (s : State) : (acknowledgeError s).decNode = s.decNode := rfl
@[simp] theorem acknowledgeError_freq (s : State) : (acknowledgeError s).freq = s.freq := rfl
@[simp] theorem acknowledgeError_node (s : State) : (acknowledgeError s).node = s.node := rfl
@[simp] theorem acknowledgeError_code (s : State) : (acknowledgeError s).code = s.code := rfl
@[simp] theorem acknowledgeError_lmem (s : State) : (acknowledgeError s).lmem = s.lmem := rfl
@[simp] theorem acknowledgeError_lmemSize (s : State) : (acknowledgeError s).lmemSize = s.lmemSize := rfl
@[simp] theorem acknowledgeError_agenda (s : State) : (acknowledgeError s).agenda = s.agenda := rfl
@[simp] theorem acknowledgeError_returned (s : State) : (acknowledgeError s).returned = s.returned := rfl
@[simp] theorem acknowledgeError_draws (s : State) : (acknowledgeError s).draws = s.draws := rfl

/-! ## invalidateTree -/

@[simp] theorem invalidateTree_pending (s : State) : (invalidateTree s).pending = s.pending := rfl
@[simp] theorem invalidateTree_doneIE (s : State) : (invalidateTree s).doneIE = s.doneIE := rfl
@[simp] theorem invalidateTree_errIE (s : State) : (invalidateTree s).errIE = s.errIE := rfl
@[simp] theorem invalidateTree_done (s : State) : (invalidateTree s).done = s.done := rfl
@[simp] theorem invalidateTree_err (s : State) : (invalidateTree s).err = s.err := rfl
@[simp] theorem invalidateTree_busyViol (s : State) : (invalidateTree s).busyViol = s.busyViol := rfl
@[simp] theorem invalidateTree_treeValid (s : State) : (invalidateTree s).treeValid = false := rfl
@[simp] theorem invalidateTree_codesValid (s : State) : (invalidateTree s).codesValid = false := rfl
@[simp] theorem invalidateTree_cmdLast (s : State) : (invalidateTree s).cmdLast = s.cmdLast := rfl
@[simp] theorem invalidateTree_errCode (s : State) : (invalidateTree s).errCode = s.errCode := rfl
@[simp] theorem invalidateTree_errInfo (s : State) : (invalidateTree s).errInfo = s.errInfo := rfl
@[simp] theorem invalidateTree_srcAddr (s : State) : (invalidateTree s).srcAddr = s.srcAddr := rfl
@[simp] theorem invalidateTree_srcLen (s : State) : (invalidateTree s).srcLen = s.srcLen := rfl
@[simp] theorem invalidateTree_dstAddr (s : State) : (invalidateTree s).dstAddr = s.dstAddr := rfl
@[simp] theorem invalidateTree_dstLen (s : State) : (invalidateTree s).dstLen = s.dstLen := rfl
@[simp] theorem invalidateTree_padIn (s : State) : (invalidateTree s).padIn = s.padIn := rfl
@[simp] theorem invalidateTree_resultLen (s : State) : (invalidateTree s).resultLen = s.resultLen := rfl
@[simp] theorem invalidateTree_padOut (s : State) : (invalidateTree s).padOut = s.padOut := rfl
@[simp] theorem invalidateTree_pk (s : State) : (invalidateTree s).pk = [] := rfl
@[simp] theorem invalidateTree_numSyms (s : State) : (invalidateTree s).numSyms = 0 := rfl
@[simp] theorem invalidateTree_nodeCount (s : State) : (invalidateTree s).nodeCount = 0 := rfl
@[simp] theorem invalidateTree_root (s : State) : (invalidateTree s).root = 0 := rfl
@[simp] theorem invalidateTree_decNode (s : State) : (invalidateTree s).decNode = 0 := rfl
@[simp] theorem invalidateTree_freq (s : State) : (invalidateTree s).freq = s.freq := rfl
@[simp] theorem invalidateTree_node (s : State) : (invalidateTree s).node = s.node := rfl
@[simp] theorem invalidateTree_code (s : State) : (invalidateTree s).code = noCodes := rfl
@[simp] theorem invalidateTree_lmem (s : State) : (invalidateTree s).lmem = s.lmem := rfl
@[simp] theorem invalidateTree_lmemSize (s : State) : (invalidateTree s).lmemSize = s.lmemSize := rfl
@[simp] theorem invalidateTree_agenda (s : State) : (invalidateTree s).agenda = s.agenda := rfl
@[simp] theorem invalidateTree_returned (s : State) : (invalidateTree s).returned = s.returned := rfl
@[simp] theorem invalidateTree_draws (s : State) : (invalidateTree s).draws = s.draws := rfl

/-! ## installTree -/

@[simp] theorem installTree_pending (nodes : List Node) (k : Nat) (r : Handle) (s : State) :
    (installTree nodes k r s).pending = s.pending := rfl
@[simp] theorem installTree_doneIE (nodes : List Node) (k : Nat) (r : Handle) (s : State) :
    (installTree nodes k r s).doneIE = s.doneIE := rfl
@[simp] theorem installTree_errIE (nodes : List Node) (k : Nat) (r : Handle) (s : State) :
    (installTree nodes k r s).errIE = s.errIE := rfl
@[simp] theorem installTree_done (nodes : List Node) (k : Nat) (r : Handle) (s : State) :
    (installTree nodes k r s).done = s.done := rfl
@[simp] theorem installTree_err (nodes : List Node) (k : Nat) (r : Handle) (s : State) :
    (installTree nodes k r s).err = s.err := rfl
@[simp] theorem installTree_busyViol (nodes : List Node) (k : Nat) (r : Handle) (s : State) :
    (installTree nodes k r s).busyViol = s.busyViol := rfl
@[simp] theorem installTree_treeValid (nodes : List Node) (k : Nat) (r : Handle) (s : State) :
    (installTree nodes k r s).treeValid = true := rfl
@[simp] theorem installTree_codesValid (nodes : List Node) (k : Nat) (r : Handle) (s : State) :
    (installTree nodes k r s).codesValid = false := rfl
@[simp] theorem installTree_cmdLast (nodes : List Node) (k : Nat) (r : Handle) (s : State) :
    (installTree nodes k r s).cmdLast = s.cmdLast := rfl
@[simp] theorem installTree_errCode (nodes : List Node) (k : Nat) (r : Handle) (s : State) :
    (installTree nodes k r s).errCode = s.errCode := rfl
@[simp] theorem installTree_errInfo (nodes : List Node) (k : Nat) (r : Handle) (s : State) :
    (installTree nodes k r s).errInfo = s.errInfo := rfl
@[simp] theorem installTree_srcAddr (nodes : List Node) (k : Nat) (r : Handle) (s : State) :
    (installTree nodes k r s).srcAddr = s.srcAddr := rfl
@[simp] theorem installTree_srcLen (nodes : List Node) (k : Nat) (r : Handle) (s : State) :
    (installTree nodes k r s).srcLen = s.srcLen := rfl
@[simp] theorem installTree_dstAddr (nodes : List Node) (k : Nat) (r : Handle) (s : State) :
    (installTree nodes k r s).dstAddr = s.dstAddr := rfl
@[simp] theorem installTree_dstLen (nodes : List Node) (k : Nat) (r : Handle) (s : State) :
    (installTree nodes k r s).dstLen = s.dstLen := rfl
@[simp] theorem installTree_padIn (nodes : List Node) (k : Nat) (r : Handle) (s : State) :
    (installTree nodes k r s).padIn = s.padIn := rfl
@[simp] theorem installTree_resultLen (nodes : List Node) (k : Nat) (r : Handle) (s : State) :
    (installTree nodes k r s).resultLen = s.resultLen := rfl
@[simp] theorem installTree_padOut (nodes : List Node) (k : Nat) (r : Handle) (s : State) :
    (installTree nodes k r s).padOut = s.padOut := rfl
@[simp] theorem installTree_pk (nodes : List Node) (k : Nat) (r : Handle) (s : State) :
    (installTree nodes k r s).pk = [] := rfl
@[simp] theorem installTree_numSyms (nodes : List Node) (k : Nat) (r : Handle) (s : State) :
    (installTree nodes k r s).numSyms = BitVec.ofNat 9 k := rfl
@[simp] theorem installTree_nodeCount (nodes : List Node) (k : Nat) (r : Handle) (s : State) :
    (installTree nodes k r s).nodeCount = BitVec.ofNat 10 nodes.length := rfl
@[simp] theorem installTree_root (nodes : List Node) (k : Nat) (r : Handle) (s : State) :
    (installTree nodes k r s).root = r := rfl
@[simp] theorem installTree_decNode (nodes : List Node) (k : Nat) (r : Handle) (s : State) :
    (installTree nodes k r s).decNode = r := rfl
@[simp] theorem installTree_freq (nodes : List Node) (k : Nat) (r : Handle) (s : State) :
    (installTree nodes k r s).freq = s.freq := rfl
@[simp] theorem installTree_node (nodes : List Node) (k : Nat) (r : Handle) (s : State) :
    (installTree nodes k r s).node = nodes ++ s.node.drop nodes.length := rfl
@[simp] theorem installTree_code (nodes : List Node) (k : Nat) (r : Handle) (s : State) :
    (installTree nodes k r s).code = noCodes := rfl
@[simp] theorem installTree_lmem (nodes : List Node) (k : Nat) (r : Handle) (s : State) :
    (installTree nodes k r s).lmem = s.lmem := rfl
@[simp] theorem installTree_lmemSize (nodes : List Node) (k : Nat) (r : Handle) (s : State) :
    (installTree nodes k r s).lmemSize = s.lmemSize := rfl
@[simp] theorem installTree_agenda (nodes : List Node) (k : Nat) (r : Handle) (s : State) :
    (installTree nodes k r s).agenda = s.agenda := rfl
@[simp] theorem installTree_returned (nodes : List Node) (k : Nat) (r : Handle) (s : State) :
    (installTree nodes k r s).returned = s.returned := rfl
@[simp] theorem installTree_draws (nodes : List Node) (k : Nat) (r : Handle) (s : State) :
    (installTree nodes k r s).draws = s.draws := rfl

/-! ## forgetDestination -/

@[simp] theorem forgetDestination_pending (s : State) : (forgetDestination s).pending = s.pending := rfl
@[simp] theorem forgetDestination_doneIE (s : State) : (forgetDestination s).doneIE = s.doneIE := rfl
@[simp] theorem forgetDestination_errIE (s : State) : (forgetDestination s).errIE = s.errIE := rfl
@[simp] theorem forgetDestination_done (s : State) : (forgetDestination s).done = s.done := rfl
@[simp] theorem forgetDestination_err (s : State) : (forgetDestination s).err = s.err := rfl
@[simp] theorem forgetDestination_busyViol (s : State) : (forgetDestination s).busyViol = s.busyViol := rfl
@[simp] theorem forgetDestination_treeValid (s : State) : (forgetDestination s).treeValid = s.treeValid := rfl
@[simp] theorem forgetDestination_codesValid (s : State) : (forgetDestination s).codesValid = s.codesValid := rfl
@[simp] theorem forgetDestination_cmdLast (s : State) : (forgetDestination s).cmdLast = s.cmdLast := rfl
@[simp] theorem forgetDestination_errCode (s : State) : (forgetDestination s).errCode = s.errCode := rfl
@[simp] theorem forgetDestination_errInfo (s : State) : (forgetDestination s).errInfo = s.errInfo := rfl
@[simp] theorem forgetDestination_srcAddr (s : State) : (forgetDestination s).srcAddr = s.srcAddr := rfl
@[simp] theorem forgetDestination_srcLen (s : State) : (forgetDestination s).srcLen = s.srcLen := rfl
@[simp] theorem forgetDestination_dstAddr (s : State) : (forgetDestination s).dstAddr = s.dstAddr := rfl
@[simp] theorem forgetDestination_dstLen (s : State) : (forgetDestination s).dstLen = s.dstLen := rfl
@[simp] theorem forgetDestination_padIn (s : State) : (forgetDestination s).padIn = s.padIn := rfl
@[simp] theorem forgetDestination_resultLen (s : State) : (forgetDestination s).resultLen = s.resultLen := rfl
@[simp] theorem forgetDestination_padOut (s : State) : (forgetDestination s).padOut = s.padOut := rfl
@[simp] theorem forgetDestination_pk (s : State) : (forgetDestination s).pk = s.pk := rfl
@[simp] theorem forgetDestination_numSyms (s : State) : (forgetDestination s).numSyms = s.numSyms := rfl
@[simp] theorem forgetDestination_nodeCount (s : State) : (forgetDestination s).nodeCount = s.nodeCount := rfl
@[simp] theorem forgetDestination_root (s : State) : (forgetDestination s).root = s.root := rfl
@[simp] theorem forgetDestination_decNode (s : State) : (forgetDestination s).decNode = s.decNode := rfl
@[simp] theorem forgetDestination_freq (s : State) : (forgetDestination s).freq = s.freq := rfl
@[simp] theorem forgetDestination_node (s : State) : (forgetDestination s).node = s.node := rfl
@[simp] theorem forgetDestination_code (s : State) : (forgetDestination s).code = s.code := rfl
@[simp] theorem forgetDestination_lmem (s : State) :
    (forgetDestination s).lmem = Memory.forget s.lmem s.dstAddr.toNat s.dstLen.toNat := rfl
@[simp] theorem forgetDestination_lmemSize (s : State) : (forgetDestination s).lmemSize = s.lmemSize := rfl
@[simp] theorem forgetDestination_agenda (s : State) : (forgetDestination s).agenda = s.agenda := rfl
@[simp] theorem forgetDestination_returned (s : State) : (forgetDestination s).returned = s.returned := rfl
@[simp] theorem forgetDestination_draws (s : State) : (forgetDestination s).draws = s.draws := rfl

/-! ## errorCompletion -/

@[simp] theorem errorCompletion_pending (e : CmdError) (s : State) :
    (errorCompletion e s).pending = (abortRow e.cls s).pending := rfl
@[simp] theorem errorCompletion_doneIE (e : CmdError) (s : State) :
    (errorCompletion e s).doneIE = (abortRow e.cls s).doneIE := rfl
@[simp] theorem errorCompletion_errIE (e : CmdError) (s : State) :
    (errorCompletion e s).errIE = (abortRow e.cls s).errIE := rfl
@[simp] theorem errorCompletion_done (e : CmdError) (s : State) :
    (errorCompletion e s).done = (abortRow e.cls s).done := rfl
@[simp] theorem errorCompletion_err (e : CmdError) (s : State) : (errorCompletion e s).err = true := rfl
@[simp] theorem errorCompletion_busyViol (e : CmdError) (s : State) :
    (errorCompletion e s).busyViol = (abortRow e.cls s).busyViol := rfl
@[simp] theorem errorCompletion_treeValid (e : CmdError) (s : State) :
    (errorCompletion e s).treeValid = (abortRow e.cls s).treeValid := rfl
@[simp] theorem errorCompletion_codesValid (e : CmdError) (s : State) :
    (errorCompletion e s).codesValid = (abortRow e.cls s).codesValid := rfl
@[simp] theorem errorCompletion_cmdLast (e : CmdError) (s : State) :
    (errorCompletion e s).cmdLast = (abortRow e.cls s).cmdLast := rfl
@[simp] theorem errorCompletion_errCode (e : CmdError) (s : State) :
    (errorCompletion e s).errCode = e.code.toByte := rfl
@[simp] theorem errorCompletion_errInfo (e : CmdError) (s : State) : (errorCompletion e s).errInfo = e.info := rfl
@[simp] theorem errorCompletion_srcAddr (e : CmdError) (s : State) :
    (errorCompletion e s).srcAddr = (abortRow e.cls s).srcAddr := rfl
@[simp] theorem errorCompletion_srcLen (e : CmdError) (s : State) :
    (errorCompletion e s).srcLen = (abortRow e.cls s).srcLen := rfl
@[simp] theorem errorCompletion_dstAddr (e : CmdError) (s : State) :
    (errorCompletion e s).dstAddr = (abortRow e.cls s).dstAddr := rfl
@[simp] theorem errorCompletion_dstLen (e : CmdError) (s : State) :
    (errorCompletion e s).dstLen = (abortRow e.cls s).dstLen := rfl
@[simp] theorem errorCompletion_padIn (e : CmdError) (s : State) :
    (errorCompletion e s).padIn = (abortRow e.cls s).padIn := rfl
@[simp] theorem errorCompletion_resultLen (e : CmdError) (s : State) : (errorCompletion e s).resultLen = 0 := rfl
@[simp] theorem errorCompletion_padOut (e : CmdError) (s : State) :
    (errorCompletion e s).padOut = (abortRow e.cls s).padOut := rfl
@[simp] theorem errorCompletion_pk (e : CmdError) (s : State) : (errorCompletion e s).pk = (abortRow e.cls s).pk := rfl
@[simp] theorem errorCompletion_numSyms (e : CmdError) (s : State) :
    (errorCompletion e s).numSyms = (abortRow e.cls s).numSyms := rfl
@[simp] theorem errorCompletion_nodeCount (e : CmdError) (s : State) :
    (errorCompletion e s).nodeCount = (abortRow e.cls s).nodeCount := rfl
@[simp] theorem errorCompletion_root (e : CmdError) (s : State) :
    (errorCompletion e s).root = (abortRow e.cls s).root := rfl
@[simp] theorem errorCompletion_decNode (e : CmdError) (s : State) :
    (errorCompletion e s).decNode = (abortRow e.cls s).decNode := rfl
@[simp] theorem errorCompletion_freq (e : CmdError) (s : State) :
    (errorCompletion e s).freq = (abortRow e.cls s).freq := rfl
@[simp] theorem errorCompletion_node (e : CmdError) (s : State) :
    (errorCompletion e s).node = (abortRow e.cls s).node := rfl
@[simp] theorem errorCompletion_code (e : CmdError) (s : State) :
    (errorCompletion e s).code = (abortRow e.cls s).code := rfl
@[simp] theorem errorCompletion_lmem (e : CmdError) (s : State) :
    (errorCompletion e s).lmem = (abortRow e.cls s).lmem := rfl
@[simp] theorem errorCompletion_lmemSize (e : CmdError) (s : State) :
    (errorCompletion e s).lmemSize = (abortRow e.cls s).lmemSize := rfl
@[simp] theorem errorCompletion_agenda (e : CmdError) (s : State) :
    (errorCompletion e s).agenda = (abortRow e.cls s).agenda := rfl
@[simp] theorem errorCompletion_returned (e : CmdError) (s : State) :
    (errorCompletion e s).returned = (abortRow e.cls s).returned := rfl
@[simp] theorem errorCompletion_draws (e : CmdError) (s : State) :
    (errorCompletion e s).draws = (abortRow e.cls s).draws := rfl

/-! ## storeResult -/

@[simp] theorem storeResult_pending (out : List Byte) (s : State) : (storeResult out s).pending = s.pending := rfl
@[simp] theorem storeResult_doneIE (out : List Byte) (s : State) : (storeResult out s).doneIE = s.doneIE := rfl
@[simp] theorem storeResult_errIE (out : List Byte) (s : State) : (storeResult out s).errIE = s.errIE := rfl
@[simp] theorem storeResult_done (out : List Byte) (s : State) : (storeResult out s).done = s.done := rfl
@[simp] theorem storeResult_err (out : List Byte) (s : State) : (storeResult out s).err = s.err := rfl
@[simp] theorem storeResult_busyViol (out : List Byte) (s : State) : (storeResult out s).busyViol = s.busyViol := rfl
@[simp] theorem storeResult_treeValid (out : List Byte) (s : State) : (storeResult out s).treeValid = s.treeValid := rfl
@[simp] theorem storeResult_codesValid (out : List Byte) (s : State) :
    (storeResult out s).codesValid = s.codesValid := rfl
@[simp] theorem storeResult_cmdLast (out : List Byte) (s : State) : (storeResult out s).cmdLast = s.cmdLast := rfl
@[simp] theorem storeResult_errCode (out : List Byte) (s : State) : (storeResult out s).errCode = s.errCode := rfl
@[simp] theorem storeResult_errInfo (out : List Byte) (s : State) : (storeResult out s).errInfo = s.errInfo := rfl
@[simp] theorem storeResult_srcAddr (out : List Byte) (s : State) : (storeResult out s).srcAddr = s.srcAddr := rfl
@[simp] theorem storeResult_srcLen (out : List Byte) (s : State) : (storeResult out s).srcLen = s.srcLen := rfl
@[simp] theorem storeResult_dstAddr (out : List Byte) (s : State) : (storeResult out s).dstAddr = s.dstAddr := rfl
@[simp] theorem storeResult_dstLen (out : List Byte) (s : State) : (storeResult out s).dstLen = s.dstLen := rfl
@[simp] theorem storeResult_padIn (out : List Byte) (s : State) : (storeResult out s).padIn = s.padIn := rfl
@[simp] theorem storeResult_resultLen (out : List Byte) (s : State) :
    (storeResult out s).resultLen = BitVec.ofNat 32 out.length := rfl
@[simp] theorem storeResult_padOut (out : List Byte) (s : State) : (storeResult out s).padOut = s.padOut := rfl
@[simp] theorem storeResult_pk (out : List Byte) (s : State) : (storeResult out s).pk = s.pk := rfl
@[simp] theorem storeResult_numSyms (out : List Byte) (s : State) : (storeResult out s).numSyms = s.numSyms := rfl
@[simp] theorem storeResult_nodeCount (out : List Byte) (s : State) : (storeResult out s).nodeCount = s.nodeCount := rfl
@[simp] theorem storeResult_root (out : List Byte) (s : State) : (storeResult out s).root = s.root := rfl
@[simp] theorem storeResult_decNode (out : List Byte) (s : State) : (storeResult out s).decNode = s.decNode := rfl
@[simp] theorem storeResult_freq (out : List Byte) (s : State) : (storeResult out s).freq = s.freq := rfl
@[simp] theorem storeResult_node (out : List Byte) (s : State) : (storeResult out s).node = s.node := rfl
@[simp] theorem storeResult_code (out : List Byte) (s : State) : (storeResult out s).code = s.code := rfl
@[simp] theorem storeResult_lmem (out : List Byte) (s : State) :
    (storeResult out s).lmem = Memory.setBytes s.lmem s.dstAddr.toNat out := rfl
@[simp] theorem storeResult_lmemSize (out : List Byte) (s : State) : (storeResult out s).lmemSize = s.lmemSize := rfl
@[simp] theorem storeResult_agenda (out : List Byte) (s : State) : (storeResult out s).agenda = s.agenda := rfl
@[simp] theorem storeResult_returned (out : List Byte) (s : State) : (storeResult out s).returned = s.returned := rfl
@[simp] theorem storeResult_draws (out : List Byte) (s : State) : (storeResult out s).draws = s.draws := rfl

/-! ## beginEvent -/

@[simp] theorem beginEvent_pending (rest : List Event) (s : State) : (beginEvent rest s).pending = s.pending := rfl
@[simp] theorem beginEvent_doneIE (rest : List Event) (s : State) : (beginEvent rest s).doneIE = s.doneIE := rfl
@[simp] theorem beginEvent_errIE (rest : List Event) (s : State) : (beginEvent rest s).errIE = s.errIE := rfl
@[simp] theorem beginEvent_done (rest : List Event) (s : State) : (beginEvent rest s).done = s.done := rfl
@[simp] theorem beginEvent_err (rest : List Event) (s : State) : (beginEvent rest s).err = s.err := rfl
@[simp] theorem beginEvent_busyViol (rest : List Event) (s : State) : (beginEvent rest s).busyViol = s.busyViol := rfl
@[simp] theorem beginEvent_treeValid (rest : List Event) (s : State) :
    (beginEvent rest s).treeValid = s.treeValid := rfl
@[simp] theorem beginEvent_codesValid (rest : List Event) (s : State) :
    (beginEvent rest s).codesValid = s.codesValid := rfl
@[simp] theorem beginEvent_cmdLast (rest : List Event) (s : State) : (beginEvent rest s).cmdLast = s.cmdLast := rfl
@[simp] theorem beginEvent_errCode (rest : List Event) (s : State) : (beginEvent rest s).errCode = s.errCode := rfl
@[simp] theorem beginEvent_errInfo (rest : List Event) (s : State) : (beginEvent rest s).errInfo = s.errInfo := rfl
@[simp] theorem beginEvent_srcAddr (rest : List Event) (s : State) : (beginEvent rest s).srcAddr = s.srcAddr := rfl
@[simp] theorem beginEvent_srcLen (rest : List Event) (s : State) : (beginEvent rest s).srcLen = s.srcLen := rfl
@[simp] theorem beginEvent_dstAddr (rest : List Event) (s : State) : (beginEvent rest s).dstAddr = s.dstAddr := rfl
@[simp] theorem beginEvent_dstLen (rest : List Event) (s : State) : (beginEvent rest s).dstLen = s.dstLen := rfl
@[simp] theorem beginEvent_padIn (rest : List Event) (s : State) : (beginEvent rest s).padIn = s.padIn := rfl
@[simp] theorem beginEvent_resultLen (rest : List Event) (s : State) :
    (beginEvent rest s).resultLen = s.resultLen := rfl
@[simp] theorem beginEvent_padOut (rest : List Event) (s : State) : (beginEvent rest s).padOut = s.padOut := rfl
@[simp] theorem beginEvent_pk (rest : List Event) (s : State) : (beginEvent rest s).pk = s.pk := rfl
@[simp] theorem beginEvent_numSyms (rest : List Event) (s : State) : (beginEvent rest s).numSyms = s.numSyms := rfl
@[simp] theorem beginEvent_nodeCount (rest : List Event) (s : State) :
    (beginEvent rest s).nodeCount = s.nodeCount := rfl
@[simp] theorem beginEvent_root (rest : List Event) (s : State) : (beginEvent rest s).root = s.root := rfl
@[simp] theorem beginEvent_decNode (rest : List Event) (s : State) : (beginEvent rest s).decNode = s.decNode := rfl
@[simp] theorem beginEvent_freq (rest : List Event) (s : State) : (beginEvent rest s).freq = s.freq := rfl
@[simp] theorem beginEvent_node (rest : List Event) (s : State) : (beginEvent rest s).node = s.node := rfl
@[simp] theorem beginEvent_code (rest : List Event) (s : State) : (beginEvent rest s).code = s.code := rfl
@[simp] theorem beginEvent_lmem (rest : List Event) (s : State) : (beginEvent rest s).lmem = s.lmem := rfl
@[simp] theorem beginEvent_lmemSize (rest : List Event) (s : State) : (beginEvent rest s).lmemSize = s.lmemSize := rfl
@[simp] theorem beginEvent_agenda (rest : List Event) (s : State) : (beginEvent rest s).agenda = rest := rfl
@[simp] theorem beginEvent_returned (rest : List Event) (s : State) : (beginEvent rest s).returned = s.returned := rfl
@[simp] theorem beginEvent_draws (rest : List Event) (s : State) : (beginEvent rest s).draws = s.draws + 1 := rfl

/-! ## returnValue -/

@[simp] theorem returnValue_pending (r : Response) (s : State) : (returnValue r s).pending = s.pending := rfl
@[simp] theorem returnValue_doneIE (r : Response) (s : State) : (returnValue r s).doneIE = s.doneIE := rfl
@[simp] theorem returnValue_errIE (r : Response) (s : State) : (returnValue r s).errIE = s.errIE := rfl
@[simp] theorem returnValue_done (r : Response) (s : State) : (returnValue r s).done = s.done := rfl
@[simp] theorem returnValue_err (r : Response) (s : State) : (returnValue r s).err = s.err := rfl
@[simp] theorem returnValue_busyViol (r : Response) (s : State) : (returnValue r s).busyViol = s.busyViol := rfl
@[simp] theorem returnValue_treeValid (r : Response) (s : State) : (returnValue r s).treeValid = s.treeValid := rfl
@[simp] theorem returnValue_codesValid (r : Response) (s : State) : (returnValue r s).codesValid = s.codesValid := rfl
@[simp] theorem returnValue_cmdLast (r : Response) (s : State) : (returnValue r s).cmdLast = s.cmdLast := rfl
@[simp] theorem returnValue_errCode (r : Response) (s : State) : (returnValue r s).errCode = s.errCode := rfl
@[simp] theorem returnValue_errInfo (r : Response) (s : State) : (returnValue r s).errInfo = s.errInfo := rfl
@[simp] theorem returnValue_srcAddr (r : Response) (s : State) : (returnValue r s).srcAddr = s.srcAddr := rfl
@[simp] theorem returnValue_srcLen (r : Response) (s : State) : (returnValue r s).srcLen = s.srcLen := rfl
@[simp] theorem returnValue_dstAddr (r : Response) (s : State) : (returnValue r s).dstAddr = s.dstAddr := rfl
@[simp] theorem returnValue_dstLen (r : Response) (s : State) : (returnValue r s).dstLen = s.dstLen := rfl
@[simp] theorem returnValue_padIn (r : Response) (s : State) : (returnValue r s).padIn = s.padIn := rfl
@[simp] theorem returnValue_resultLen (r : Response) (s : State) : (returnValue r s).resultLen = s.resultLen := rfl
@[simp] theorem returnValue_padOut (r : Response) (s : State) : (returnValue r s).padOut = s.padOut := rfl
@[simp] theorem returnValue_pk (r : Response) (s : State) : (returnValue r s).pk = s.pk := rfl
@[simp] theorem returnValue_numSyms (r : Response) (s : State) : (returnValue r s).numSyms = s.numSyms := rfl
@[simp] theorem returnValue_nodeCount (r : Response) (s : State) : (returnValue r s).nodeCount = s.nodeCount := rfl
@[simp] theorem returnValue_root (r : Response) (s : State) : (returnValue r s).root = s.root := rfl
@[simp] theorem returnValue_decNode (r : Response) (s : State) : (returnValue r s).decNode = s.decNode := rfl
@[simp] theorem returnValue_freq (r : Response) (s : State) : (returnValue r s).freq = s.freq := rfl
@[simp] theorem returnValue_node (r : Response) (s : State) : (returnValue r s).node = s.node := rfl
@[simp] theorem returnValue_code (r : Response) (s : State) : (returnValue r s).code = s.code := rfl
@[simp] theorem returnValue_lmem (r : Response) (s : State) : (returnValue r s).lmem = s.lmem := rfl
@[simp] theorem returnValue_lmemSize (r : Response) (s : State) : (returnValue r s).lmemSize = s.lmemSize := rfl
@[simp] theorem returnValue_agenda (r : Response) (s : State) : (returnValue r s).agenda = s.agenda := rfl
@[simp] theorem returnValue_returned (r : Response) (s : State) : (returnValue r s).returned = r :: s.returned := rfl
@[simp] theorem returnValue_draws (r : Response) (s : State) : (returnValue r s).draws = s.draws := rfl

/-! ## writeCtrl -/

@[simp] theorem writeCtrl_pending (v : Word) (s : State) : (writeCtrl v s).pending = s.pending := rfl
@[simp] theorem writeCtrl_doneIE (v : Word) (s : State) : (writeCtrl v s).doneIE = v.getLsbD 0 := rfl
@[simp] theorem writeCtrl_errIE (v : Word) (s : State) : (writeCtrl v s).errIE = v.getLsbD 1 := rfl
@[simp] theorem writeCtrl_done (v : Word) (s : State) : (writeCtrl v s).done = s.done := rfl
@[simp] theorem writeCtrl_err (v : Word) (s : State) : (writeCtrl v s).err = s.err := rfl
@[simp] theorem writeCtrl_busyViol (v : Word) (s : State) : (writeCtrl v s).busyViol = s.busyViol := rfl
@[simp] theorem writeCtrl_treeValid (v : Word) (s : State) : (writeCtrl v s).treeValid = s.treeValid := rfl
@[simp] theorem writeCtrl_codesValid (v : Word) (s : State) : (writeCtrl v s).codesValid = s.codesValid := rfl
@[simp] theorem writeCtrl_cmdLast (v : Word) (s : State) : (writeCtrl v s).cmdLast = s.cmdLast := rfl
@[simp] theorem writeCtrl_errCode (v : Word) (s : State) : (writeCtrl v s).errCode = s.errCode := rfl
@[simp] theorem writeCtrl_errInfo (v : Word) (s : State) : (writeCtrl v s).errInfo = s.errInfo := rfl
@[simp] theorem writeCtrl_srcAddr (v : Word) (s : State) : (writeCtrl v s).srcAddr = s.srcAddr := rfl
@[simp] theorem writeCtrl_srcLen (v : Word) (s : State) : (writeCtrl v s).srcLen = s.srcLen := rfl
@[simp] theorem writeCtrl_dstAddr (v : Word) (s : State) : (writeCtrl v s).dstAddr = s.dstAddr := rfl
@[simp] theorem writeCtrl_dstLen (v : Word) (s : State) : (writeCtrl v s).dstLen = s.dstLen := rfl
@[simp] theorem writeCtrl_padIn (v : Word) (s : State) : (writeCtrl v s).padIn = s.padIn := rfl
@[simp] theorem writeCtrl_resultLen (v : Word) (s : State) : (writeCtrl v s).resultLen = s.resultLen := rfl
@[simp] theorem writeCtrl_padOut (v : Word) (s : State) : (writeCtrl v s).padOut = s.padOut := rfl
@[simp] theorem writeCtrl_pk (v : Word) (s : State) : (writeCtrl v s).pk = s.pk := rfl
@[simp] theorem writeCtrl_numSyms (v : Word) (s : State) : (writeCtrl v s).numSyms = s.numSyms := rfl
@[simp] theorem writeCtrl_nodeCount (v : Word) (s : State) : (writeCtrl v s).nodeCount = s.nodeCount := rfl
@[simp] theorem writeCtrl_root (v : Word) (s : State) : (writeCtrl v s).root = s.root := rfl
@[simp] theorem writeCtrl_decNode (v : Word) (s : State) : (writeCtrl v s).decNode = s.decNode := rfl
@[simp] theorem writeCtrl_freq (v : Word) (s : State) : (writeCtrl v s).freq = s.freq := rfl
@[simp] theorem writeCtrl_node (v : Word) (s : State) : (writeCtrl v s).node = s.node := rfl
@[simp] theorem writeCtrl_code (v : Word) (s : State) : (writeCtrl v s).code = s.code := rfl
@[simp] theorem writeCtrl_lmem (v : Word) (s : State) : (writeCtrl v s).lmem = s.lmem := rfl
@[simp] theorem writeCtrl_lmemSize (v : Word) (s : State) : (writeCtrl v s).lmemSize = s.lmemSize := rfl
@[simp] theorem writeCtrl_agenda (v : Word) (s : State) : (writeCtrl v s).agenda = s.agenda := rfl
@[simp] theorem writeCtrl_returned (v : Word) (s : State) : (writeCtrl v s).returned = s.returned := rfl
@[simp] theorem writeCtrl_draws (v : Word) (s : State) : (writeCtrl v s).draws = s.draws := rfl

/-! ## writeFreq -/

@[simp] theorem writeFreq_pending (c : Byte) (v : Word) (s : State) : (writeFreq c v s).pending = s.pending := rfl
@[simp] theorem writeFreq_doneIE (c : Byte) (v : Word) (s : State) : (writeFreq c v s).doneIE = s.doneIE := rfl
@[simp] theorem writeFreq_errIE (c : Byte) (v : Word) (s : State) : (writeFreq c v s).errIE = s.errIE := rfl
@[simp] theorem writeFreq_done (c : Byte) (v : Word) (s : State) : (writeFreq c v s).done = s.done := rfl
@[simp] theorem writeFreq_err (c : Byte) (v : Word) (s : State) : (writeFreq c v s).err = s.err := rfl
@[simp] theorem writeFreq_busyViol (c : Byte) (v : Word) (s : State) : (writeFreq c v s).busyViol = s.busyViol := rfl
@[simp] theorem writeFreq_treeValid (c : Byte) (v : Word) (s : State) : (writeFreq c v s).treeValid = s.treeValid := rfl
@[simp] theorem writeFreq_codesValid (c : Byte) (v : Word) (s : State) :
    (writeFreq c v s).codesValid = s.codesValid := rfl
@[simp] theorem writeFreq_cmdLast (c : Byte) (v : Word) (s : State) : (writeFreq c v s).cmdLast = s.cmdLast := rfl
@[simp] theorem writeFreq_errCode (c : Byte) (v : Word) (s : State) : (writeFreq c v s).errCode = s.errCode := rfl
@[simp] theorem writeFreq_errInfo (c : Byte) (v : Word) (s : State) : (writeFreq c v s).errInfo = s.errInfo := rfl
@[simp] theorem writeFreq_srcAddr (c : Byte) (v : Word) (s : State) : (writeFreq c v s).srcAddr = s.srcAddr := rfl
@[simp] theorem writeFreq_srcLen (c : Byte) (v : Word) (s : State) : (writeFreq c v s).srcLen = s.srcLen := rfl
@[simp] theorem writeFreq_dstAddr (c : Byte) (v : Word) (s : State) : (writeFreq c v s).dstAddr = s.dstAddr := rfl
@[simp] theorem writeFreq_dstLen (c : Byte) (v : Word) (s : State) : (writeFreq c v s).dstLen = s.dstLen := rfl
@[simp] theorem writeFreq_padIn (c : Byte) (v : Word) (s : State) : (writeFreq c v s).padIn = s.padIn := rfl
@[simp] theorem writeFreq_resultLen (c : Byte) (v : Word) (s : State) : (writeFreq c v s).resultLen = s.resultLen := rfl
@[simp] theorem writeFreq_padOut (c : Byte) (v : Word) (s : State) : (writeFreq c v s).padOut = s.padOut := rfl
@[simp] theorem writeFreq_pk (c : Byte) (v : Word) (s : State) : (writeFreq c v s).pk = s.pk := rfl
@[simp] theorem writeFreq_numSyms (c : Byte) (v : Word) (s : State) : (writeFreq c v s).numSyms = s.numSyms := rfl
@[simp] theorem writeFreq_nodeCount (c : Byte) (v : Word) (s : State) : (writeFreq c v s).nodeCount = s.nodeCount := rfl
@[simp] theorem writeFreq_root (c : Byte) (v : Word) (s : State) : (writeFreq c v s).root = s.root := rfl
@[simp] theorem writeFreq_decNode (c : Byte) (v : Word) (s : State) : (writeFreq c v s).decNode = s.decNode := rfl
@[simp] theorem writeFreq_freq (c : Byte) (v : Word) (s : State) :
    (writeFreq c v s).freq = s.freq.set c.toNat (.written v) c.isLt := rfl
@[simp] theorem writeFreq_node (c : Byte) (v : Word) (s : State) : (writeFreq c v s).node = s.node := rfl
@[simp] theorem writeFreq_code (c : Byte) (v : Word) (s : State) : (writeFreq c v s).code = s.code := rfl
@[simp] theorem writeFreq_lmem (c : Byte) (v : Word) (s : State) : (writeFreq c v s).lmem = s.lmem := rfl
@[simp] theorem writeFreq_lmemSize (c : Byte) (v : Word) (s : State) : (writeFreq c v s).lmemSize = s.lmemSize := rfl
@[simp] theorem writeFreq_agenda (c : Byte) (v : Word) (s : State) : (writeFreq c v s).agenda = s.agenda := rfl
@[simp] theorem writeFreq_returned (c : Byte) (v : Word) (s : State) : (writeFreq c v s).returned = s.returned := rfl
@[simp] theorem writeFreq_draws (c : Byte) (v : Word) (s : State) : (writeFreq c v s).draws = s.draws := rfl

end Sys2Proof.Machine
end

