-- ==== Sys2Proof/Laws/Ops.lean ====
section
/-! SUPPORT. Each shared operation and each transfer loop: once, everything it can do. -/

namespace Sys2Proof.Machine

/-! ## The ends of a command -/

/-- A command's body ends in one of two ways (40_control.md R114). -/
theorem perform_cases {r : Except CmdError State} {s t : State} (h : perform r s = t) :
    (∃ u, r = .ok u ∧ t = complete u) ∨ ∃ e, r = .error e ∧ t = complete (errorCompletion e s) := by
  cases r with
  | ok u => exact .inl ⟨u, rfl, h.symm⟩
  | error e => exact .inr ⟨e, rfl, h.symm⟩

/-- A Reject leaves `rejected` (60_exceptions.md R212). -/
theorem perform_reject (c : ErrCode) (info : Word) (s : State) :
    perform (.error ⟨.reject, c, info⟩) s = rejected c.toByte info s := rfl

/-- An Abort of DESERIALIZE leaves `abortedDeserialize` (60_exceptions.md R213). -/
theorem perform_abortDeserialize (c : ErrCode) (info : Word) (s : State) :
    perform (.error ⟨.abortDeserialize, c, info⟩) s = abortedDeserialize c.toByte info s := rfl

/-- An Abort of ENCODE leaves `abortedEncode` (60_exceptions.md R213). -/
theorem perform_abortEncode (c : ErrCode) (info : Word) (s : State) :
    abortedEncode c.toByte info s (perform (.error ⟨.abortEncode, c, info⟩) s) :=
  ⟨rfl, Memory.forget_sameOutside _ _ _, Memory.forget_unspecifiedIn _ _ _⟩

/-- An Abort of DECODE leaves `abortedDecode` (60_exceptions.md R213). -/
theorem perform_abortDecode (c : ErrCode) (info : Word) (s : State) :
    abortedDecode c.toByte info s (perform (.error ⟨.abortDecode, c, info⟩) s) :=
  ⟨rfl, Memory.forget_sameOutside _ _ _, Memory.forget_unspecifiedIn _ _ _⟩

/-- What the rows of R213 may write: no operand register, enable, FREQ entry or handle count outside these fields. -/
theorem abortRow_frame (k : ErrClass) (s : State) :
    abortRow k s = { s with
      treeValid := (abortRow k s).treeValid, codesValid := (abortRow k s).codesValid,
      code := (abortRow k s).code, numSyms := (abortRow k s).numSyms, nodeCount := (abortRow k s).nodeCount,
      root := (abortRow k s).root, decNode := (abortRow k s).decNode, pk := (abortRow k s).pk,
      lmem := (abortRow k s).lmem } := by cases k <;> rfl

/-- Every error code is 1 to 15 (60_exceptions.md R210). -/
theorem ErrCode.toByte_bounds (c : ErrCode) : 0x01 ≤ c.toByte.toNat ∧ c.toByte.toNat ≤ 0x0F := by
  cases c <;> decide

theorem ErrCode.toByte_ne_zero (c : ErrCode) : c.toByte ≠ 0 := by cases c <;> decide

/-! ## The operand checks -/

theorem rangeOK_iff (s : State) (a l : Word) : rangeOK s a l = true ↔ a.toNat + l.toNat ≤ s.lmemSize.bytes := by
  simp [rangeOK]

theorem srcRangeOK_iff (s : State) : srcRangeOK s = true ↔ s.srcAddr.toNat + s.srcLen.toNat ≤ s.lmemSize.bytes :=
  rangeOK_iff s _ _

theorem dstRangeOK_iff (s : State) : dstRangeOK s = true ↔ s.dstAddr.toNat + s.dstLen.toNat ≤ s.lmemSize.bytes :=
  rangeOK_iff s _ _

/-- The checks of ENCODE and DECODE pass exactly when both ranges fit and do not overlap. -/
theorem sourceDestError_none_iff (s : State) :
    sourceDestError s = none ↔ srcRangeOK s = true ∧ dstRangeOK s = true ∧ rangesOverlap s = false := by
  unfold sourceDestError
  cases srcRangeOK s <;> cases dstRangeOK s <;> cases rangesOverlap s <;> simp

/-- When they fail, it is with a Reject. -/
theorem sourceDestError_reject {s : State} {e : CmdError} (h : sourceDestError s = some e) : e.cls = .reject := by
  unfold sourceDestError at h
  split at h
  · cases h; rfl
  · split at h
    · cases h; rfl
    · split at h
      · cases h; rfl
      · cases h

theorem sourceBytes_length (s : State) : (sourceBytes s).length = s.srcLen.toNat := by simp [sourceBytes]

theorem sourceBits_length (s : State) (n : Nat) : (sourceBits s n).length = n := by simp [sourceBits]

/-! ## The emission loop of ENCODE -/

/-- What the emission loop emits is all the whole bytes of its register; it emits them exactly when they have room. -/
theorem emitBytes_some {cap written : Nat} {b pk : Bits} {out : List Byte}
    (h : emitBytes cap written b = some (out, pk)) :
    out.flatMap byteToBits ++ pk = b ∧ pk.length < 8 ∧ out.length = b.length / 8 ∧
      (written ≤ cap → written + out.length ≤ cap) := by
  fun_induction emitBytes cap written b generalizing out pk with
  | case1 => simp at h
  | case2 => simp at h
  | case3 written b0 b1 b2 b3 b4 b5 b6 b7 rest hc out' pk' hrec ih =>
    simp only [Option.some.injEq, Prod.mk.injEq] at h
    obtain ⟨rfl, rfl⟩ := h
    have ⟨h1, h2, h3, h4⟩ := ih hrec
    refine ⟨by simp [byteToBits_bitsToByte, h1], h2, ?_, ?_⟩
    · simp only [List.length_cons, h3]; omega
    · intro hle; simp only [List.length_cons]; have := h4 (by omega); omega
  | case4 written pk' hne =>
    simp only [Option.some.injEq, Prod.mk.injEq] at h
    obtain ⟨rfl, rfl⟩ := h
    have : pk'.length < 8 := by
      rcases pk' with _ | ⟨b0, _ | ⟨b1, _ | ⟨b2, _ | ⟨b3, _ | ⟨b4, _ | ⟨b5, _ | ⟨b6, _ | ⟨b7, rest⟩⟩⟩⟩⟩⟩⟩⟩ <;>
        first | (simp; done) | exact absurd rfl (hne _ _ _ _ _ _ _ _ _)
    exact ⟨rfl, this, by simp; omega, fun hle => by simpa using hle⟩

theorem emitBytes_none_iff {cap written : Nat} {b : Bits} (le : written ≤ cap) :
    emitBytes cap written b = none ↔ cap < written + b.length / 8 := by
  fun_induction emitBytes cap written b with
  | case1 => simp only [true_iff, List.length_cons]; omega
  | case2 written b0 b1 b2 b3 b4 b5 b6 b7 rest hc hrec ih =>
    have := (ih (by omega)).mp hrec
    simp only [true_iff, List.length_cons]; omega
  | case3 written b0 b1 b2 b3 b4 b5 b6 b7 rest hc out' pk' hrec ih =>
    have hroom := mt (ih (by omega)).mpr (by rw [hrec]; simp)
    simp only [reduceCtorEq, false_iff, List.length_cons]; omega
  | case4 written pk' hne =>
    have : pk'.length < 8 := by
      rcases pk' with _ | ⟨b0, _ | ⟨b1, _ | ⟨b2, _ | ⟨b3, _ | ⟨b4, _ | ⟨b5, _ | ⟨b6, _ | ⟨b7, rest⟩⟩⟩⟩⟩⟩⟩⟩ <;>
        first | (simp; done) | exact absurd rfl (hne _ _ _ _ _ _ _ _ _)
    simp only [reduceCtorEq, false_iff]; omega

/-! ## The symbol loop of ENCODE -/

/-- When the symbol loop ends, every symbol had a code and the bits of its register and of the codes are in its bytes and the
register it leaves. -/
theorem encodeLoop_ok {s : State} {i written : Nat} {pk pk' : Bits} {syms out : List Byte}
    (h : encodeLoop s i written pk syms = .ok (out, pk')) (hpk : pk.length < 8) :
    (∀ c ∈ syms, readCode s c ≠ []) ∧ out.flatMap byteToBits ++ pk' = pk ++ syms.flatMap (readCode s) ∧
      pk'.length < 8 ∧ (written ≤ s.dstLen.toNat → written + out.length ≤ s.dstLen.toNat) := by
  induction syms generalizing i written pk out with
  | nil =>
    simp only [encodeLoop, Except.ok.injEq, Prod.mk.injEq] at h
    obtain ⟨rfl, rfl⟩ := h
    exact ⟨by simp, by simp, hpk, by simp⟩
  | cons c rest ih =>
    simp only [encodeLoop] at h
    split at h
    · cases h
    · next hc =>
      split at h
      · cases h
      · next out1 pk1 he =>
        split at h
        · cases h
        · next out2 pk2 hrec =>
          simp only [Except.ok.injEq, Prod.mk.injEq] at h
          obtain ⟨rfl, rfl⟩ := h
          have ⟨e1, e2, _, e4⟩ := emitBytes_some he
          have ⟨r1, r2, r3, r4⟩ := ih hrec e2
          refine ⟨?_, ?_, r3, ?_⟩
          · intro d hd
            rcases List.mem_cons.mp hd with rfl | hd
            · simpa using hc
            · exact r1 d hd
          · rw [List.flatMap_append, List.append_assoc, r2, ← List.append_assoc, e1, List.flatMap_cons,
              List.append_assoc]
          · intro hle
            rw [List.length_append]
            have := r4 (e4 hle)
            omega

/-- The symbol loop fails with an Abort of ENCODE. -/
theorem encodeLoop_error {s : State} {i written : Nat} {pk : Bits} {syms : List Byte} {e : CmdError}
    (h : encodeLoop s i written pk syms = .error e) : e.cls = .abortEncode := by
  induction syms generalizing i written pk with
  | nil => simp [encodeLoop] at h
  | cons c rest ih =>
    simp only [encodeLoop] at h
    split at h
    · cases h; rfl
    · split at h
      · cases h; rfl
      · split at h
        · next hrec => cases h; exact ih hrec
        · cases h

/-! ## The bit loop of DECODE -/

/-- When the bit loop ends, its symbols had room. -/
theorem decodeLoop_ok_length {s : State} {j written : Nat} {n n' : Handle} {bits : Bits} {out : List Byte}
    (h : decodeLoop s j written n bits = .ok (out, n')) (le : written ≤ s.dstLen.toNat) :
    written + out.length ≤ s.dstLen.toNat := by
  induction bits generalizing j written n out with
  | nil => simp only [decodeLoop, Except.ok.injEq, Prod.mk.injEq] at h; obtain ⟨rfl, _⟩ := h; simpa using le
  | cons b rest ih =>
    simp only [decodeLoop] at h
    split at h
    · cases h
    · exact ih h le
    · split at h
      · cases h
      · split at h
        · cases h
        · next out2 n2 hrec =>
          simp only [Except.ok.injEq, Prod.mk.injEq] at h
          obtain ⟨rfl, rfl⟩ := h
          have := ih hrec (by omega)
          simp only [List.length_cons]; omega

/-- The bit loop fails with an Abort of DECODE. -/
theorem decodeLoop_error {s : State} {j written : Nat} {n : Handle} {bits : Bits} {e : CmdError}
    (h : decodeLoop s j written n bits = .error e) : e.cls = .abortDecode := by
  induction bits generalizing j written n with
  | nil => simp [decodeLoop] at h
  | cons b rest ih =>
    simp only [decodeLoop] at h
    split at h
    · cases h; rfl
    · exact ih h
    · split at h
      · cases h; rfl
      · split at h
        · next hrec => cases h; exact ih hrec
        · cases h

/-! ## The parser of DESERIALIZE -/

/-- The parser fails with an Abort of DESERIALIZE. -/
theorem parseTree_error {nbits depth : Nat} {p : ParseState} {e : CmdError}
    (h : parseTree nbits depth p = .error e) : e.cls = .abortDeserialize := by
  induction depth generalizing p with
  | zero => simp only [parseTree, Except.error.injEq] at h; subst h; rfl
  | succ depth ih =>
    simp only [parseTree] at h
    split at h
    · cases h; rfl
    · split at h
      · cases h; rfl
      · split at h
        · cases h; rfl
        · cases h
    · split at h
      · cases h; rfl
      · split at h
        · next h1 => cases h; exact ih h1
        · split at h
          · next h2 => cases h; exact ih h2
          · cases h

/-! ## Walking the arena -/

/-- A lookup that knows more finds the same tree. -/
theorem Tree.fromArena_mono {f g : Handle → Option Node} (le : ∀ h n, f h = some n → g h = some n) {d : Nat}
    {h : Handle} {t : Tree} (ht : Tree.fromArena f d h = some t) : Tree.fromArena g d h = some t := by
  induction d generalizing h t with
  | zero => simp [Tree.fromArena] at ht
  | succ d ih =>
    simp only [Tree.fromArena] at ht ⊢
    split at ht
    · cases ht
    · next hf => cases ht; simp [le _ _ hf]
    · next hf =>
      split at ht
      · cases ht
      · next hl =>
        split at ht
        · cases ht
        · next hr => cases ht; simp [le _ _ hf, ih hl, ih hr]

/-- A command walks the tree the arena holds. -/
theorem walkedTree_of_treeOf {s : State} {t : Tree} (h : treeOf s = some t) : walkedTree s = some t :=
  Tree.fromArena_mono (fun h n hn => by simp [readNode, hn]) h

/-! ## The queue of BUILD -/

theorem popMin_isSome (x : QueueKey) (q : List QueueKey) : ∃ a rest, popMin (x :: q) = some (a, rest) := by
  unfold popMin
  cases popMin q with
  | none => exact ⟨_, _, rfl⟩
  | some r => by_cases h : x.less r.1 = true <;> simp [h]

/-- Popping keeps every element once. -/
theorem popMin_perm {q rest : List QueueKey} {a : QueueKey} (h : popMin q = some (a, rest)) :
    q.Perm (a :: rest) := by
  induction q generalizing a rest with
  | nil => simp [popMin] at h
  | cons x xs ih =>
    unfold popMin at h
    split at h
    · next hx =>
      cases h
      cases xs with
      | nil => exact List.Perm.refl _
      | cons y ys => obtain ⟨_, _, e⟩ := popMin_isSome y ys; rw [e] at hx; cases hx
    · next y ys hy =>
      split at h
      · cases h; exact List.Perm.refl _
      · cases h; exact ((ih hy).cons x).trans (List.Perm.swap _ _ _)

end Sys2Proof.Machine
end

