-- ==== Sys2Proof/Laws/Step.lean ====
section
/-! SUPPORT. Each command, and one step, inverted once: if it answers a next state, then one of these cases holds. -/

namespace Sys2Proof.Machine

/-! ## The commands -/

theorem exec_nop (s : State) : exec .nop s = .next (complete s) := rfl

theorem exec_clear (s : State) : exec .clear s = .next (complete (clearBody s)) := rfl

/-- BUILD: EMPTY_TABLE, or a tree of the symbols present. -/
theorem exec_build_cases {s t : State} (h : exec .build s = .next t) :
    (presentSymbols s = [] ∧ t = rejected 0x02 0 s) ∨
    (presentSymbols s ≠ [] ∧
      t = complete (installTree (buildNodes (leafNodes s (presentSymbols s))).2 (presentSymbols s).length
        (BitVec.ofNat 9 (buildNodes (leafNodes s (presentSymbols s))).1) s)) := by
  simp only [exec, execBuild, buildBody, Host.Outcome.next.injEq] at h
  by_cases he : presentSymbols s = []
  · simp only [he, List.isEmpty_nil, if_true] at h
    exact .inl ⟨he, h.symm⟩
  · simp only [List.isEmpty_eq_false_iff.mpr he, Bool.false_eq_true, if_false] at h
    exact .inr ⟨he, h.symm⟩

/-- GENCODES: NO_TREE, or the code table of the walked tree. -/
theorem exec_gencodes_cases {s t : State} (h : exec .gencodes s = .next t) :
    (s.treeValid = false ∧ t = rejected 0x03 0 s) ∨
    ∃ tr, s.treeValid = true ∧ walkedTree s = some tr ∧
      t = complete { s with code := codeTable tr, codesValid := true } := by
  simp only [exec, execGencodes] at h
  split at h
  · next hv => cases h; exact .inl ⟨by simpa using hv, rfl⟩
  · next hv =>
    split at h
    · cases h
    · next tr htr => cases h; exact .inr ⟨tr, by simpa using hv, htr, rfl⟩

/-- SERIALIZE: one of its three Rejects, or the bytes of the walked tree. -/
theorem exec_serialize_cases {s t : State} (h : exec .serialize s = .next t) :
    (s.treeValid = false ∧ t = rejected 0x03 0 s) ∨
    (s.treeValid = true ∧ dstRangeOK s = false ∧ t = rejected 0x06 0 s) ∨
    ∃ tr, s.treeValid = true ∧ dstRangeOK s = true ∧ walkedTree s = some tr ∧
      ((s.dstLen.toNat < bytesFor tr.ser.length ∧
          t = rejected 0x09 (BitVec.ofNat 32 (bytesFor tr.ser.length)) s) ∨
        (bytesFor tr.ser.length ≤ s.dstLen.toNat ∧
          t = complete (storeResult (packBytes (padToByte tr.ser)) s))) := by
  simp only [exec, execSerialize] at h
  split at h
  · next hv => cases h; exact .inl ⟨by simpa using hv, rfl⟩
  · next hv =>
    split at h
    · next hd => cases h; exact .inr (.inl ⟨by simpa using hv, by simpa using hd, rfl⟩)
    · next hd =>
      split at h
      · cases h
      · next tr htr =>
        cases h
        refine .inr (.inr ⟨tr, by simpa using hv, by simpa using hd, htr, ?_⟩)
        unfold serializeBody
        by_cases hn : s.dstLen.toNat < bytesFor tr.ser.length
        · exact .inl ⟨hn, by simp only [hn, if_true]; rfl⟩
        · exact .inr ⟨by omega, by simp only [hn, if_false]; rfl⟩

/-- DESERIALIZE: SRC_RANGE, an Abort of the parser, or the parsed tree. -/
theorem exec_deserialize_cases {s t : State} (h : exec .deserialize s = .next t) :
    (srcRangeOK s = false ∧ t = rejected 0x05 0 s) ∨
    (∃ e, srcRangeOK s = true ∧
      parseTree (8 * s.srcLen.toNat) (Config.maxNodes + 1) (parseStart s) = .error e ∧
      t = abortedDeserialize e.code.toByte e.info s) ∨
    ∃ nodes p, srcRangeOK s = true ∧
      parseTree (8 * s.srcLen.toNat) (Config.maxNodes + 1) (parseStart s) = .ok (nodes, p) ∧
      t = complete { installTree nodes p.seen.length 0 s with
        resultLen := BitVec.ofNat 32 (bytesFor p.pos) } := by
  simp only [exec, execDeserialize, deserializeBody, Host.Outcome.next.injEq] at h
  subst h
  cases hs : srcRangeOK s with
  | false => exact .inl ⟨rfl, rfl⟩
  | true =>
    simp only [Bool.not_true, Bool.false_eq_true, if_false]
    split
    · next e he =>
      refine .inr (.inl ⟨e, trivial, he, ?_⟩)
      have hc := parseTree_error he
      obtain ⟨cls, code, info⟩ := e
      simp only at hc
      subst hc
      exact perform_abortDeserialize code info s
    · next nodes p hp => exact .inr (.inr ⟨nodes, p, trivial, hp, rfl⟩)

/-- ENCODE: a Reject, an Abort, or the bytes and the register of the symbol loop. -/
theorem exec_encode_cases {s t : State} (h : exec .encode s = .next t) :
    (s.codesValid = false ∧ t = rejected 0x04 0 s) ∨
    (∃ e, s.codesValid = true ∧ sourceDestError s = some e ∧ t = rejected e.code.toByte e.info s) ∨
    (s.codesValid = true ∧ sourceDestError s = none ∧
      ((∃ e, encodeLoop s 0 0 s.pk (sourceBytes s) = .error e ∧ abortedEncode e.code.toByte e.info s t) ∨
        ∃ out pk, encodeLoop s 0 0 s.pk (sourceBytes s) = .ok (out, pk) ∧
          t = complete { storeResult out s with pk := pk })) := by
  simp only [exec, execEncode, encodeBody, Host.Outcome.next.injEq] at h
  subst h
  cases hv : s.codesValid with
  | false => exact .inl ⟨rfl, rfl⟩
  | true =>
    simp only [Bool.not_true, Bool.false_eq_true, if_false]
    cases he : sourceDestError s with
    | some e =>
      refine .inr (.inl ⟨e, trivial, rfl, ?_⟩)
      have hc := sourceDestError_reject he
      obtain ⟨cls, code, info⟩ := e
      simp only at hc
      subst hc
      exact perform_reject code info s
    | none =>
      refine .inr (.inr ⟨trivial, rfl, ?_⟩)
      cases hl : encodeLoop s 0 0 s.pk (sourceBytes s) with
      | error e =>
        refine .inl ⟨e, rfl, ?_⟩
        have hc := encodeLoop_error hl
        obtain ⟨cls, code, info⟩ := e
        simp only at hc
        subst hc
        exact perform_abortEncode code info s
      | ok r => exact .inr ⟨r.1, r.2, rfl, rfl⟩

/-- FLUSH: one of its two Rejects, no byte, or the padded byte. -/
theorem exec_flush_cases {s t : State} (h : exec .flush s = .next t) :
    (dstRangeOK s = false ∧ t = rejected 0x06 0 s) ∨
    (dstRangeOK s = true ∧ s.pk = [] ∧ t = complete { s with padOut := 0, resultLen := 0 }) ∨
    (dstRangeOK s = true ∧ s.pk ≠ [] ∧ s.dstLen.toNat = 0 ∧ t = rejected 0x09 1 s) ∨
    (dstRangeOK s = true ∧ s.pk ≠ [] ∧ s.dstLen.toNat ≠ 0 ∧
      t = complete { storeResult [bitsToByte (padRight 8 s.pk)] s with
        padOut := BitVec.ofNat 3 (8 - s.pk.length), pk := [] }) := by
  simp only [exec, execFlush, flushBody, Host.Outcome.next.injEq] at h
  subst h
  cases hd : dstRangeOK s with
  | false => exact .inl ⟨rfl, rfl⟩
  | true =>
    simp only [Bool.not_true, Bool.false_eq_true, if_false]
    by_cases hp : s.pk = []
    · exact .inr (.inl ⟨trivial, hp, by simp [hp]⟩)
    · simp only [List.isEmpty_eq_false_iff.mpr hp, Bool.false_eq_true, if_false]
      by_cases hl : s.dstLen.toNat = 0
      · exact .inr (.inr (.inl ⟨trivial, hp, hl, by simp only [hl, if_true]; rfl⟩))
      · exact .inr (.inr (.inr ⟨trivial, hp, hl, by simp only [hl, if_false]; rfl⟩))

/-- DECODE: a Reject, an Abort, or the symbols and the node of the bit loop. -/
theorem exec_decode_cases {last : Bool} {s t : State} (h : exec (.decode last) s = .next t) :
    (s.treeValid = false ∧ t = rejected 0x03 0 s) ∨
    (∃ e, s.treeValid = true ∧ sourceDestError s = some e ∧ t = rejected e.code.toByte e.info s) ∨
    (s.treeValid = true ∧ sourceDestError s = none ∧ badPad last s = true ∧
      t = rejected 0x08 (BitVec.ofNat 32 s.padIn.toNat) s) ∨
    (s.treeValid = true ∧ sourceDestError s = none ∧ badPad last s = false ∧
      ((∃ e, abortedDecode e.code.toByte e.info s t ∧
          (decodeLoop s 0 0 s.decNode (sourceBits s (8 * s.srcLen.toNat - padCount last s)) = .error e ∨
            e = abortDecode .incompleteCode (8 * s.srcLen.toNat - padCount last s))) ∨
        ∃ out n, decodeLoop s 0 0 s.decNode (sourceBits s (8 * s.srcLen.toNat - padCount last s)) =
            .ok (out, n) ∧ (last = true → n = s.root) ∧
          t = complete { storeResult out s with decNode := n })) := by
  simp only [exec, execDecode, decodeBody, Host.Outcome.next.injEq] at h
  subst h
  cases hv : s.treeValid with
  | false => exact .inl ⟨rfl, rfl⟩
  | true =>
    simp only [Bool.not_true, Bool.false_eq_true, if_false]
    cases he : sourceDestError s with
    | some e =>
      refine .inr (.inl ⟨e, trivial, rfl, ?_⟩)
      have hc := sourceDestError_reject he
      obtain ⟨cls, code, info⟩ := e
      simp only at hc
      subst hc
      exact perform_reject code info s
    | none =>
      cases hb : badPad last s with
      | true => exact .inr (.inr (.inl ⟨trivial, rfl, rfl, rfl⟩))
      | false =>
        refine .inr (.inr (.inr ⟨trivial, rfl, rfl, ?_⟩))
        simp only [Bool.false_eq_true, if_false]
        cases hl : decodeLoop s 0 0 s.decNode (sourceBits s (8 * s.srcLen.toNat - padCount last s)) with
        | error e =>
          refine .inl ⟨e, ?_, .inl rfl⟩
          have hc := decodeLoop_error hl
          obtain ⟨cls, code, info⟩ := e
          simp only at hc
          subst hc
          exact perform_abortDecode code info s
        | ok r =>
          obtain ⟨out, n⟩ := r
          by_cases hn : (last && n != s.root) = true
          · exact .inl ⟨abortDecode .incompleteCode (8 * s.srcLen.toNat - padCount last s),
              by simp only [hn, if_true]; exact perform_abortDecode _ _ s, .inr rfl⟩
          · exact .inr ⟨out, n, rfl, by rintro rfl; simpa using hn, by simp only [hn]; rfl⟩

/-! ## Decoding -/

theorem decodeWord_ok_reservedZero (w : Word) (i : Instr) (h : decodeWord w = .ok i) : reservedZero w = true := by
  unfold decodeWord at h
  split at h
  · assumption
  · cases h

/-! ## One step -/

/-- Everything a step that answers a next state can be (20_memory.md R73). -/
theorem step_cases {s t : State} (h : step s = .next t) :
    (∃ a rest, s.agenda = .access a :: rest ∧ a.legal = true ∧ t = performAccess a (beginEvent rest s)) ∨
    (∃ rest, s.agenda = .reset :: rest ∧ t = resetBlock (beginEvent rest s)) ∨
    ∃ rest, (s.agenda = .engine :: rest ∨ (s.agenda = [] ∧ rest = [])) ∧
      ((s.pending = none ∧ t = beginEvent rest s) ∨
        (∃ w, s.pending = some w ∧ decodeWord w = .error .badOpcode ∧ t = rejected 0x01 w (beginEvent rest s)) ∨
        ∃ w i, s.pending = some w ∧ decodeWord w = .ok i ∧ exec i (beginEvent rest s) = .next t) := by
  have engine : ∀ rest, engineStep (beginEvent rest s) = .next t →
      (s.pending = none ∧ t = beginEvent rest s) ∨
        (∃ w, s.pending = some w ∧ decodeWord w = .error .badOpcode ∧ t = rejected 0x01 w (beginEvent rest s)) ∨
        ∃ w i, s.pending = some w ∧ decodeWord w = .ok i ∧ exec i (beginEvent rest s) = .next t := by
    intro rest he
    unfold engineStep at he
    split at he
    · next hp => cases he; exact .inl ⟨hp, rfl⟩
    · next w hp =>
      split at he
      · next i hi => exact .inr (.inr ⟨w, i, hp, hi, he⟩)
      · next hi => cases he; exact .inr (.inl ⟨w, hp, hi, rfl⟩)
  unfold step nextEvent at h
  cases ha : s.agenda with
  | nil => rw [ha] at h; exact .inr (.inr ⟨[], .inr ⟨rfl, rfl⟩, engine [] h⟩)
  | cons e rest =>
    rw [ha] at h
    cases e with
    | access a =>
      simp only [eventStep, hostStep] at h
      split at h
      · next hl => cases h; exact .inl ⟨a, rest, rfl, hl, rfl⟩
      · cases h
    | engine => exact .inr (.inr ⟨rest, .inl rfl, engine rest h⟩)
    | reset => cases h; exact .inr (.inl ⟨rest, rfl, rfl⟩)

/-! ## Host reads -/

/-- At an aligned offset a host read returns the value of the place, and nothing else. -/
theorem readsAs_iff {s : State} {off : HostOff} {v : Word} (aligned : off.toNat % 4 = 0) :
    readsAs s off v ↔ read32At s (placeOf off) = v := by
  simp only [readsAs, hostStep, Access.legal, aligned, performAccess, returnValue, beq_self_eq_true, if_true,
    Host.Outcome.next.injEq]
  constructor
  · intro h
    have hr := congrArg State.returned h
    simpa using hr
  · rintro rfl; rfl

/-- In the LMEM window an 8-bit host read returns the value of the place, and nothing else. -/
theorem readsByteAs_iff {s : State} {off : HostOff} {v : Byte} (window : 0x10000 ≤ off.toNat) :
    readsByteAs s off v ↔ read8At s (placeOf off) = v := by
  simp only [readsByteAs, hostStep, Access.legal, window, performAccess, returnValue, decide_true, if_true,
    Host.Outcome.next.injEq]
  constructor
  · intro h
    have hr := congrArg State.returned h
    simpa using hr
  · rintro rfl; rfl

/-- While BUSY = 0 a byte lane of LMEM below LMEM_SIZE reads as `lmemLane` says. -/
theorem readLmem_eq_lmemLane {s : State} {k a : Nat} (idle : s.pending = none) (inside : a < s.lmemSize.bytes) :
    readLmem s k a = lmemLane s k a := by
  have h : ¬ s.lmemSize.bytes ≤ a := by omega
  simp only [readLmem, h, busy, idle, Option.isSome_none, memRead, lmemLane, if_false, Bool.false_eq_true]
  cases Memory.get s.lmem a <;> rfl

/-! ## The end of a run -/

/-- A run that has ended at its first state ends there. -/
theorem RunEndsAt.here {s : State} (h : RunEnded s) : RunEndsAt s s :=
  ⟨h, 0, rfl, fun m hm => absurd hm (Nat.not_lt_zero m)⟩

/-- A run that has not ended ends where the run from its next state does. -/
theorem RunEndsAt.next {s u t : State} (h : ¬ RunEnded s) (hs : step s = .next u) (hu : RunEndsAt u t) :
    RunEndsAt s t := by
  obtain ⟨ht, n, hn, before⟩ := hu
  have run_succ : ∀ k, core.run (k + 1) s = core.run k u := fun k => by
    have hc : core.step s = .next u := hs
    simp only [Host.Core.run, hc]
  refine ⟨ht, n + 1, (run_succ n).trans hn, ?_⟩
  intro m hm v hv
  cases m with
  | zero => cases hv; exact h
  | succ m => exact before m (Nat.lt_of_succ_lt_succ hm) v ((run_succ m).symm.trans hv)

/-- A run has one end state. -/
theorem RunEndsAt.unique {s t u : State} (ht : RunEndsAt s t) (hu : RunEndsAt s u) : t = u := by
  obtain ⟨et, n, hn, bn⟩ := ht
  obtain ⟨eu, m, hm, bm⟩ := hu
  rcases Nat.lt_trichotomy n m with h | h | h
  · exact absurd et (bm n h t hn)
  · subst h
    rw [hn] at hm
    cases hm
    rfl
  · exact absurd eu (bn m h u hm)

end Sys2Proof.Machine
end

