-- ==== Sys2Proof/Tests/Slice0.lean ====
section
/-! SUPPORT. Tests, their expected results taken from spec/95_test_vectors.md (a vector's name is given with each), and for
every obligation with hypotheses a concrete state and operands that meet them. -/

namespace Sys2Proof.Tests

set_option Elab.async false

open Sys2Proof Sys2Proof.Machine

/-! ## Decoding: words written out from the fields of 30_encoding.md R90 and R91 -/

theorem test_decode_nop : decodeWord 0b0000_0000_0000_0000_0000_0000_0000_0000#32 = .ok .nop := by decide
theorem test_decode_clear : decodeWord 0b0000_0000_0000_0000_0000_0000_0000_0001#32 = .ok .clear := by decide
theorem test_decode_build : decodeWord 0b0000_0000_0000_0000_0000_0000_0000_0010#32 = .ok .build := by decide
theorem test_decode_gencodes : decodeWord 0b0000_0000_0000_0000_0000_0000_0000_0011#32 = .ok .gencodes := by decide
theorem test_decode_serialize : decodeWord 0b0000_0000_0000_0000_0000_0000_0000_0100#32 = .ok .serialize := by decide
theorem test_decode_deserialize : decodeWord 0b0000_0000_0000_0000_0000_0000_0000_0101#32 = .ok .deserialize := by decide
theorem test_decode_encode : decodeWord 0b0000_0000_0000_0000_0000_0000_0000_0110#32 = .ok .encode := by decide
theorem test_decode_flush : decodeWord 0b0000_0000_0000_0000_0000_0000_0000_0111#32 = .ok .flush := by decide
theorem test_decode_decode : decodeWord 0b0000_0000_0000_0000_0000_0000_0000_1000#32 = .ok (.decode false) := by decide
theorem test_decode_decode_last : decodeWord 0b0000_0000_0000_0000_0000_0001_0000_1000#32 = .ok (.decode true) := by
  decide

/-- V-O1: the illegal words. -/
theorem test_decode_refuses :
    decodeWord 0x00000009 = .error .badOpcode ∧ decodeWord 0x0000000F = .error .badOpcode ∧
      decodeWord 0x00000102 = .error .badOpcode ∧ decodeWord 0x00000109 = .error .badOpcode ∧
      decodeWord 0x000001FF = .error .badOpcode ∧ decodeWord 0x00000010 = .error .badOpcode ∧
      decodeWord 0x80000000 = .error .badOpcode := by decide +kernel

/-- WellFormed refuses an ill-formed word for each check of R90 and R91: a reserved OP, LAST without DECODE, bits 7:4, bits
31:9. -/
theorem test_wellFormed_refuses_reserved_op : wordWellFormed 0x00000009 = false := by decide
theorem test_wellFormed_refuses_stray_last : wordWellFormed 0x00000102 = false := by decide
theorem test_wellFormed_refuses_low_reserved : wordWellFormed 0x00000010 = false ∧ wordWellFormed 0x00000080 = false := by
  decide
theorem test_wellFormed_refuses_high_reserved : wordWellFormed 0x00000200 = false ∧ wordWellFormed 0x80000000 = false := by
  decide
theorem test_wellFormed_accepts : wordWellFormed 0x00000007 = true ∧ wordWellFormed 0x00000108 = true := by decide

/-- R63: accesses of the wrong alignment, and byte accesses outside the LMEM window. -/
theorem test_access_legality :
    (Access.read32 0x10002).legal = false ∧ (Access.write32 0x00005 0).legal = false ∧
      (Access.read8 0x0FFFF).legal = false ∧ (Access.write8 0x00008 0).legal = false ∧
      (Access.read8 0x10001).legal = true ∧ (Access.write32 0x0000C 0).legal = true := by decide

/-! ## States -/

/-- The state an outcome answers, the given one where it answers none. -/
def nextOr (s : State) : Host.Outcome State Fault Refusal → State
  | .next t => t
  | .fault _ => s
  | .refused _ => s

/-- The outcome is a next state. -/
def isNext : Host.Outcome State Fault Refusal → Bool
  | .next _ => true
  | .fault _ => false
  | .refused _ => false

/-- The state after a command. -/
def after (i : Instr) (s : State) : State := nextOr s (exec i s)

theorem eq_nextOr {o : Host.Outcome State Fault Refusal} (s : State) (h : isNext o = true) : o = .next (nextOr s o) := by
  cases o <;> simp_all [isNext, nextOr]

theorem succeeds_of {i : Instr} {s : State} (h : isNext (exec i (acknowledgeError s)) = true)
    (he : (after i (acknowledgeError s)).err = false) : succeeds i s := ⟨_, eq_nextOr _ h, he⟩

theorem exec_after {i : Instr} {s : State} (h : isNext (exec i s) = true) : exec i s = .next (after i s) := eq_nextOr s h

/-- The counts of an input, as the FREQ array: 0 but for the symbols given. -/
def countsOf (l : List (Byte × Word)) : Vector (Contents Word) 256 :=
  l.foldl (fun t e => t.set e.1.toNat (.written e.2) e.1.isLt) (Vector.replicate 256 (.written 0))

/-- A code table: no code but for the symbols given. -/
def codesOf (l : List (Byte × Bits)) : Vector (Contents Bits) 256 :=
  l.foldl (fun t e => t.set e.1.toNat (.written e.2) e.1.isLt) (Vector.replicate 256 (.written []))

/-- Clean entry (R258). -/
def clean : State :=
  { State.reset with freq := countsOf [], code := codesOf [], cmdLast := 1, done := true }

/-- The counts of Tree A. -/
def freqA : List (Byte × Word) := [(0x61, 5), (0x62, 2), (0x63, 1), (0x64, 1), (0x72, 2)]

/-- Clean entry with Tree A's counts. -/
def countedA : State := { clean with freq := countsOf freqA }

/-- The nodes of V-B1. -/
def nodesA : List Node :=
  [.leaf 5 0x61, .leaf 2 0x62, .leaf 1 0x63, .leaf 1 0x64, .leaf 2 0x72, .internal 2 2 3, .internal 4 1 4,
    .internal 6 5 6, .internal 11 0 7]

/-- The codes of V-G1. -/
def codeA : List (Byte × Bits) :=
  [(0x61, [false]), (0x62, [true, true, false]), (0x63, [true, false, false]), (0x64, [true, false, true]),
    (0x72, [true, true, true])]

/-- Tree A, as V-B1 gives it. -/
def treeA : State :=
  { countedA with
    node := nodesA, numSyms := 5, nodeCount := 9, root := 8, decNode := 8, treeValid := true }

/-- Codes A, as V-G1 gives them. -/
def codesA : State := { treeA with code := codesOf codeA, codesValid := true }

/-- Bytes listed in LMEM from an address on. -/
def bytesAt (a : Nat) (bytes : List Byte) : Memory := bytes.zipIdx.map (fun p => (a + p.2, p.1))

/-- The bytes of "abracadabra". -/
def abracadabra : List Byte := [0x61, 0x62, 0x72, 0x61, 0x63, 0x61, 0x64, 0x61, 0x62, 0x72, 0x61]

/-- V-E1's operands, on Codes A. -/
def encodeA : State :=
  { codesA with lmem := bytesAt 0 abracadabra, srcLen := 11, dstAddr := 0x30C, dstLen := 0x40 }

/-- The stream of V-E1 as source of DECODE, on Tree A. -/
def decodeA : State :=
  { treeA with
    lmem := bytesAt 0x100 [0x6E, 0x8A, 0xDC], srcAddr := 0x100, srcLen := 3, dstAddr := 0x200, dstLen := 0x40,
    padIn := 1 }

/-- A source at LMEM 0 for DESERIALIZE, after CLEAR. -/
def sourceOnly (bytes : List Byte) : State :=
  { clean with lmem := bytesAt 0 bytes, srcLen := BitVec.ofNat 32 bytes.length }

/-- LMEM at some addresses. -/
def lmemAt (s : State) (a n : Nat) : List (Option Byte) := (List.range n).map (fun i => Memory.get s.lmem (a + i))

/-! ## One step of each command -/

/-- V-N1. -/
theorem test_nop_keeps_status :
    let t := after .nop { codesA with resultLen := 1, padOut := 1, done := false, pending := some 0 }
    readReg t .status = 0x32 ∧ t.resultLen = 1 ∧ t.padOut = 1 ∧ t.root = 8 := by decide +kernel

/-- V-C1, V-C2. -/
theorem test_clear_fresh_state :
    let t := after .clear { codesA with pk := [true, true, false, true, true, true, false], dstAddr := 0x30E, dstLen := 1 }
    readReg t .status = 0x02 ∧ readReg t .packState = 0 ∧ readReg t .treeBits = 0 ∧ t.root = 0 ∧ t.dstAddr = 0x30E ∧
      codeLenWord t 0x62 = 0 ∧ readFreq t 0 0x61 = 0 := by decide +kernel

/-- V-B1. -/
theorem test_build_tree_a :
    let t := after .build countedA
    t.node = nodesA ∧ t.root = 8 ∧ t.numSyms = 5 ∧ t.nodeCount = 9 ∧ t.decNode = 8 ∧ readReg t .treeBits = 49 ∧
      readReg t .status = 0x12 := by decide +kernel

/-- V-B10. -/
theorem test_build_empty_table :
    let t := after .build { codesA with freq := countsOf [] }
    t.errCode = 0x02 ∧ t.errInfo = 0 ∧ readReg t .status = 0x36 ∧ t.root = 8 ∧ t.nodeCount = 9 ∧
      codeLenWord t 0x62 = 3 := by decide +kernel

/-- V-G1. -/
theorem test_gencodes_codes_a :
    let t := after .gencodes treeA
    (codeA.all (fun e => readCode t e.1 == e.2)) = true ∧ readCode t 0x65 = [] ∧ readReg t .status = 0x32 ∧
      codeBitsWord t 0x62 0 = 0xC0000000 := by decide +kernel

/-- V-G8. -/
theorem test_gencodes_no_tree :
    let t := after .gencodes clean
    t.errCode = 0x03 ∧ t.errInfo = 0 ∧ readReg t .status = 0x06 := by decide +kernel

/-- V-S8: the last 7 bytes of LMEM, with the bytes of V-S1. -/
theorem test_serialize_tree_a :
    let t := after .serialize { treeA with dstAddr := 0xFFF9, dstLen := 7 }
    lmemAt t 0xFFF9 7 = [some 0x58, some 0x4B, some 0x1D, some 0x91, some 0x62, some 0xB9, some 0x00] ∧
      t.resultLen = 7 := by decide +kernel

/-- V-S8. -/
theorem test_serialize_no_room :
    let t := after .serialize { treeA with dstAddr := 0x304, dstLen := 6 }
    t.errCode = 0x09 ∧ t.errInfo = 7 ∧ t.lmem = [] := by decide +kernel

/-- V-D1. -/
theorem test_deserialize_tree_a' :
    let t := after .deserialize (sourceOnly [0x58, 0x4B, 0x1D, 0x91, 0x62, 0xB9, 0x00])
    t.node =
        [.internal 0 1 2, .leaf 0 0x61, .internal 0 3 6, .internal 0 4 5, .leaf 0 0x63, .leaf 0 0x64, .internal 0 7 8,
          .leaf 0 0x62, .leaf 0 0x72] ∧
      t.numSyms = 5 ∧ t.nodeCount = 9 ∧ t.root = 0 ∧ t.resultLen = 7 ∧ readReg t .status = 0x12 := by decide +kernel

/-- V-D5. -/
theorem test_deserialize_dup_symbol :
    let t := after .deserialize (sourceOnly [0x58, 0x6C, 0x20])
    t.errCode = 0x0C ∧ t.errInfo = 10 ∧ t.treeValid = false ∧ t.nodeCount = 0 := by decide +kernel

/-- V-E1. -/
theorem test_encode_abracadabra :
    let t := after .encode encodeA
    lmemAt t 0x30C 3 = [some 0x6E, some 0x8A, none] ∧ t.resultLen = 2 ∧ readReg t .packState = 0x0000DC07 := by
  decide +kernel

/-- V-E3. -/
theorem test_encode_overflow :
    let t := after .encode { encodeA with dstLen := 1 }
    t.errCode = 0x09 ∧ t.errInfo = 7 ∧ readReg t .packState = 0 ∧ t.resultLen = 0 ∧
      Memory.get t.lmem 0x30C = none := by decide +kernel

/-- V-F1. -/
theorem test_flush_pads :
    let t := after .flush
      { codesA with pk := [true, true, false, true, true, true, false], dstAddr := 0x30E, dstLen := 1 }
    Memory.get t.lmem 0x30E = some 0xDC ∧ t.padOut = 1 ∧ t.resultLen = 1 ∧ readReg t .packState = 0 := by decide +kernel

/-- V-F3. -/
theorem test_flush_no_room :
    let t := after .flush
      { codesA with pk := [true, true, false, true, true, true, false], dstAddr := 0x30E, dstLen := 0 }
    t.errCode = 0x09 ∧ t.errInfo = 1 ∧ readReg t .packState = 0x0000DC07 := by decide +kernel

/-- V-X1, on Tree A. -/
theorem test_decode_last_abracadabra :
    let t := after (.decode true) decodeA
    lmemAt t 0x200 11 = abracadabra.map some ∧ t.resultLen = 11 ∧ t.decNode = 8 ∧ t.err = false := by decide +kernel

/-- V-X8, as in P4, with Codes A: a chunk that ends inside a codeword. -/
theorem test_decode_chunk :
    let t := after (.decode false)
      { codesA with lmem := bytesAt 0x100 [0xCF], srcAddr := 0x100, srcLen := 1, dstAddr := 0x200, dstLen := 0x10 }
    lmemAt t 0x200 4 = [some 0x62, some 0x61, some 0x72, none] ∧ t.decNode = 7 ∧ readReg t .status = 0x72 := by
  decide +kernel

/-! ## The host and the engine -/

/-- The state after a host access. -/
def afterAccess (a : Access) (s : State) : State := nextOr s (hostStep a s)

/-- V-O1: a BAD_OPCODE word. -/
theorem test_bad_opcode :
    let t := nextOr clean (engineStep { clean with pending := some 0x109, cmdLast := 0x109 })
    t.errCode = 0x01 ∧ t.errInfo = 0x109 ∧ t.cmdLast = 0x109 ∧ t.err = true ∧ t.done = true := by decide +kernel

/-- V-M1: a big-endian word and one of its bytes. -/
theorem test_lmem_word :
    let t := afterAccess (.write32 0x10300 0x00000007) clean
    lmemAt t 0x300 4 = [some 0, some 0, some 0, some 7] ∧
      (afterAccess (.read8 0x10303) t).returned = [.byte 7] ∧
      (afterAccess (.read32 0x10300) t).returned = [.word 7] := by decide +kernel

/-- P1, line 20: one byte to LMEM 0x30B. -/
theorem test_lmem_byte :
    let t := afterAccess (.write8 0x1030B 0x01) clean
    lmemAt t 0x30A 3 = [none, some 1, none] ∧ (afterAccess (.read8 0x1030B) t).returned = [.byte 1] := by decide +kernel

/-- V-M2: with LMEM_SIZE = 0x8000 the offset 0x8000 of LMEM reads 0 and ignores writes. -/
theorem test_beyond_lmem :
    let s := { clean with lmemSize := ⟨0x1FFF⟩ }
    (afterAccess (.read8 0x18000) s).returned = [.byte 0] ∧ (afterAccess (.write8 0x18000 1) s).lmem = [] ∧
      (afterAccess (.write8 0x18000 1) s).busyViol = false ∧
      (afterAccess (.read32 0x00050) s).returned = [.word 0] := by decide +kernel

/-- V-M3: a write dropped while BUSY = 1. -/
theorem test_busy_violation :
    let t := afterAccess (.write32 0x0001C 5) { clean with pending := some 0 }
    t.srcLen = 0 ∧ t.busyViol = true ∧ (afterAccess (.write32 0x00008 8) t).busyViol = false := by decide +kernel

/-- V-I2: masking does not clear; a STATUS write does. -/
theorem test_error_interrupt :
    let s := { clean with errIE := true, err := true, errCode := 1, errInfo := 9 }
    irq s = true ∧ irq (afterAccess (.write32 0x00004 0) s) = false ∧
      (afterAccess (.write32 0x00004 0) s).err = true ∧ (afterAccess (.write32 0x00008 4) s).errCode = 0 := by
  decide +kernel

/-- V-R2: reset discards a pending command. -/
theorem test_reset_discards :
    (resetBlock (afterAccess (.write32 0x0000C 1) clean)).pending = none ∧
      (resetBlock (afterAccess (.write32 0x0000C 1) clean)).done = false := by decide +kernel

/-! ## States for the witnesses: the trees of V-B5 ("abcc") and V-B2 (a lone leaf) -/

/-- The tree of V-B5: c = 0, a = 10, b = 11 (V-G5). -/
def treeC : Tree := .internal 4 (.leaf 2 0x63) (.internal 3 (.leaf 0 0x61) (.leaf 1 0x62))

/-- Clean entry with V-B5's counts. -/
def countedC : State := { clean with freq := countsOf [(0x61, 1), (0x62, 1), (0x63, 2)] }

/-- The state after BUILD and GENCODES of "abcc". -/
def codesC : State :=
  { countedC with
    node := [.leaf 1 0x61, .leaf 1 0x62, .leaf 2 0x63, .internal 2 0 1, .internal 4 2 3], numSyms := 3, nodeCount := 5,
    root := 4, decNode := 4, treeValid := true, codesValid := true, code := codeTable treeC }

/-- The state after BUILD and GENCODES of "aaaa" (V-B2, V-G2). -/
def codesLone : State :=
  { clean with
    node := [.leaf 4 0x61], numSyms := 1, nodeCount := 1, treeValid := true, codesValid := true,
    code := codeTable (.leaf 0 0x61) }

/-- The source "abcc" at LMEM 0 and a destination. -/
def encodeC : State :=
  { codesC with lmem := bytesAt 0 [0x61, 0x62, 0x63, 0x63], srcLen := 4, dstAddr := 0x100, dstLen := 8 }

/-- Two source bytes at LMEM 0 and a destination of `n` bytes, for DECODE on the tree of "abcc". -/
def decodeC (v : Byte) (n : Word) : State :=
  { codesC with lmem := bytesAt 0 [v], srcLen := 1, dstAddr := 0x100, dstLen := n }

/-- The sums of R28, as a check. -/
def sumsCheck (s : State) : Bool :=
  s.node.all (fun n =>
    match n with
    | .leaf _ _ => true
    | .internal f l r => f == nodeFreq s l + nodeFreq s r)

theorem sums_of_check {s : State} (h : sumsCheck s = true) :
    ∀ x f l r, nodeAt s x = some (.internal f l r) → f = nodeFreq s l + nodeFreq s r := by
  intro x f l r hx
  unfold nodeAt at hx
  split at hx
  · have := List.all_eq_true.mp h _ (List.mem_of_getElem? hx)
    simpa using this
  · cases hx

/-- The parts of TreeInv that are plain checks. -/
def treeCheck (s : State) (t : Tree) : Bool :=
  treeOf s == some t && decide (1 ≤ s.numSyms.toNat) && decide (s.numSyms.toNat ≤ 256) &&
    decide (s.numSyms.toNat = t.symbols.length) && decide (s.nodeCount.toNat = 2 * s.numSyms.toNat - 1) &&
    decide ((t.handles.map BitVec.toNat).Perm (List.range s.nodeCount.toNat)) && decide t.symbols.Nodup &&
    decide (s.decNode = s.root ∨ s.decNode ∈ t.internalHandles) && sumsCheck s

theorem treeInv_of_check {s : State} {t : Tree} (h : treeCheck s t = true) : TreeInv s t := by
  simp only [treeCheck, Bool.and_eq_true, decide_eq_true_eq, beq_iff_eq] at h
  obtain ⟨⟨⟨⟨⟨⟨⟨⟨h1, h2⟩, h3⟩, h4⟩, h5⟩, h6⟩, h7⟩, h8⟩, h9⟩ := h
  exact ⟨h1, h2, h3, h4, h5, h6, h7, h8, sums_of_check h9⟩

/-- The parts of Inv that are plain checks, for a state with a tree. -/
def restCheck (s : State) : Bool :=
  s.treeValid && decide (s.pk.length ≤ 7) && s.codesValid && decide (s.padOut.toNat ≤ 7) && !s.err &&
    decide (s.errCode = 0) && Memory.wf s.lmem && s.lmem.all (fun c => decide (c.1 < s.lmemSize.bytes)) &&
    decide (s.node.length ≤ Config.maxNodes)

theorem inv_of_checks {s : State} {t : Tree} (ht : treeCheck s t = true) (hr : restCheck s = true)
    (hc : s.code = codeTable t) : Inv s := by
  have inv := treeInv_of_check ht
  simp only [restCheck, Bool.and_eq_true, decide_eq_true_eq, Bool.not_eq_true'] at hr
  obtain ⟨⟨⟨⟨⟨⟨⟨⟨h1, h2⟩, h3⟩, h4⟩, h5⟩, h6⟩, h7⟩, h8⟩, h9⟩ := hr
  refine ⟨fun _ => ⟨h1, t, inv.reads, hc⟩, fun _ => ⟨t, inv⟩, ?_, ⟨h2, fun _ => h3⟩, h4, ?_, ⟨h7, ?_⟩, h9⟩
  · simp [h1]
  · simp [h5, h6]
  · intro c hm
    simpa using List.all_eq_true.mp h8 c hm

/-- Inv of a state that differs from one with Inv in fields Inv does not speak of, or restores: shown by the checks again. -/
theorem inv_encodeC : Inv encodeC := inv_of_checks (t := treeC) (by decide +kernel) (by decide +kernel) rfl

theorem inv_codesC : Inv codesC := inv_of_checks (t := treeC) (by decide +kernel) (by decide +kernel) rfl

theorem inv_codesLone : Inv codesLone := inv_of_checks (t := .leaf 0 0x61) (by decide +kernel) (by decide +kernel) rfl

theorem internal_root_codesC : internalAt codesC codesC.root := ⟨4, 2, 3, by decide +kernel⟩

/-! ## Witnesses: commands and steps -/

theorem witness_DecodeAndEncodeAreInverse : Instr.wellFormed (.decode true) = true ∧ decodeWord 0x108 = .ok (.decode true) := by
  decide

/-- A witness for each disjunct, at the bounds of its field. -/
theorem witness_IllegalWordEndsInBadOpcode :
    (∃ s : State, s.pending = some 0x00000009 ∧ 8 < ((0x00000009 : Word).extractLsb' 0 4).toNat) ∧
      (∃ s : State, s.pending = some 0x00000010 ∧ (0x00000010 : Word).extractLsb' 4 4 ≠ 0) ∧
      (∃ s : State, s.pending = some 0x80000000 ∧ (0x80000000 : Word).extractLsb' 9 23 ≠ 0) ∧
      (∃ s : State, s.pending = some 0x00000200 ∧ (0x00000200 : Word).extractLsb' 9 23 ≠ 0) ∧
      ∃ s : State, s.pending = some 0x00000107 ∧ (0x00000107 : Word).getLsbD 8 = true ∧
        (0x00000107 : Word).extractLsb' 0 4 ≠ 8 :=
  ⟨⟨{ clean with pending := some 0x00000009 }, rfl, by decide⟩,
    ⟨{ clean with pending := some 0x00000010 }, rfl, by decide⟩,
    ⟨{ clean with pending := some 0x80000000 }, rfl, by decide⟩,
    ⟨{ clean with pending := some 0x00000200 }, rfl, by decide⟩,
    ⟨{ clean with pending := some 0x00000107 }, rfl, by decide, by decide⟩⟩

theorem witness_StepPerformsTheDecodedCommand :
    (let s := { clean with pending := some 0x2#32, agenda := [.engine, .reset] };
      s.pending = some 0x2#32 ∧ decodeWord 0x2 = .ok .build ∧ s.agenda = .engine :: [.reset]) ∧
      (let s := { clean with pending := some 0x2#32 };
        s.pending = some 0x2#32 ∧ decodeWord 0x2 = .ok .build ∧ s.agenda = []) ∧
      { clean with agenda := [.access (.read32 0)] }.agenda = .access (.read32 0) :: [] ∧
      { clean with agenda := [.reset] }.agenda = .reset :: [] ∧
      (let s := { clean with agenda := [.engine, .reset] };
        s.pending = none ∧ s.agenda = .engine :: [.reset]) ∧
      clean.pending = none ∧ clean.agenda = [] :=
  ⟨⟨rfl, rfl, rfl⟩, ⟨rfl, rfl, rfl⟩, rfl, rfl, ⟨rfl, rfl⟩, rfl, rfl⟩

/-- ENCODE on its way: a state with the invariants, and the state its step answers. -/
def encodingC : State := { encodeC with pending := some 0x6 }

theorem inv_encodingC : Inv encodingC := inv_of_checks (t := treeC) (by decide +kernel) (by decide +kernel) rfl

theorem witness_EveryStepKeepsTheInvariants : Inv encodingC ∧ ∃ t, step encodingC = .next t :=
  ⟨inv_encodingC, _, eq_nextOr encodingC (by decide +kernel)⟩

theorem witness_NoStepFaultsUnderTheInvariants :
    Inv encodingC ∧ (∃ t, step encodingC = .next t) ∧
      Inv { encodingC with agenda := [.access (.read8 0)] } ∧
      ∃ r, step { encodingC with agenda := [.access (.read8 0)] } = .refused r :=
  ⟨inv_encodingC, ⟨_, eq_nextOr encodingC (by decide +kernel)⟩,
    inv_of_checks (t := treeC) (by decide +kernel) (by decide +kernel) rfl, _, rfl⟩

/-- With nothing more on the agenda, and with a reset still to come. -/
theorem witness_EveryAcceptedCommandCompletes :
    (Inv encodingC ∧ encodingC.pending = some 0x6 ∧ encodingC.agenda = [] ∧ noAccess [] = true) ∧
      (let s := { encodingC with agenda := [.engine, .reset] };
        Inv s ∧ s.pending = some 0x6 ∧ s.agenda = .engine :: [.reset] ∧ noAccess [.reset] = true) :=
  ⟨⟨inv_encodingC, rfl, rfl, rfl⟩, inv_of_checks (t := treeC) (by decide +kernel) (by decide +kernel) rfl, rfl, rfl,
    rfl⟩

/-- R256: the run has ended while a reset is still to come, and not while a command is pending or a line is left. -/
theorem test_run_ended :
    RunEnded { clean with agenda := [.reset] } ∧ ¬ RunEnded { clean with pending := some 0 } ∧
      ¬ RunEnded { clean with agenda := [.access (.read32 0x00008)] } := by
  unfold RunEnded
  decide +kernel

theorem next_encode : exec .encode encodeC = .next (after .encode encodeC) := exec_after (by decide +kernel)

theorem next_serialize : exec .serialize encodeC = .next (after .serialize encodeC) := exec_after (by decide +kernel)

theorem next_gencodes : exec .gencodes codesC = .next (after .gencodes codesC) := exec_after (by decide +kernel)

theorem witness_CompletionRecordsAtMostOneError :
    (∃ t, exec .encode encodeC = .next t) ∧ ∃ t, exec .encode clean = .next t := ⟨⟨_, next_encode⟩, _, rfl⟩

theorem witness_CommandsWriteOnlyTheirOwnFields :
    (∃ t, exec .nop codesC = .next t) ∧ (∃ t, exec .clear codesC = .next t) ∧ (∃ t, exec .build countedC = .next t) ∧
      (∃ t, exec .gencodes codesC = .next t) ∧ (∃ t, exec .serialize encodeC = .next t) ∧
      (∃ t, exec .deserialize (sourceOnly [0xB0, 0x80]) = .next t) ∧ (∃ t, exec .encode encodeC = .next t) ∧
      (∃ t, exec .flush encodeC = .next t) ∧ ∃ t, exec (.decode true) (decodeC 0x00 8) = .next t :=
  ⟨⟨_, rfl⟩, ⟨_, rfl⟩, ⟨_, rfl⟩, ⟨_, next_gencodes⟩, ⟨_, next_serialize⟩, ⟨_, rfl⟩, ⟨_, next_encode⟩, ⟨_, rfl⟩, _, rfl⟩

theorem witness_CommandsStoreOnlyInTheDestination :
    (∃ t, exec .serialize encodeC = .next t) ∧ (∃ t, exec .encode encodeC = .next t) ∧
      (encodeC.pk = [] ∧ ∃ t, exec .flush encodeC = .next t) ∧ (∃ t, exec (.decode false) (decodeC 0x00 8) = .next t) ∧
      ∃ t, exec (.decode true) (decodeC 0x00 0) = .next t :=
  ⟨⟨_, next_serialize⟩, ⟨_, next_encode⟩, ⟨rfl, _, rfl⟩, ⟨_, rfl⟩, _, rfl⟩

theorem witness_EveryStepKeepsLmemInItsBounds :
    Memory.wf encodingC.lmem = true ∧ insideLmem encodingC ∧ ∃ t, step encodingC = .next t :=
  ⟨inv_encodingC.memory.1, inv_encodingC.memory.2, _, eq_nextOr encodingC (by decide +kernel)⟩

/-! ## Witnesses: the tree commands -/

/-- The counts of "abcc" by symbol. -/
def countC (c : Byte) : Word := if c = 0x61 then 1 else if c = 0x62 then 1 else if c = 0x63 then 2 else 0

theorem freqEntry_countedC : ∀ c, freqEntry countedC c = .written (countC c) := by decide +kernel

theorem witness_BuildAndGencodesReject :
    (∀ c, freqEntry clean c = .written 0) ∧ clean.treeValid = false := ⟨by decide +kernel, rfl⟩

/-- The premises of every statement about a BUILD that makes a tree. -/
theorem witness_BuildMakesAFullTreeOfTheSymbolsPresent :
    (∀ c, freqEntry countedC c = .written (countC c)) ∧ ∃ c, countC c ≠ 0 := ⟨freqEntry_countedC, 0x61, by decide⟩

theorem witness_RootFrequencyIsTheSumOfTheCounts :
    (∀ c, freqEntry countedC c = .written (countC c)) ∧ (∃ c, countC c ≠ 0) ∧ ∃ t, exec .build countedC = .next t :=
  ⟨freqEntry_countedC, ⟨0x61, by decide⟩, _, rfl⟩

theorem witness_PopMinTakesTheLeastKey : [(⟨1, 0⟩ : QueueKey)] ≠ [] := by decide

theorem witness_BuildMergesTheTwoLeastNodes :
    (∀ c, freqEntry countedC c = .written (countC c)) ∧ (∃ c, countC c ≠ 0) ∧
      exec .build countedC = .next (after .build countedC) ∧
      nodeAt (after .build countedC) 4 = some (.internal 4 2 3) :=
  ⟨freqEntry_countedC, ⟨0x61, by decide⟩, rfl, by decide +kernel⟩

theorem witness_BuildDependsOnFreqAlone :
    (∀ c, freqEntry countedC c = .written (countC c)) ∧ (∀ c, freqEntry encodeC c = .written (countC c)) ∧
      (∃ c, countC c ≠ 0) ∧ (∃ t, exec .build countedC = .next t) ∧ ∃ t, exec .build encodeC = .next t :=
  ⟨freqEntry_countedC, freqEntry_countedC, ⟨0x61, by decide⟩, ⟨_, rfl⟩, _, rfl⟩

theorem witness_GencodesWritesThePathOfEveryLeaf :
    Inv codesC ∧ codesC.treeValid = true ∧ internalAt codesC codesC.root :=
  ⟨inv_codesC, rfl, internal_root_codesC⟩

theorem witness_LoneLeafGetsTheCodeZero : codesLone.treeValid = true ∧ leafAt codesLone codesLone.root 0x61 :=
  ⟨rfl, 4, by decide +kernel⟩

theorem witness_GeneratedCodesArePrefixFree :
    Inv codesC ∧ codesC.treeValid = true ∧ exec .gencodes codesC = .next (after .gencodes codesC) ∧
      (0x61 : Byte) ≠ 0x63 ∧ codeEntry (after .gencodes codesC) 0x61 = .written [true, false] ∧
      codeEntry (after .gencodes codesC) 0x63 = .written [false] ∧ [true, false] ≠ [] ∧ [false] ≠ [] :=
  ⟨inv_codesC, rfl, next_gencodes, by decide, by decide +kernel, by decide +kernel, by decide, by decide⟩

theorem treeOf_codesC : treeOf codesC = some treeC := by decide +kernel

theorem witness_SerializationHasTenBitsALeafLessOne :
    Inv codesC ∧ codesC.treeValid = true ∧ treeOf codesC = some treeC := ⟨inv_codesC, rfl, treeOf_codesC⟩

/-- The three checks, each at the first value that fails it: DST_RANGE by one byte, DST_OVERFLOW by one byte (V-S6: 4
bytes are needed). -/
theorem witness_SerializeChecksInOrder :
    clean.treeValid = false ∧
      (let s := { codesC with dstAddr := 0xFFFD, dstLen := 4 };
        s.treeValid = true ∧ s.lmemSize.bytes < s.dstAddr.toNat + s.dstLen.toNat) ∧
      (let s := { codesC with dstAddr := 0xFFFD, dstLen := 3 };
        s.treeValid = true ∧ s.dstAddr.toNat + s.dstLen.toNat ≤ s.lmemSize.bytes ∧ treeOf s = some treeC ∧
          s.dstLen.toNat < bytesFor treeC.ser.length) :=
  ⟨rfl, by decide +kernel, by decide +kernel⟩

theorem witness_SerializeWritesThePreorderBits :
    let s := { codesC with dstAddr := 0xFFFC, dstLen := 4 }
    s.treeValid = true ∧ treeOf s = some treeC ∧ s.dstAddr.toNat + s.dstLen.toNat ≤ s.lmemSize.bytes ∧
      bytesFor treeC.ser.length ≤ s.dstLen.toNat := by decide +kernel

/-- V-D8d: 58 6C 40 holds the tree of V-B3 in preorder, and 5 bits more. -/
theorem witness_DeserializeParsesOneSerializedTree :
    let s := sourceOnly [0x58, 0x6C, 0x40]
    let tr : Tree := .internal 0 (.leaf 1 0x61) (.leaf 2 0x62)
    s.srcAddr.toNat + s.srcLen.toNat ≤ s.lmemSize.bytes ∧ tr.symbols.Nodup ∧
      sourceBits s (8 * s.srcLen.toNat) = tr.ser ++ List.replicate 5 false := by decide +kernel

/-- V-D8a. -/
theorem witness_DeserializeReportsATruncatedTree :
    let s := sourceOnly [0xB0]
    let tr : Tree := .leaf 0 0x61
    s.srcAddr.toNat + s.srcLen.toNat ≤ s.lmemSize.bytes ∧ tr.symbols.Nodup ∧ [true] ≠ [] ∧
      sourceBits s (8 * s.srcLen.toNat) ++ [true] = tr.ser := by decide +kernel

/-- V-D10 and its neighbour that fits; then, after an open start of a tree, the source of each Abort: V-D5, V-D6, V-D8b and
V-D8a. -/
theorem witness_DeserializeEndsWithATreeOrNone :
    (let s := { clean with srcAddr := 0xFFFF, srcLen := 2 };
      s.lmemSize.bytes < s.srcAddr.toNat + s.srcLen.toNat) ∧
      (let s := { clean with srcAddr := 0xFFFF, srcLen := 1 };
        s.srcAddr.toNat + s.srcLen.toNat ≤ s.lmemSize.bytes) ∧
      (let s := sourceOnly [0x58, 0x6C, 0x20];
        s.srcAddr.toNat + s.srcLen.toNat ≤ s.lmemSize.bytes ∧ openStart [.internal, .leaf 0x61] ∧
          0x61 ∈ tagSymbols [.internal, .leaf 0x61] ∧
          sourceBits s (8 * s.srcLen.toNat) =
            tagBits [.internal, .leaf 0x61] ++ (Tag.bits (.leaf 0x61) ++ List.replicate 5 false)) ∧
      (let s := sourceOnly (List.replicate 32 0x00);
        s.srcAddr.toNat + s.srcLen.toNat ≤ s.lmemSize.bytes ∧ openStart (List.replicate 255 .internal) ∧
          (List.replicate 255 Tag.internal).count .internal = 255 ∧
          sourceBits s (8 * s.srcLen.toNat) = tagBits (List.replicate 255 .internal) ++ (Tag.bits .internal ++ [])) ∧
      (let s := sourceOnly [0x00];
        s.srcAddr.toNat + s.srcLen.toNat ≤ s.lmemSize.bytes ∧ openStart (List.replicate 8 .internal) ∧
          sourceBits s (8 * s.srcLen.toNat) = tagBits (List.replicate 8 .internal) ++ []) ∧
      (let s := sourceOnly [0xB0];
        s.srcAddr.toNat + s.srcLen.toNat ≤ s.lmemSize.bytes ∧ openStart [] ∧
          (byteToBits 0x60).take 7 = [false, true, true, false, false, false, false] ∧
          sourceBits s (8 * s.srcLen.toNat) = tagBits [] ++ (true :: (byteToBits 0x60).take 7) ∧
          ((byteToBits 0x60).take 7).length < 8) := by
  unfold openStart
  decide +kernel

theorem witness_DeserializeUndoesSerialize :
    Inv encodeC ∧ encodeC.treeValid = true ∧ treeOf encodeC = some treeC ∧
      encodeC.dstAddr.toNat + encodeC.dstLen.toNat ≤ encodeC.lmemSize.bytes ∧
      bytesFor treeC.ser.length ≤ encodeC.dstLen.toNat ∧ ∃ t, exec .serialize encodeC = .next t :=
  ⟨inv_encodeC, rfl, treeOf_codesC, by decide +kernel, by decide +kernel, _, next_serialize⟩

/-! ## Witnesses: the packer -/

/-- V-E9's rows: each check at the first value that fails it. -/
theorem witness_EncodeChecksInOrder :
    clean.codesValid = false ∧
      (let s := { codesC with srcAddr := 0xFFFF, srcLen := 2 };
        s.codesValid = true ∧ s.lmemSize.bytes < s.srcAddr.toNat + s.srcLen.toNat) ∧
      (let s := { codesC with srcAddr := 0x10000, srcLen := 0, dstAddr := 0x10000, dstLen := 1 };
        s.codesValid = true ∧ s.srcAddr.toNat + s.srcLen.toNat ≤ s.lmemSize.bytes ∧
          s.lmemSize.bytes < s.dstAddr.toNat + s.dstLen.toNat) ∧
      (let s := { codesC with srcAddr := 0, srcLen := 11, dstAddr := 10, dstLen := 1 };
        s.codesValid = true ∧ s.srcAddr.toNat + s.srcLen.toNat ≤ s.lmemSize.bytes ∧
          s.dstAddr.toNat + s.dstLen.toNat ≤ s.lmemSize.bytes ∧ rangesOverlap s = true) :=
  ⟨rfl, by decide +kernel, by decide +kernel, by decide +kernel⟩

/-- Two bits pending and the six of "abcc": one byte, which just fits. -/
theorem witness_EncodePacksTheCodesInOrder :
    let s := { encodeC with pk := [true, false], dstLen := 1 }
    s.codesValid = true ∧ s.pk.length ≤ 7 ∧ s.srcAddr.toNat + s.srcLen.toNat ≤ s.lmemSize.bytes ∧
      s.dstAddr.toNat + s.dstLen.toNat ≤ s.lmemSize.bytes ∧ rangesOverlap s = false ∧
      (∀ c ∈ sourceBytes s, readCode s c ≠ []) ∧
      (s.pk ++ (sourceBytes s).flatMap (readCode s)).length / 8 ≤ s.dstLen.toNat := by decide +kernel

/-- "aaz", and "abcc" whose last code completes a byte that has no room. -/
theorem witness_EncodeAbortsAtTheFirstBadSymbol :
    (let s := { encodeC with lmem := bytesAt 0 [0x61, 0x61, 0x7A], srcLen := 3 };
      s.codesValid = true ∧ s.pk.length ≤ 7 ∧ s.srcAddr.toNat + s.srcLen.toNat ≤ s.lmemSize.bytes ∧
        s.dstAddr.toNat + s.dstLen.toNat ≤ s.lmemSize.bytes ∧ rangesOverlap s = false ∧
        sourceBytes s = [0x61, 0x61] ++ 0x7A :: [] ∧ (∀ d ∈ [0x61, 0x61], readCode s d ≠ []) ∧
        (s.pk ++ [0x61, 0x61].flatMap (readCode s)).length / 8 ≤ s.dstLen.toNat ∧ readCode s 0x7A = []) ∧
      (let s := { encodeC with pk := [true, false], dstLen := 0 };
        s.codesValid = true ∧ s.pk.length ≤ 7 ∧ s.srcAddr.toNat + s.srcLen.toNat ≤ s.lmemSize.bytes ∧
          s.dstAddr.toNat + s.dstLen.toNat ≤ s.lmemSize.bytes ∧ rangesOverlap s = false ∧
          sourceBytes s = [0x61, 0x62, 0x63] ++ 0x63 :: [] ∧ (∀ d ∈ [0x61, 0x62, 0x63], readCode s d ≠ []) ∧
          (s.pk ++ [0x61, 0x62, 0x63].flatMap (readCode s)).length / 8 ≤ s.dstLen.toNat ∧ readCode s 0x63 ≠ [] ∧
          s.dstLen.toNat < (s.pk ++ ([0x61, 0x62, 0x63] ++ [0x63]).flatMap (readCode s)).length / 8) := by
  decide +kernel

theorem witness_FlushPadsTheFinalByte :
    (let s := { codesC with dstAddr := 0x10001 };
      s.lmemSize.bytes < s.dstAddr.toNat + s.dstLen.toNat) ∧
      (let s := { codesC with dstAddr := 0x10000 };
        s.dstAddr.toNat + s.dstLen.toNat ≤ s.lmemSize.bytes ∧ s.pk = []) ∧
      (let s := { codesC with dstAddr := 0x10000, pk := [true] };
        s.dstAddr.toNat + s.dstLen.toNat ≤ s.lmemSize.bytes ∧ s.pk ≠ [] ∧ s.dstLen = 0) ∧
      (let s := { codesC with dstAddr := 0xFFFF, dstLen := 1, pk := List.replicate 7 true };
        s.dstAddr.toNat + s.dstLen.toNat ≤ s.lmemSize.bytes ∧ s.pk ≠ [] ∧ s.pk.length ≤ 7 ∧ s.dstLen ≠ 0) := by
  decide +kernel

/-- The state after ENCODE of "abcc", and after FLUSH. -/
def packedC : State := after .encode encodeC
def flushedC : State := after .flush packedC

/-- One chunk, "abcc" with nothing pending before: no byte is complete. -/
theorem packedSoFar_abcc : PackedSoFar (codeTable treeC) ([] ++ sourceBytes encodeC) ([] ++ []) packedC := by
  refine .chunk [] [] encodeC encodeC _ [] (.start _ rfl) rfl rfl next_encode
    (succeeds_of (by decide +kernel) (by decide +kernel)) (by decide +kernel) ?_
  intro i h
  cases h

theorem succeeds_flush : succeeds .flush packedC := succeeds_of (by decide +kernel) (by decide +kernel)

/-- FLUSH writes B0 (the "abcc" row of V-E10's table). -/
theorem holds_B0 : [(0xB0 : Byte)].length = flushedC.resultLen.toNat ∧
    holdsBytes flushedC.lmem flushedC.dstAddr.toNat [0xB0] := by
  unfold holdsBytes
  decide +kernel

theorem witness_ChunkingDoesNotChangeThePackedBytes :
    (∀ c : Byte, ∃ b, (codeTable treeC)[c.toNat]'c.isLt = .written b) ∧
      PackedSoFar (codeTable treeC) ([] ++ sourceBytes encodeC) ([] ++ []) packedC ∧ packedC.pk = packedC.pk ∧
      exec .flush packedC = .next flushedC ∧ succeeds .flush packedC ∧
      [(0xB0 : Byte)].length = flushedC.resultLen.toNat ∧
      holdsBytes flushedC.lmem flushedC.dstAddr.toNat [0xB0] := by
  refine ⟨?_, packedSoFar_abcc, rfl, rfl, succeeds_flush, holds_B0.1, holds_B0.2⟩
  have h : ∀ c : Byte, (codeTable treeC)[c.toNat]'c.isLt ≠ .unspecified := by decide +kernel
  intro c
  have hc := h c
  cases he : (codeTable treeC)[c.toNat]'c.isLt with
  | unspecified => exact absurd he hc
  | written b => exact ⟨b, rfl⟩

/-! ## Witnesses: the decoder -/

theorem witness_DecodeChecksInOrder :
    clean.treeValid = false ∧
      (let s := { codesC with srcAddr := 0xFFFF, srcLen := 2 };
        s.treeValid = true ∧ s.lmemSize.bytes < s.srcAddr.toNat + s.srcLen.toNat) ∧
      (let s := { codesC with srcAddr := 0x10000, srcLen := 0, dstAddr := 0x10000, dstLen := 1 };
        s.treeValid = true ∧ s.srcAddr.toNat + s.srcLen.toNat ≤ s.lmemSize.bytes ∧
          s.lmemSize.bytes < s.dstAddr.toNat + s.dstLen.toNat) ∧
      (let s := { codesC with srcAddr := 0, srcLen := 11, dstAddr := 10, dstLen := 1 };
        s.treeValid = true ∧ s.srcAddr.toNat + s.srcLen.toNat ≤ s.lmemSize.bytes ∧
          s.dstAddr.toNat + s.dstLen.toNat ≤ s.lmemSize.bytes ∧ rangesOverlap s = true) ∧
      (let s := { codesC with srcAddr := 0, srcLen := 1, padIn := 8 };
        s.treeValid = true ∧ s.srcAddr.toNat + s.srcLen.toNat ≤ s.lmemSize.bytes ∧
          s.dstAddr.toNat + s.dstLen.toNat ≤ s.lmemSize.bytes ∧ rangesOverlap s = false ∧ 7 < s.padIn.toNat) ∧
      (let s := { codesC with srcAddr := 0, srcLen := 0, padIn := 1 };
        s.treeValid = true ∧ s.srcAddr.toNat + s.srcLen.toNat ≤ s.lmemSize.bytes ∧
          s.dstAddr.toNat + s.dstLen.toNat ≤ s.lmemSize.bytes ∧ rangesOverlap s = false ∧
          8 * s.srcLen.toNat < s.padIn.toNat) :=
  ⟨rfl, by decide +kernel, by decide +kernel, by decide +kernel, by decide +kernel, by decide +kernel⟩

/-- The checks of DECODE that are plain numbers. -/
def operandCheck (last : Bool) (s : State) : Bool :=
  decide (s.srcAddr.toNat + s.srcLen.toNat ≤ s.lmemSize.bytes) &&
    decide (s.dstAddr.toNat + s.dstLen.toNat ≤ s.lmemSize.bytes) && !rangesOverlap s &&
    (!last || (decide (s.padIn.toNat ≤ 7) && decide (s.padIn.toNat ≤ 8 * s.srcLen.toNat)))

theorem premises_of_checks {last : Bool} {s : State} (inv : Inv s) (hv : s.treeValid = true)
    (h : operandCheck last s = true) : decodePremises last s := by
  simp only [operandCheck, Bool.and_eq_true, decide_eq_true_eq, Bool.not_eq_true', Bool.or_eq_true] at h
  refine ⟨inv, hv, h.1.1.1, h.1.1.2, h.1.2, ?_⟩
  intro hl
  rcases h.2 with h2 | h2
  · simp [hl] at h2
  · exact h2

theorem premises_c_a : decodePremises true (decodeC 0x40 7) :=
  premises_of_checks (inv_of_checks (t := treeC) (by decide +kernel) (by decide +kernel) rfl) rfl (by decide +kernel)

theorem premises_chunk : decodePremises false (decodeC 0x01 8) :=
  premises_of_checks (inv_of_checks (t := treeC) (by decide +kernel) (by decide +kernel) rfl) rfl (by decide +kernel)

theorem premises_last : decodePremises true (decodeC 0x01 8) :=
  premises_of_checks premises_chunk.1 rfl (by decide +kernel)

theorem premises_full : decodePremises true (decodeC 0x01 1) :=
  premises_of_checks (inv_of_checks (t := treeC) (by decide +kernel) (by decide +kernel) rfl) rfl (by decide +kernel)

/-- "c" is a leaf's symbol of the tree of "abcc", with code 0. -/
theorem codeIs_c (v : Byte) (n : Word) : codeIs (decodeC v n) 0x63 [false] :=
  .inr ⟨⟨4, 2, 3, rfl⟩, 2, rfl, 2, rfl⟩

theorem codeIs_a (v : Byte) (n : Word) : codeIs (decodeC v n) 0x61 [true, false] :=
  .inr ⟨⟨4, 2, 3, rfl⟩, 0, rfl, 1, rfl⟩

theorem candidate_root (v : Byte) (n : Word) : candidateAt (decodeC v n) [] 4 := ⟨rfl, .inl rfl⟩

theorem candidate_one (v : Byte) (n : Word) : candidateAt (decodeC v n) [true] 3 := ⟨rfl, .inr ⟨2, 0, 1, rfl⟩⟩

/-- The source 40 is "c", "a", and "c" five times; the source 01, of a chunk that is not the last, "c" seven times and the
candidate "1". -/
theorem witness_DecodeEmitsTheSymbolsOfTheCodewords :
    (decodePremises true (decodeC 0x40 7) ∧ candidateAt (decodeC 0x40 7) [] (decodeC 0x40 7).decNode ∧
        candidateAt (decodeC 0x40 7) [] 4 ∧
        (∀ w ∈ ((0x63, [false]) :: (0x61, [true, false]) :: List.replicate 5 (0x63, [false]) : List (Byte × Bits)),
          codeIs (decodeC 0x40 7) w.1 w.2) ∧
        [] ++ chunkBits true (decodeC 0x40 7) =
          ((0x63, [false]) :: (0x61, [true, false]) :: List.replicate 5 (0x63, [false]) : List (Byte × Bits)).flatMap
            Prod.snd ++ [] ∧
        ((0x63, [false]) :: (0x61, [true, false]) :: List.replicate 5 (0x63, [false]) : List (Byte × Bits)).length ≤
          (decodeC 0x40 7).dstLen.toNat) ∧
      (decodePremises false (decodeC 0x01 8) ∧ candidateAt (decodeC 0x01 8) [] (decodeC 0x01 8).decNode ∧
        candidateAt (decodeC 0x01 8) [true] 3 ∧
        (∀ w ∈ (List.replicate 7 (0x63, [false]) : List (Byte × Bits)), codeIs (decodeC 0x01 8) w.1 w.2) ∧
        [] ++ chunkBits false (decodeC 0x01 8) =
          (List.replicate 7 (0x63, [false]) : List (Byte × Bits)).flatMap Prod.snd ++ [true] ∧
        (List.replicate 7 (0x63, [false]) : List (Byte × Bits)).length ≤ (decodeC 0x01 8).dstLen.toNat) := by
  refine ⟨⟨premises_c_a, candidate_root _ _, candidate_root _ _, ?_, by decide +kernel,
    by decide +kernel⟩, premises_chunk, candidate_root _ _, candidate_one _ _, ?_, by decide +kernel,
    by decide +kernel⟩
  · intro w hw
    simp only [List.mem_cons, List.mem_replicate] at hw
    rcases hw with rfl | rfl | ⟨-, rfl⟩
    · exact codeIs_c _ _
    · exact codeIs_a _ _
    · exact codeIs_c _ _
  · intro w hw
    rw [(List.mem_replicate.mp hw).2]
    exact codeIs_c _ _

/-- The source 33 after the candidate "1", which DEC_NODE = 3 keeps: "a", "c", "b", "c", "c", "b". -/
def decodeMid : State := { decodeC 0x33 6 with decNode := 3 }

/-- Those symbols with their codes. -/
def wordsMid : List (Byte × Bits) :=
  [(0x61, [true, false]), (0x63, [false]), (0x62, [true, true]), (0x63, [false]), (0x63, [false]), (0x62, [true, true])]

theorem premises_mid : decodePremises true decodeMid :=
  premises_of_checks (inv_of_checks (t := treeC) (by decide +kernel) (by decide +kernel) rfl) rfl (by decide +kernel)

theorem candidate_mid : candidateAt decodeMid [true] decodeMid.decNode := ⟨rfl, .inr ⟨2, 0, 1, rfl⟩⟩

/-- A candidate left by the chunk before. -/
theorem witness_DecodeEmitsTheSymbolsOfTheCodewords_after_a_candidate :
    decodePremises true decodeMid ∧ candidateAt decodeMid [true] decodeMid.decNode ∧ candidateAt decodeMid [] 4 ∧
      (∀ w ∈ wordsMid, codeIs decodeMid w.1 w.2) ∧
      [true] ++ chunkBits true decodeMid = wordsMid.flatMap Prod.snd ++ [] ∧
      wordsMid.length ≤ decodeMid.dstLen.toNat := by
  refine ⟨premises_mid, candidate_mid, ⟨rfl, .inl rfl⟩, ?_, by decide +kernel, by decide +kernel⟩
  have ha : codeIs decodeMid 0x61 [true, false] := .inr ⟨⟨4, 2, 3, rfl⟩, 0, rfl, 1, rfl⟩
  have hb : codeIs decodeMid 0x62 [true, true] := .inr ⟨⟨4, 2, 3, rfl⟩, 1, rfl, 1, rfl⟩
  have hc : codeIs decodeMid 0x63 [false] := .inr ⟨⟨4, 2, 3, rfl⟩, 2, rfl, 2, rfl⟩
  intro w hw
  simp only [wordsMid, List.mem_cons, List.not_mem_nil, or_false] at hw
  rcases hw with rfl | rfl | rfl | rfl | rfl | rfl <;> assumption

theorem witness_DecodeReportsAnIncompleteCodeword :
    decodePremises true (decodeC 0x01 8) ∧ candidateAt (decodeC 0x01 8) [] (decodeC 0x01 8).decNode ∧
      candidateAt (decodeC 0x01 8) [true] 3 ∧ [true] ≠ [] ∧
      (∀ w ∈ (List.replicate 7 (0x63, [false]) : List (Byte × Bits)), codeIs (decodeC 0x01 8) w.1 w.2) ∧
      [] ++ chunkBits true (decodeC 0x01 8) =
        (List.replicate 7 (0x63, [false]) : List (Byte × Bits)).flatMap Prod.snd ++ [true] ∧
      (List.replicate 7 (0x63, [false]) : List (Byte × Bits)).length ≤ (decodeC 0x01 8).dstLen.toNat := by
  refine ⟨premises_last, candidate_root _ _, candidate_one _ _, by decide, ?_, by decide +kernel,
    by decide +kernel⟩
  intro w hw
  rw [(List.mem_replicate.mp hw).2]
  exact codeIs_c _ _

theorem witness_DecodeReportsAFullDestination :
    decodePremises true (decodeC 0x01 1) ∧ candidateAt (decodeC 0x01 1) [] (decodeC 0x01 1).decNode ∧
      (∀ x ∈ ([(0x63, [false])] ++ [(0x63, [false])] : List (Byte × Bits)), codeIs (decodeC 0x01 1) x.1 x.2) ∧
      [] ++ chunkBits true (decodeC 0x01 1) =
        ([(0x63, [false])] ++ [(0x63, [false])] : List (Byte × Bits)).flatMap Prod.snd ++
          [false, false, false, false, false, true] ∧
      ([(0x63, [false])] : List (Byte × Bits)).length = (decodeC 0x01 1).dstLen.toNat := by
  refine ⟨premises_full, candidate_root _ _, ?_, by decide +kernel, by decide +kernel⟩
  intro x hx
  simp only [List.cons_append, List.nil_append, List.mem_cons, List.not_mem_nil, or_false, or_self] at hx
  subst hx
  exact codeIs_c _ _

/-- V-X7: SRC = 40 with PAD_IN = 6, and a destination of one byte. -/
def decodeLone : State :=
  { codesLone with lmem := bytesAt 0 [0x40], srcLen := 1, dstAddr := 0x100, dstLen := 1, padIn := 6 }

theorem witness_LoneLeafRejectsAOneBit :
    decodePremises true decodeLone ∧ leafAt decodeLone decodeLone.root 0x61 ∧
      chunkBits true decodeLone = List.replicate 1 false ++ true :: [] ∧ 1 ≤ decodeLone.dstLen.toNat :=
  ⟨⟨inv_of_checks (t := .leaf 0 0x61) (by decide +kernel) (by decide +kernel) rfl, by decide +kernel⟩,
    ⟨4, by decide +kernel⟩, by decide +kernel, by decide +kernel⟩

/-- code→Symbol of "abcc" (V-G5). -/
def lookC (p : Bits) : Option Byte :=
  if p = [false] then some 0x63 else if p = [true, false] then some 0x61 else if p = [true, true] then some 0x62
  else none

/-- The codes of "abcc" by symbol (V-G5). -/
def codeC (c : Byte) : Bits :=
  if c = 0x63 then [false] else if c = 0x61 then [true, false] else if c = 0x62 then [true, true] else []

theorem codeEntry_codesC : ∀ c, codeEntry codesC c = .written (codeC c) := by decide +kernel

/-- `lookC` reads the code table of "abcc" backwards. -/
theorem lookC_iff (p : Bits) (c : Byte) : lookC p = some c ↔ (p ≠ [] ∧ codeEntry codesC c = .written p) := by
  rw [codeEntry_codesC c]
  unfold lookC codeC
  constructor
  · intro h
    split at h
    · next hp => cases h; simp [hp]
    · split at h
      · next hp => cases h; simp [hp]
      · split at h
        · next hp => cases h; simp [hp]
        · cases h
  · rintro ⟨hp, h⟩
    injection h with h
    subst h
    split
    · next hc => simp [hc]
    · split
      · next hc => simp [hc]
      · split
        · next hc => simp [hc]
        · next h1 h2 h3 => exact absurd (by rw [if_neg h1, if_neg h2, if_neg h3]) hp

/-- A chunk that leaves a candidate; a LAST chunk after one; and a lone leaf under 0 bits (V-X7). -/
theorem witness_DescentEqualsTheExactMatchLoop :
    (decodePremises false (decodeC 0x01 8) ∧ (decodeC 0x01 8).codesValid = true ∧
      candidateAt (decodeC 0x01 8) [] (decodeC 0x01 8).decNode ∧
      (∀ c, leafAt (decodeC 0x01 8) (decodeC 0x01 8).root c → true ∉ chunkBits false (decodeC 0x01 8)) ∧
      (∀ p c, lookC p = some c ↔ (p ≠ [] ∧ codeEntry (decodeC 0x01 8) c = .written p)) ∧
      (matchingLoop lookC [] (chunkBits false (decodeC 0x01 8))).1.length ≤ (decodeC 0x01 8).dstLen.toNat) ∧
    (decodePremises true decodeMid ∧ decodeMid.codesValid = true ∧ candidateAt decodeMid [true] decodeMid.decNode ∧
      (∀ c, leafAt decodeMid decodeMid.root c → true ∉ chunkBits true decodeMid) ∧
      (∀ p c, lookC p = some c ↔ (p ≠ [] ∧ codeEntry decodeMid c = .written p)) ∧
      (matchingLoop lookC [true] (chunkBits true decodeMid)).1.length ≤ decodeMid.dstLen.toNat ∧
      (matchingLoop lookC [true] (chunkBits true decodeMid)).2 = []) ∧
    (let s := { decodeLone with lmem := bytesAt 0 [0x00], padIn := 7 };
      let look : Bits → Option Byte := fun p => if p = [false] then some 0x61 else none;
      decodePremises true s ∧ s.codesValid = true ∧ candidateAt s [] s.decNode ∧
      (∀ c, leafAt s s.root c → true ∉ chunkBits true s) ∧
      (∀ p c, look p = some c ↔ (p ≠ [] ∧ codeEntry s c = .written p)) ∧
      (matchingLoop look [] (chunkBits true s)).1.length ≤ s.dstLen.toNat ∧
      (matchingLoop look [] (chunkBits true s)).2 = []) := by
  refine ⟨⟨premises_chunk, rfl, candidate_root _ _, ?_, lookC_iff, by decide +kernel⟩,
    ⟨premises_mid, rfl, candidate_mid, ?_, lookC_iff, by decide +kernel, by decide +kernel⟩, ?_⟩
  · rintro c ⟨f, h⟩
    cases h
  · rintro c ⟨f, h⟩
    cases h
  · intro s look
    refine ⟨premises_of_checks (inv_of_checks (t := .leaf 0 0x61) (by decide +kernel) (by decide +kernel) rfl) rfl
      (by decide +kernel), rfl, ⟨rfl, .inl rfl⟩, fun _ _ => by decide +kernel, ?_, by decide +kernel, by decide +kernel⟩
    have he : ∀ c, codeEntry s c = .written (if c = 0x61 then [false] else []) := by decide +kernel
    intro p c
    rw [he c]
    simp only [look, Contents.written.injEq]
    by_cases hc : c = 0x61
    · subst hc
      by_cases hp : p = [false] <;> simp [hp, eq_comm]
    · rw [if_neg hc]
      constructor
      · intro h
        split at h
        · cases h; exact absurd rfl hc
        · cases h
      · rintro ⟨h1, h2⟩
        exact absurd h2.symm h1

/-- Another state that holds the byte B0 and the tree of "abcc". -/
def receiverC : State := { decodeC 0xB0 4 with padIn := 2 }

/-- ENCODE of "abcc" at LMEM 0 to 0x100, FLUSH behind it, and a destination for DECODE at 0x200; then the same byte in another
state. -/
theorem witness_DecodeOfThePackedStreamIsTheSource :
    (let f := { packedC with dstAddr := packedC.dstAddr + packedC.resultLen, dstLen := 1 };
      let t2 := after .flush f;
      Inv encodeC ∧ encodeC.errCode = 0 ∧ encodeC.pk = [] ∧ encodeC.decNode = encodeC.root ∧
        exec .encode encodeC = .next packedC ∧ packedC.errCode = 0 ∧ exec .flush f = .next t2 ∧ t2.errCode = 0 ∧
        (0x200 : Word).toNat + (4 : Word).toNat ≤ encodeC.lmemSize.bytes ∧
        encodeC.srcLen.toNat ≤ (4 : Word).toNat ∧
        overlap encodeC.dstAddr (packedC.resultLen + t2.resultLen) 0x200 4 = false) ∧
    (PackedSoFar (codeTable treeC) ([] ++ sourceBytes encodeC) ([] ++ []) packedC ∧
      exec .flush packedC = .next flushedC ∧ succeeds .flush packedC ∧
      [(0xB0 : Byte)].length = flushedC.resultLen.toNat ∧ holdsBytes flushedC.lmem flushedC.dstAddr.toNat [0xB0] ∧
      decodePremises true receiverC ∧ treeOf receiverC = some treeC ∧ receiverC.decNode = receiverC.root ∧
      receiverC.padIn = flushedC.padOut.setWidth 8 ∧
      receiverC.srcLen.toNat = (([] ++ []) ++ [(0xB0 : Byte)]).length ∧
      holdsBytes receiverC.lmem receiverC.srcAddr.toNat (([] ++ []) ++ [0xB0]) ∧
      ([] ++ sourceBytes encodeC).length ≤ receiverC.dstLen.toNat) := by
  refine ⟨⟨inv_encodeC, rfl, rfl, rfl, next_encode, by decide +kernel, rfl, by decide +kernel, by decide +kernel,
    by decide +kernel, by decide +kernel⟩, packedSoFar_abcc, rfl, succeeds_flush, holds_B0.1, holds_B0.2,
    premises_of_checks (inv_of_checks (t := treeC) (by decide +kernel) (by decide +kernel) rfl) rfl (by decide +kernel),
    by decide +kernel, rfl, by decide +kernel, by decide +kernel, ?_, by decide +kernel⟩
  unfold holdsBytes
  decide +kernel

/-! ## Witnesses: host accesses and reset -/

/-- A state with a command pending, at LMEM_SIZE = 0x8000. -/
def busySmall : State := { codesC with pending := some 0x6, lmemSize := ⟨0x1FFF⟩ }

theorem witness_CommandWriteIsAcceptedUnlessBusy : codesC.pending = none ∧ busySmall.pending ≠ none := by decide +kernel

/-- The offsets at the ends of each range. -/
theorem witness_InputWritesAreDroppedWhileBusy :
    busySmall.pending = some 0x6 ∧
      (∀ n ∈ [0x00C, 0x018, 0x028, 0x400, 0x7FC, 0x10000, 0x17FFC],
        (BitVec.ofNat 17 n).toNat % 4 = 0 ∧
          ((BitVec.ofNat 17 n).toNat = 0x00C ∨ (0x018 ≤ (BitVec.ofNat 17 n).toNat ∧ (BitVec.ofNat 17 n).toNat ≤ 0x028) ∨
            (0x400 ≤ (BitVec.ofNat 17 n).toNat ∧ (BitVec.ofNat 17 n).toNat < 0x800) ∨
            (0x10000 ≤ (BitVec.ofNat 17 n).toNat ∧
              (BitVec.ofNat 17 n).toNat < 0x10000 + busySmall.lmemSize.bytes))) ∧
      ∀ n ∈ [0x10000, 0x17FFF],
        0x10000 ≤ (BitVec.ofNat 17 n).toNat ∧ (BitVec.ofNat 17 n).toNat < 0x10000 + busySmall.lmemSize.bytes := by
  decide +kernel

theorem witness_ReadOnlyAndReservedPlaces :
    (∀ n ∈ [0x000, 0x010, 0x014, 0x02C, 0x3FC, 0x800, 0xFFFC, 0x18000, 0x1FFFC],
      (BitVec.ofNat 17 n).toNat % 4 = 0 ∧
        ((BitVec.ofNat 17 n).toNat = 0x000 ∨ (0x010 ≤ (BitVec.ofNat 17 n).toNat ∧ (BitVec.ofNat 17 n).toNat < 0x018) ∨
          (0x02C ≤ (BitVec.ofNat 17 n).toNat ∧ (BitVec.ofNat 17 n).toNat < 0x400) ∨
          (0x800 ≤ (BitVec.ofNat 17 n).toNat ∧ (BitVec.ofNat 17 n).toNat < 0x10000) ∨
          0x10000 + busySmall.lmemSize.bytes ≤ (BitVec.ofNat 17 n).toNat)) ∧
      (∀ n ∈ [0x18000, 0x1FFFF], 0x10000 + busySmall.lmemSize.bytes ≤ (BitVec.ofNat 17 n).toNat) ∧
      ∀ n ∈ [0x050, 0x3FC, 0xC00, 0xFFC, 0x3000, 0x3FFC, 0x5FF0, 0xFFFC, 0x18000, 0x1FFFC],
        (BitVec.ofNat 17 n).toNat % 4 = 0 ∧
          ((0x050 ≤ (BitVec.ofNat 17 n).toNat ∧ (BitVec.ofNat 17 n).toNat < 0x400) ∨
            (0xC00 ≤ (BitVec.ofNat 17 n).toNat ∧ (BitVec.ofNat 17 n).toNat < 0x1000) ∨
            (0x3000 ≤ (BitVec.ofNat 17 n).toNat ∧ (BitVec.ofNat 17 n).toNat < 0x4000) ∨
            (0x5FF0 ≤ (BitVec.ofNat 17 n).toNat ∧ (BitVec.ofNat 17 n).toNat < 0x10000) ∨
            0x10000 + busySmall.lmemSize.bytes ≤ (BitVec.ofNat 17 n).toNat) := by decide +kernel

theorem witness_IllegalAccessesAreRefused :
    (0x10001 : HostOff).toNat % 4 ≠ 0 ∧ (0x00003 : HostOff).toNat % 4 ≠ 0 ∧ (0x0FFFF : HostOff).toNat < 0x10000 ∧
      (0x1FFFC : HostOff).toNat % 4 = 0 ∧ 0x10000 ≤ (0x10000 : HostOff).toNat := by decide

theorem witness_ReadsHaveNoSideEffect :
    (∃ t, hostStep (.read32 0x0000C) codesC = .next t) ∧ ∃ t, hostStep (.read8 0x10003) codesC = .next t :=
  ⟨⟨_, rfl⟩, _, rfl⟩

/-- The first byte of LMEM, its last byte, which no 32-bit access may name, and its last word. -/
theorem witness_LmemWordsAreBigEndian :
    codesC.pending = none ∧
      (∀ n ∈ [0x10000, 0x1FFFF, 0x1FFFC],
        0x10000 ≤ (BitVec.ofNat 17 n).toNat ∧ (BitVec.ofNat 17 n).toNat - 0x10000 < codesC.lmemSize.bytes) ∧
      (BitVec.ofNat 17 0x10000).toNat % 4 = 0 ∧ (BitVec.ofNat 17 0x1FFFC).toNat % 4 = 0 ∧
      (BitVec.ofNat 17 0x1FFFF).toNat % 4 ≠ 0 := by decide +kernel

theorem witness_StatusShowsTheFlags : codesC.pending = none ∧ 7 ≤ 31 := by decide +kernel

theorem witness_OperandsAndCountsReadBack :
    codesC.pending = none ∧ (0x00400 : HostOff).toNat = 0x400 + 4 * (0x00 : Byte).toNat ∧
      (0x007FC : HostOff).toNat = 0x400 + 4 * (0xFF : Byte).toNat ∧ (0x00 : Byte) ≠ 0xFF ∧
      (State.reset.pending = none ∧ freqEntry State.reset 0xFF = .unspecified) := by decide +kernel

/-- The offsets at the ends of each range. -/
theorem witness_ReadsWhileBusy :
    busySmall.pending = some 0x6 ∧ 2 ≤ 31 ∧
      (∀ n ∈ [0x010, 0x014, 0x02C, 0x048, 0x400, 0xBFC, 0x1000, 0x2FFC, 0x4000, 0x5FEC],
        (BitVec.ofNat 17 n).toNat % 4 = 0 ∧
          ((0x010 ≤ (BitVec.ofNat 17 n).toNat ∧ (BitVec.ofNat 17 n).toNat < 0x018) ∨
            (0x02C ≤ (BitVec.ofNat 17 n).toNat ∧ (BitVec.ofNat 17 n).toNat < 0x04C) ∨
            (0x400 ≤ (BitVec.ofNat 17 n).toNat ∧ (BitVec.ofNat 17 n).toNat < 0xC00) ∨
            (0x1000 ≤ (BitVec.ofNat 17 n).toNat ∧ (BitVec.ofNat 17 n).toNat < 0x3000) ∨
            (0x4000 ≤ (BitVec.ofNat 17 n).toNat ∧ (BitVec.ofNat 17 n).toNat < 0x5FF0))) ∧
      ∀ n ∈ [0x10000, 0x17FFC],
        (BitVec.ofNat 17 n).toNat % 4 = 0 ∧ 0x10000 ≤ (BitVec.ofNat 17 n).toNat ∧
          (BitVec.ofNat 17 n).toNat < 0x10000 + busySmall.lmemSize.bytes := by decide +kernel

theorem witness_PackStateShowsThePendingBits :
    codesC.pk.length ≤ 7 ∧ { codesC with pk := List.replicate 7 true }.pk.length ≤ 7 ∧ 7 < 8 ∧ (3 ≤ 7 ∧ 7 < 8) ∧
      16 ≤ 31 := by decide +kernel

/-- A code of 255 bits for the symbol 0xFF, and the same entry after reset. -/
theorem witness_CodeWordsShowTheCode :
    (let s := { clean with code := codesOf [(0xFF, List.replicate 255 true)] };
      codeEntry s 0xFF = .written (List.replicate 255 true) ∧ (List.replicate 255 true).length ≤ 255 ∧
        s.pending = none) ∧
      (codeEntry State.reset 0xFF = .unspecified ∧ State.reset.pending = none) ∧
      (0x00BFC : HostOff).toNat = 0x800 + 4 * (0xFF : Byte).toNat ∧ 7 < 8 ∧
      (0x02FFC : HostOff).toNat = 0x1000 + 32 * (0xFF : Byte).toNat + 4 * 7 ∧ 31 < 32 := by decide +kernel

/-- The last handle of a full arena, and the first handle at or above NODE_COUNT of the tree of "abcc". -/
theorem witness_NodeWordsShowTheNode :
    (let s := { clean with node := List.replicate 511 (.leaf 1 0x61), nodeCount := 511 };
      s.pending = none ∧ nodeAt s 510 = some (.leaf 1 0x61) ∧ (510 : Handle).toNat ≤ 510 ∧
        (0x05FE0 : HostOff).toNat = 0x4000 + 16 * (510 : Handle).toNat) ∧
      (codesC.pending = none ∧ codesC.nodeCount.toNat ≤ (5 : Handle).toNat ∧ (5 : Handle).toNat ≤ 510 ∧
        (0x04050 : HostOff).toNat = 0x4000 + 16 * (5 : Handle).toNat) := by decide +kernel

theorem witness_CompletionDrivesTheInterrupt : ∃ t, exec .nop { clean with doneIE := true } = .next t := ⟨_, rfl⟩

theorem witness_ClearAfterResetIsCleanEntry :
    ∃ r a, eventStep .reset busySmall = .next r ∧ hostStep (.write32 0x0000C 0x00000001) r = .next a :=
  ⟨_, _, rfl, rfl⟩

end Sys2Proof.Tests
end

section
/-! ## Host accesses: which are legal, and what `hostStep` answers (20_memory.md R63) -/

namespace Sys2Proof.Machine

@[simp] theorem Access.legal_read32_iff {off : HostOff} : (Access.read32 off).legal = true ↔ off.toNat % 4 = 0 :=
  beq_iff_eq

@[simp] theorem Access.legal_write32_iff {off : HostOff} {v : Word} :
    (Access.write32 off v).legal = true ↔ off.toNat % 4 = 0 :=
  beq_iff_eq

@[simp] theorem Access.legal_read8_iff {off : HostOff} : (Access.read8 off).legal = true ↔ 0x10000 ≤ off.toNat :=
  decide_eq_true_iff

@[simp] theorem Access.legal_write8_iff {off : HostOff} {v : Byte} :
    (Access.write8 off v).legal = true ↔ 0x10000 ≤ off.toNat :=
  decide_eq_true_iff

theorem hostStep_of_legal {a : Access} (s : State) (legal : a.legal = true) :
    hostStep a s = .next (performAccess a s) :=
  if_pos legal

theorem hostStep_of_not_legal {a : Access} (s : State) (illegal : ¬a.legal = true) :
    hostStep a s = .refused (.illegalAccess a) :=
  if_neg illegal

/-- Settles O47: legality is alignment for a 32-bit access and the LMEM window for an 8-bit one, and it alone decides
between a next state and a refusal. -/
theorem illegalAccessesAreRefused : Obligations.IllegalAccessesAreRefused := by
  intro s off v b
  refine ⟨fun misaligned => ?_, fun below => ?_, fun aligned => ?_, fun window => ?_⟩
  · exact ⟨hostStep_of_not_legal s (mt Access.legal_read32_iff.mp misaligned),
      hostStep_of_not_legal s (mt Access.legal_write32_iff.mp misaligned)⟩
  · exact ⟨hostStep_of_not_legal s (mt Access.legal_read8_iff.mp below.not_ge),
      hostStep_of_not_legal s (mt Access.legal_write8_iff.mp below.not_ge)⟩
  · exact ⟨⟨_, hostStep_of_legal s (Access.legal_read32_iff.mpr aligned)⟩,
      _, hostStep_of_legal s (Access.legal_write32_iff.mpr aligned)⟩
  · exact ⟨⟨_, hostStep_of_legal s (Access.legal_read8_iff.mpr window)⟩,
      _, hostStep_of_legal s (Access.legal_write8_iff.mpr window)⟩

end Sys2Proof.Machine
end

section
/-! ## Command words: the words that decode are the words of the commands (30_encoding.md R90 to R92) -/

namespace Sys2Proof.Machine

/-- A word is its four fields in a row (R90). -/
theorem fields_append (w : Word) :
    w.extractLsb' 9 23 ++ BitVec.ofBool (lastField w) ++ w.extractLsb' 4 4 ++ opField w = w := by
  have last : BitVec.ofBool (lastField w) = w.extractLsb' 8 1 := by
    ext k hk
    obtain rfl : k = 0 := by omega
    simp [lastField]
  rw [last, opField, BitVec.extractLsb'_append_extractLsb'_eq_extractLsb' (start₂ := 9) (start₁ := 8) rfl,
    BitVec.extractLsb'_append_extractLsb'_eq_extractLsb' (start₂ := 8) (start₁ := 4) rfl,
    BitVec.extractLsb'_append_extractLsb'_eq_extractLsb' (start₂ := 4) (start₁ := 0) rfl]
  exact BitVec.extractLsb'_eq_self

theorem reservedZero_iff {w : Word} : reservedZero w = true ↔ w.extractLsb' 4 4 = 0#4 ∧ w.extractLsb' 9 23 = 0#23 := by
  simp [reservedZero]

/-- OP and LAST determine a word whose reserved fields are 0. -/
theorem word_ext_of_reservedZero {v w : Word} (hv : reservedZero v = true) (hw : reservedZero w = true)
    (op : opField v = opField w) (last : lastField v = lastField w) : v = w := by
  obtain ⟨lowV, highV⟩ := reservedZero_iff.mp hv
  obtain ⟨lowW, highW⟩ := reservedZero_iff.mp hw
  rw [← fields_append v, ← fields_append w, lowV, highV, lowW, highW, op, last]

@[simp] theorem decodeWord_encodeInstr (i : Instr) : decodeWord (encodeInstr i) = .ok i := by
  rcases i with _ | _ | _ | _ | _ | _ | _ | _ | (_ | _) <;> decide

@[simp] theorem reservedZero_encodeInstr (i : Instr) : reservedZero (encodeInstr i) = true :=
  decodeWord_ok_reservedZero _ i (decodeWord_encodeInstr i)

/-- The word of a command has an OP of R91's map, and LAST only with DECODE. -/
theorem encodeInstr_fields (i : Instr) :
    (opField (encodeInstr i)).toNat ≤ 8 ∧ (lastField (encodeInstr i) = true → opField (encodeInstr i) = 8) := by
  rcases i with _ | _ | _ | _ | _ | _ | _ | _ | (_ | _) <;> decide

/-- An OP and a LAST that decode to a command are the fields of its word. -/
theorem fields_of_decodeOp_ok (i : Instr) : ∀ (op : BitVec 4) (last : Bool), decodeOp op last = .ok i →
    opField (encodeInstr i) = op ∧ lastField (encodeInstr i) = last := by
  rcases i with _ | _ | _ | _ | _ | _ | _ | _ | (_ | _) <;> decide

/-- A word decodes to a command exactly when it is the command's word. -/
theorem decodeWord_eq_ok_iff {w : Word} {i : Instr} : decodeWord w = .ok i ↔ encodeInstr i = w := by
  constructor
  · intro h
    have zero := decodeWord_ok_reservedZero w i h
    obtain ⟨op, last⟩ := fields_of_decodeOp_ok i _ _ ((if_pos zero).symm.trans h)
    exact word_ext_of_reservedZero (reservedZero_encodeInstr i) zero op last
  · rintro rfl
    exact decodeWord_encodeInstr i

/-! ## The match and mask table (30_encoding.md R91) -/

theorem eq_of_selects_fullMask {m : String} {v w : Word}
    (h : EncodingRow.selects ⟨m, v, 0xFFFFFFFF⟩ w = true) : v = w := by
  have full : w &&& BitVec.allOnes 32 = v := eq_of_beq h
  rw [← full, BitVec.and_allOnes]

/-- The row of DECODE leaves LAST open and fixes every other bit. -/
theorem eq_of_selects_decodeRow {w : Word}
    (h : EncodingRow.selects ⟨"DECODE", 0x00000008, 0xFFFFFEFF⟩ w = true) :
    encodeInstr (.decode (lastField w)) = w := by
  have masked : w &&& 0xFFFFFEFF#32 = 0x00000008#32 := eq_of_beq h
  have field (start len : Nat) : w.extractLsb' start len &&& (0xFFFFFEFF#32).extractLsb' start len =
      (0x00000008#32).extractLsb' start len := by
    rw [← BitVec.extractLsb'_and, masked]
  have low : w.extractLsb' 4 4 = 0#4 := BitVec.and_allOnes.symm.trans (field 4 4)
  have high : w.extractLsb' 9 23 = 0#23 := BitVec.and_allOnes.symm.trans (field 9 23)
  have op : opField w = 8#4 := BitVec.and_allOnes.symm.trans (field 0 4)
  refine word_ext_of_reservedZero (reservedZero_encodeInstr _) (reservedZero_iff.mpr ⟨low, high⟩) ?_ ?_
  · rw [op]; cases lastField w <;> rfl
  · cases lastField w <;> rfl

/-- A word that some row selects is the word of a command. -/
theorem exists_encodeInstr_of_selects {w : Word} :
    ∀ r ∈ encodingTable, r.selects w = true → ∃ i, encodeInstr i = w := by
  simp only [encodingTable, List.forall_mem_cons]
  exact ⟨fun h => ⟨.nop, eq_of_selects_fullMask h⟩, fun h => ⟨.clear, eq_of_selects_fullMask h⟩,
    fun h => ⟨.build, eq_of_selects_fullMask h⟩, fun h => ⟨.gencodes, eq_of_selects_fullMask h⟩,
    fun h => ⟨.serialize, eq_of_selects_fullMask h⟩, fun h => ⟨.deserialize, eq_of_selects_fullMask h⟩,
    fun h => ⟨.encode, eq_of_selects_fullMask h⟩, fun h => ⟨.flush, eq_of_selects_fullMask h⟩,
    fun h => ⟨.decode (lastField w), eq_of_selects_decodeRow h⟩, List.forall_mem_nil _⟩

/-- The word of a command selects the row of its mnemonic and no other. -/
theorem rows_selecting_encodeInstr (i : Instr) :
    (encodingTable.filter fun r => r.selects (encodeInstr i)).map EncodingRow.mnemonic = [mnemonicOf i] := by
  rcases i with _ | _ | _ | _ | _ | _ | _ | _ | (_ | _) <;> decide

/-- Settles O1: a word that decodes is its command's word, which selects that command's row alone; a word that some row
selects is a command's word, so it decodes. -/
theorem decodedCommandIsTheOneRowTheWordSelects : Obligations.DecodedCommandIsTheOneRowTheWordSelects := by
  intro w
  cases hw : decodeWord w with
  | ok i =>
    obtain rfl := decodeWord_eq_ok_iff.mp hw
    exact rows_selecting_encodeInstr i
  | error e =>
    have none_selects : ∀ r ∈ encodingTable, ¬ r.selects w = true := by
      intro r hr hs
      obtain ⟨i, hi⟩ := exists_encodeInstr_of_selects r hr hs
      cases hw.symm.trans (decodeWord_eq_ok_iff.mpr hi)
    rw [List.filter_eq_nil_iff.mpr none_selects, List.map_nil]

/-! ## Illegal words (30_encoding.md R95) -/

theorem performBadOpcode_eq_rejected (w : Word) (s : State) : performBadOpcode w s = rejected 0x01 w s :=
  perform_reject .badOpcode w s

/-- The engine's turn on a word that does not decode is the Reject BAD_OPCODE. -/
theorem engineStep_of_not_ok {s : State} {w : Word} (pending : s.pending = some w)
    (illegal : ∀ i, decodeWord w ≠ .ok i) : engineStep s = .next (rejected 0x01 w s) := by
  cases hw : decodeWord w with
  | ok i => exact absurd hw (illegal i)
  | error e =>
    cases e
    simp only [engineStep, pending, hw, performBadOpcode_eq_rejected]

/-- Settles O4: a command's word has none of R95's faults (`reservedZero_encodeInstr`, `encodeInstr_fields`), so a word with one does not decode. -/
theorem illegalWordEndsInBadOpcode : Obligations.IllegalWordEndsInBadOpcode := by
  refine ⟨fun s w pending fault => engineStep_of_not_ok pending fun i hi => ?_, decodeWord_encodeInstr .nop⟩
  obtain rfl := decodeWord_eq_ok_iff.mp hi
  obtain ⟨op_le, last_decode⟩ := encodeInstr_fields i
  obtain ⟨low, high⟩ := reservedZero_iff.mp (reservedZero_encodeInstr i)
  rcases fault with op | bits | bits | ⟨last, op⟩
  · exact op_le.not_gt op
  · exact bits low
  · exact bits high
  · exact op (last_decode last)

end Sys2Proof.Machine
end

section
/-! ## NOP and CLEAR (40_control.md R115, R116) -/

namespace Sys2Proof.Machine

/-- Settles O14: the word of NOP decodes to it, and its body leaves the state to `complete`. -/
theorem nopOnlyCompletes : Obligations.NopOnlyCompletes :=
  ⟨decodeWord_encodeInstr .nop, exec_nop⟩

/-- Settles O15: the word of CLEAR decodes to it, and the fields named are those that `clearBody` and `complete` write. -/
theorem clearReturnsTheDataPathToFreshState : Obligations.ClearReturnsTheDataPathToFreshState :=
  ⟨decodeWord_encodeInstr .clear, exec_clear⟩

/-! ## Host writes: the place written, and the writes that BUSY = 1 drops (20_memory.md R61, R66) -/

theorem unlessBusy_of_idle {s : State} (write : State → State) (idle : s.pending = none) :
    unlessBusy write s = write s := by
  simp [unlessBusy, busy, idle]

theorem unlessBusy_of_busy {s : State} (write : State → State) (pending : s.pending ≠ none) :
    unlessBusy write s = { s with busyViol := true } :=
  if_pos (Option.isSome_iff_ne_none.mpr pending)

/-- At an aligned offset a host write is the write at its place. -/
theorem hostStep_write32 {off : HostOff} (v : Word) (s : State) (aligned : off.toNat % 4 = 0) :
    hostStep (.write32 off v) s = .next (write32At (placeOf off) v s) :=
  hostStep_of_legal s (Access.legal_write32_iff.mpr aligned)

/-! ## The CMD register (40_control.md R111, 10_state.md R26) -/

@[simp] theorem placeOf_cmd : placeOf 0x0000C = .reg .cmd := rfl

theorem hostStep_write_cmd (w : Word) (s : State) :
    hostStep (.write32 0x0000C w) s = .next (unlessBusy (acceptCommand w) s) := by
  rw [hostStep_write32 w s rfl, placeOf_cmd]
  rfl

/-- CMD's read is true while BUSY = 1 too (20_memory.md R67). -/
theorem read32At_cmd (s : State) : read32At s (.reg .cmd) = s.cmdLast := by
  simp [read32At, Reg.trueWhileBusy, readReg]

/-- Settles O44: the write at CMD is `acceptCommand`, which `unlessBusy` drops while a command is pending, and the read is
true at all times. -/
theorem commandWriteIsAcceptedUnlessBusy : Obligations.CommandWriteIsAcceptedUnlessBusy := by
  intro s w
  refine ⟨fun idle => ?accepted, fun pending => ?dropped, ?read⟩
  case accepted => rw [hostStep_write_cmd, unlessBusy_of_idle _ idle]; rfl
  case dropped => rw [hostStep_write_cmd, unlessBusy_of_busy _ pending]
  case read => exact (readsAs_iff rfl).mpr (by rw [placeOf_cmd, read32At_cmd])

end Sys2Proof.Machine
end

section
/-! ## BUILD over written FREQ contents (41_tree_builder.md R131, R134) -/

namespace Sys2Proof.Machine

theorem mem_allSymbols (c : Byte) : c ∈ allSymbols :=
  List.mem_map.mpr ⟨c.toNat, List.mem_range.mpr c.isLt, (BitVec.ofNat_toNat 8 c).trans c.setWidth_eq⟩

/-- The handles of an installed tree hold its nodes; of the arena before it none is left to read. -/
theorem nodeAt_installTree (nodes : List Node) (k : Nat) (r : Handle) (s : State) (h : Handle) :
    nodeAt (installTree nodes k r s) h =
      if h.toNat < (BitVec.ofNat 10 nodes.length).toNat then nodes[h.toNat]? else none := by
  refine if_ctx_congr Iff.rfl (fun below => ?_) fun _ => rfl
  have inNodes : h.toNat < nodes.length := below.trans_le (by simp [Nat.mod_le])
  exact List.getElem?_append_left inNodes

@[simp] theorem nodeAt_complete (s : State) (h : Handle) : nodeAt (complete s) h = nodeAt s h := rfl

/-- `syms` of R131 as a function of the counts. -/
def countedSymbols (f : Byte → Word) : List Byte := allSymbols.filter (fun c => f c != 0)

/-- The leaves of R131 as a function of the counts. -/
def countedLeaves (f : Byte → Word) : List Node :=
  (countedSymbols f).map (fun c => .leaf ((f c).setWidth 40) c)

theorem countedSymbols_ne_nil {f : Byte → Word} (present : ∃ c, f c ≠ 0) : countedSymbols f ≠ [] := by
  obtain ⟨c, hc⟩ := present
  exact List.ne_nil_of_mem (List.mem_filter.mpr ⟨mem_allSymbols c, bne_iff_ne.mpr hc⟩)

section
variable {s : State} {f : Byte → Word} (written : ∀ c, freqEntry s c = .written (f c))
include written

/-- A written entry reads as its contents at every place: no draw enters. -/
theorem readFreq_of_written (k : Nat) (c : Byte) : readFreq s k c = f c := by
  have entry : s.freq[c.toNat]'c.isLt = .written (f c) := written c
  simp only [readFreq, entry]

theorem presentSymbols_of_written : presentSymbols s = countedSymbols f := by
  simp only [presentSymbols, countedSymbols, readFreq_of_written written]

theorem leafNodes_of_written : leafNodes s (countedSymbols f) = countedLeaves f := by
  simp only [leafNodes, countedLeaves, readFreq_of_written written]

/-- BUILD over counts not all 0 installs the tree of the leaves that the counts give. -/
theorem exec_build_of_written {t : State} (present : ∃ c, f c ≠ 0) (run : exec .build s = .next t) :
    t = complete (installTree (buildNodes (countedLeaves f)).2 (countedSymbols f).length
      (BitVec.ofNat 9 (buildNodes (countedLeaves f)).1) s) := by
  have syms := presentSymbols_of_written written
  rcases exec_build_cases run with ⟨empty, -⟩ | ⟨-, tree⟩
  · exact absurd (syms.symm.trans empty) (countedSymbols_ne_nil present)
  · rwa [syms, leafNodes_of_written written] at tree

end

/-- Settles O21: both BUILDs install the tree of the leaves that the common counts give (`exec_build_of_written`), and the
nodes below NODE_COUNT are that tree's, whatever the arena held before (`nodeAt_installTree`). -/
theorem buildDependsOnFreqAlone : Obligations.BuildDependsOnFreqAlone := by
  intro s1 s2 t1 t2 f written1 written2 present run1 run2
  obtain rfl := exec_build_of_written written1 present run1
  obtain rfl := exec_build_of_written written2 present run2
  exact ⟨rfl, rfl, rfl, fun h => by simp only [nodeAt_complete, nodeAt_installTree]⟩

end Sys2Proof.Machine
end

section
/-! ## GENCODES over a valid tree (42_code_table_gen.md R140 to R143) -/

namespace Sys2Proof.Machine

/-- GENCODES completes on every valid tree whose walk ends. -/
theorem exec_gencodes_of_walkedTree {s : State} {tr : Tree} (valid : s.treeValid = true)
    (walked : walkedTree s = some tr) :
    exec .gencodes s = .next (complete { s with code := codeTable tr, codesValid := true }) := by
  simp only [exec, execGencodes, valid, walked, Bool.not_true, Bool.false_eq_true, if_false, perform_ok]

/-! ## A lone leaf (R142) -/

theorem treeOf_of_leafAt_root {s : State} {c : Byte} (leaf : leafAt s s.root c) :
    treeOf s = some (.leaf s.root c) := by
  obtain ⟨f, root⟩ := leaf
  simp only [treeOf, Config.maxNodes, Tree.fromArena, root]

@[simp] theorem getElem_noCodes (n : Nat) (lt : n < 256) : noCodes[n] = .written [] := Vector.getElem_replicate lt

/-- The table of a lone leaf is one write of the code "0" into the cleared table. -/
theorem codeTable_leaf (h : Handle) (c : Byte) :
    codeTable (.leaf h c) = noCodes.set c.toNat (.written [false]) c.isLt := rfl

/-- Settles O23: the walk is the root leaf alone (`treeOf_of_leafAt_root`), so the one entry written is its symbol's
(`codeTable_leaf`). -/
theorem loneLeafGetsTheCodeZero : Obligations.LoneLeafGetsTheCodeZero := by
  intro s c valid leaf
  have walked := walkedTree_of_treeOf (treeOf_of_leafAt_root leaf)
  refine ⟨_, exec_gencodes_of_walkedTree valid walked, rfl, ?itsCode, fun d ne => ?otherCodes⟩
  case itsCode => simp only [codeEntry, complete_code, codeTable_leaf, Vector.getElem_set_self]
  case otherCodes =>
    have ne_index : c.toNat ≠ d.toNat := fun eq => ne (BitVec.eq_of_toNat_eq eq.symm)
    simp only [codeEntry, complete_code, codeTable_leaf, Vector.getElem_set_ne _ _ ne_index, getElem_noCodes]

/-! ## No code is a prefix of another (R143) -/

/-- What a written table holds was written, or was there before. -/
theorem mem_of_writeCodes_eq_written {c : Byte} {p : Bits} (entries : List (Byte × Bits))
    (table : Vector (Contents Bits) 256) (entry : (writeCodes entries table)[c.toNat]'c.isLt = .written p) :
    (c, p) ∈ entries ∨ table[c.toNat]'c.isLt = .written p := by
  induction entries generalizing table with
  | nil => exact .inr entry
  | cons e es ih =>
    rcases ih (table.set e.1.toNat (.written e.2) e.1.isLt) entry with later | now
    · exact .inl (List.mem_cons_of_mem e later)
    · by_cases same : e.1.toNat = c.toNat
      · have bits : e.2 = p := by simpa [same] using now
        have head : e = (c, p) := Prod.ext (BitVec.eq_of_toNat_eq same) bits
        exact .inl (head ▸ List.mem_cons_self)
      · rw [Vector.getElem_set_ne _ _ same] at now
        exact .inr now

/-- The entries of every tree are a walk of it: R142's code "0" is the walk of the lone leaf from the path "0". -/
theorem codeEntries_eq_walk : ∀ tr : Tree, ∃ r, codeEntries tr = tr.walk r
  | .leaf _ _ => ⟨[false], rfl⟩
  | .internal _ _ _ => ⟨[], rfl⟩

/-- A code that is not empty is one of the tree's entries. -/
theorem mem_codeEntries_of_codeTable {tr : Tree} {c : Byte} {p : Bits}
    (entry : (codeTable tr)[c.toNat]'c.isLt = .written p) (nonempty : p ≠ []) : (c, p) ∈ codeEntries tr := by
  refine (mem_of_writeCodes_eq_written _ _ entry).resolve_right fun cleared => nonempty ?_
  rw [getElem_noCodes] at cleared
  injection cleared with empty
  exact empty.symm

/-- Every path below a node goes on from the path to the node. -/
theorem Tree.prefix_of_mem_walk {tr : Tree} {r p : Bits} {c : Byte} (mem : (c, p) ∈ tr.walk r) : r <+: p := by
  induction tr generalizing r with
  | leaf h a =>
    obtain ⟨-, rfl⟩ := Prod.mk.inj (List.mem_singleton.mp mem)
    exact List.prefix_rfl
  | internal h left right ihLeft ihRight =>
    rcases List.mem_append.mp mem with mem | mem
    · exact (List.prefix_append r _).trans (ihLeft mem)
    · exact (List.prefix_append r _).trans (ihRight mem)

/-- A bit string takes one branch after `r`. -/
theorem branch_unique {r q : Bits} {a b : Bool} (goesA : r ++ [a] <+: q) (goesB : r ++ [b] <+: q) : a = b := by
  have branches : r ++ [a] = r ++ [b] :=
    (List.prefix_of_prefix_length_le goesA goesB (by simp)).eq_of_length (by simp)
  simpa using branches

/-- Of two paths of a walk, the one is a prefix of the other only at the same leaf: where two leaves' paths part, they
take different branches. -/
theorem Tree.walk_prefixFree {tr : Tree} {r p q : Bits} {c d : Byte} (memC : (c, p) ∈ tr.walk r)
    (memD : (d, q) ∈ tr.walk r) (pre : p <+: q) : c = d := by
  induction tr generalizing r with
  | leaf h a =>
    obtain ⟨rfl, -⟩ := Prod.mk.inj (List.mem_singleton.mp memC)
    obtain ⟨rfl, -⟩ := Prod.mk.inj (List.mem_singleton.mp memD)
    rfl
  | internal h left right ihLeft ihRight =>
    rcases List.mem_append.mp memC with leftC | rightC <;> rcases List.mem_append.mp memD with leftD | rightD
    · exact ihLeft leftC leftD
    · cases branch_unique ((prefix_of_mem_walk leftC).trans pre) (prefix_of_mem_walk rightD)
    · cases branch_unique ((prefix_of_mem_walk rightC).trans pre) (prefix_of_mem_walk leftD)
    · exact ihRight rightC rightD

/-- Of two entries of a tree, the bits of the one are a prefix of the other's only for the same symbol. -/
theorem codeEntries_prefixFree {tr : Tree} {p q : Bits} {c d : Byte} (memC : (c, p) ∈ codeEntries tr)
    (memD : (d, q) ∈ codeEntries tr) (pre : p <+: q) : c = d := by
  obtain ⟨r, walk⟩ := codeEntries_eq_walk tr
  rw [walk] at memC memD
  exact Tree.walk_prefixFree memC memD pre

/-- Settles O24: a code that is not empty is an entry of the walked tree (`mem_codeEntries_of_codeTable`), and of those no
one is a prefix of another symbol's (`codeEntries_prefixFree`). -/
theorem generatedCodesArePrefixFree : Obligations.GeneratedCodesArePrefixFree := by
  intro s t _ valid run c d p q distinct entryC entryD pNonempty qNonempty pre
  rcases exec_gencodes_cases run with ⟨noTree, -⟩ | ⟨tr, -, -, rfl⟩
  · cases valid.symm.trans noTree
  · exact distinct (codeEntries_prefixFree (mem_codeEntries_of_codeTable entryC pNonempty)
      (mem_codeEntries_of_codeTable entryD qNonempty) pre)

end Sys2Proof.Machine
end

section
/-! ## The size of a tree and of its serialization (43_tree_serializer.md R150, R152) -/

namespace Sys2Proof.Machine

theorem Tree.symbols_length_eq (tr : Tree) : tr.symbols.length = tr.internalHandles.length + 1 := by
  induction tr with
  | leaf h c => rfl
  | internal h left right ihLeft ihRight =>
    simp only [Tree.symbols, Tree.internalHandles, List.length_append, List.length_cons]
    omega

theorem Tree.handles_length_eq (tr : Tree) : tr.handles.length = 2 * tr.internalHandles.length + 1 := by
  induction tr with
  | leaf h c => rfl
  | internal h left right ihLeft ihRight =>
    simp only [Tree.handles, Tree.internalHandles, List.length_append, List.length_cons]
    omega

/-- Each leaf takes 9 bits and each internal node one (R152). -/
theorem Tree.ser_length_eq (tr : Tree) : tr.ser.length = 10 * tr.internalHandles.length + 9 := by
  induction tr with
  | leaf h c => rfl
  | internal h left right ihLeft ihRight =>
    simp only [Tree.ser, Tree.internalHandles, List.length_append, List.length_cons]
    omega

/-- A tree with distinct symbols has at most MAX_INTERNAL internal nodes: there are 256 symbols (00_scope.md R7). -/
theorem Tree.internalHandles_length_le {tr : Tree} (distinct : tr.symbols.Nodup) :
    tr.internalHandles.length ≤ Config.maxInternal := by
  have le_all := (distinct.subperm fun c _ => mem_allSymbols c).length_le
  have all_length : allSymbols.length = 256 := by simp [allSymbols]
  have leaves := tr.symbols_length_eq
  unfold Config.maxInternal
  omega

/-- Under the invariants the tree the arena holds is the one they speak of. -/
theorem Inv.treeInv {s : State} {tr : Tree} (inv : Inv s) (valid : s.treeValid = true)
    (reads : treeOf s = some tr) : TreeInv s tr := by
  obtain ⟨tr', treeInv⟩ := inv.tree valid
  obtain rfl : tr' = tr := Option.some.inj (treeInv.reads.symm.trans reads)
  exact treeInv

@[simp] theorem placeOf_treeBits : placeOf 0x00044 = .reg .treeBits := rfl

theorem readReg_treeBits_of_valid {s : State} (valid : s.treeValid = true) :
    readReg s .treeBits = BitVec.ofNat 32 (10 * s.numSyms.toNat - 1) := by
  simp only [readReg, treeBits, valid, if_true]

/-- While BUSY = 0 a register reads its field. -/
theorem read32At_reg_of_idle {s : State} (r : Reg) (idle : s.pending = none) :
    read32At s (.reg r) = readReg s r := by
  simp [read32At, busy, idle]

/-- Settles O25: the counts follow from those of leaves and internal nodes (`Tree.symbols_length_eq`,
`Tree.ser_length_eq`) and from the invariants' 1 ≤ NUM_SYMS ≤ 256. -/
theorem serializationHasTenBitsALeafLessOne : Obligations.SerializationHasTenBitsALeafLessOne := by
  intro s tr inv valid reads
  have treeInv := inv.treeInv valid reads
  have leaves : tr.symbols.length = s.numSyms.toNat := treeInv.numSyms.symm
  have atLeastOne := treeInv.atLeastOne
  have atMost256 := treeInv.atMost256
  have leaf_count := tr.symbols_length_eq
  have bit_count := tr.ser_length_eq
  have bits : tr.ser.length = 10 * s.numSyms.toNat - 1 := by omega
  have register : readReg s .treeBits = BitVec.ofNat 32 tr.ser.length := by
    rw [readReg_treeBits_of_valid valid, bits]
  refine ⟨leaves, by omega, bits, by omega, by omega, ?atLeastTwoBytes, ?atMost320Bytes, register,
    fun idle => ?hostRead⟩
  case atLeastTwoBytes => unfold bytesFor; omega
  case atMost320Bytes => unfold bytesFor; omega
  case hostRead =>
    exact (readsAs_iff rfl).mpr (by rw [placeOf_treeBits, read32At_reg_of_idle _ idle, register])

end Sys2Proof.Machine
end

section
/-! ## SERIALIZE, and what the source range of a later command reads of its bytes (43_tree_serializer.md R153, R154) -/

namespace Sys2Proof.Machine

/-- Where its checks pass SERIALIZE stores the padded bits of the tree. -/
theorem exec_serialize_of_treeOf {s : State} {tr : Tree} (valid : s.treeValid = true) (reads : treeOf s = some tr)
    (inside : s.dstAddr.toNat + s.dstLen.toNat ≤ s.lmemSize.bytes)
    (room : bytesFor tr.ser.length ≤ s.dstLen.toNat) :
    exec .serialize s = .next (complete (storeResult (packBytes (padToByte tr.ser)) s)) := by
  have rangeOK := (dstRangeOK_iff s).mpr inside
  have body : serializeBody tr s = .ok (storeResult (packBytes (padToByte tr.ser)) s) := if_neg (by omega)
  simp only [exec, execSerialize, valid, rangeOK, walkedTree_of_treeOf reads, body, Bool.not_true,
    Bool.false_eq_true, if_false, perform_ok]

theorem packBytes_padToByte (b : Bits) :
    (packBytes (padToByte b)).length = bytesFor b.length ∧
      (packBytes (padToByte b)).flatMap byteToBits = padToByte b :=
  packBytes_flatMap _ _ (padToByte_length b)

/-- Byte `n` of a stream, where it has contents, is the stream's bits from `8n` on. -/
theorem streamBits_of_get {s : State} {base n : Nat} {v : Byte} (byte : Memory.get s.lmem (base + n) = some v) :
    (List.range 8).map (fun k => streamBit s base (8 * n + k)) = byteToBits v := by
  have bits : ∀ k ∈ List.range 8, streamBit s base (8 * n + k) = v.getLsbD (7 - k) := fun k mem => by
    have lt := List.mem_range.mp mem
    have index : (8 * n + k) / 8 = n := by omega
    have place : (8 * n + k) % 8 = k := by omega
    rw [streamBit, index, place, memRead_of_get byte]
  rw [List.map_congr_left bits]
  rfl

/-- A source of bytes with contents reads their bits, in order: no draw enters. -/
theorem sourceBits_of_holdsBytes {s : State} {bytes : List Byte} (holds : holdsBytes s.lmem s.srcAddr.toNat bytes) :
    sourceBits s (8 * bytes.length) = bytes.flatMap byteToBits := by
  induction bytes using List.reverseRecOn with
  | nil => rfl
  | append_singleton bytes v ih =>
    have byte : Memory.get s.lmem (s.srcAddr.toNat + bytes.length) = some v := by
      simpa using holds bytes.length (by simp)
    have before : holdsBytes s.lmem s.srcAddr.toNat bytes := fun i lt =>
      (holds i (by simp only [List.length_append]; omega)).trans (congrArg some (List.getElem_append_left lt))
    rw [List.length_append, List.length_singleton, Nat.mul_add, List.flatMap_append, ← ih before]
    simp only [sourceBits, List.range_add, List.map_append, List.map_map, List.flatMap_singleton,
      ← streamBits_of_get byte]
    rfl

/-- A result that has room in the destination range is as long as RESULT_LEN says. -/
theorem storeResult_resultLen_toNat {out : List Byte} {s : State} (room : out.length ≤ s.dstLen.toNat) :
    (storeResult out s).resultLen.toNat = out.length :=
  Nat.mod_eq_of_lt (room.trans_lt s.dstLen.isLt)

/-- The host points the source range at the bytes that the last command wrote (R159). -/
def resultAsSource (s : State) : State := { s with srcAddr := s.dstAddr, srcLen := s.resultLen }

/-- The source range set to the bytes a command stored reads those bytes. -/
theorem sourceBits_resultAsSource {out : List Byte} {s : State} (room : out.length ≤ s.dstLen.toNat) :
    sourceBits (resultAsSource (complete (storeResult out s)))
        (8 * (resultAsSource (complete (storeResult out s))).srcLen.toNat) = out.flatMap byteToBits := by
  have len : (resultAsSource (complete (storeResult out s))).srcLen.toNat = out.length :=
    storeResult_resultLen_toNat room
  rw [len]
  exact sourceBits_of_holdsBytes (Memory.setBytes_holdsBytes out s.lmem s.dstAddr.toNat)

end Sys2Proof.Machine
end

section
/-! ## The parser of DESERIALIZE on a serialization (43_tree_serializer.md R157, R158) -/

namespace Sys2Proof.Machine

/-- The tree with its handles given anew, in preorder from `n` on (R158). -/
def Tree.preorder : Tree → (n : Nat) → Tree
  | .leaf _ c, n => .leaf (BitVec.ofNat 9 n) c
  | .internal _ l r, n =>
    .internal (BitVec.ofNat 9 n) (l.preorder (n + 1)) (r.preorder (n + 1 + l.handles.length))

/-- The nodes the parser writes for a tree, the first at handle `n` (R157). -/
def Tree.parsedNodes : Tree → (n : Nat) → List Node
  | .leaf _ c, _ => [.leaf 0 c]
  | .internal _ l r, n =>
    .internal 0 (BitVec.ofNat 9 (n + 1)) (BitVec.ofNat 9 (n + 1 + l.handles.length)) ::
      (l.parsedNodes (n + 1) ++ r.parsedNodes (n + 1 + l.handles.length))

/-- The parser once it has read a tree, with `rest` still to come. -/
def ParseState.past (p : ParseState) (tr : Tree) (rest : Bits) : ParseState :=
  { rest := rest, pos := p.pos + tr.ser.length, next := p.next + tr.handles.length,
    nint := p.nint + tr.internalHandles.length, seen := tr.symbols.reverse ++ p.seen }

/-- The parser past an internal node's tag, with `rest` still to come. -/
def ParseState.pastInternalTag (p : ParseState) (rest : Bits) : ParseState :=
  { rest := rest, pos := p.pos + 1, next := p.next + 1, nint := p.nint + 1, seen := p.seen }

/-- To read an internal node is to read its tag, its left subtree and its right one. -/
theorem ParseState.past_internal (p : ParseState) (h : Handle) (left right : Tree) (rest rest1 rest2 : Bits) :
    p.past (.internal h left right) rest = (((p.pastInternalTag rest1).past left rest2).past right rest) := by
  simp only [ParseState.past, ParseState.pastInternalTag, Tree.ser, Tree.handles, Tree.internalHandles, Tree.symbols,
    List.length_cons, List.length_append, List.reverse_append, List.append_assoc, ParseState.mk.injEq]
  exact ⟨trivial, by omega, by omega, by omega, trivial⟩

@[simp] theorem Tree.parsedNodes_length (tr : Tree) (n : Nat) : (tr.parsedNodes n).length = tr.handles.length := by
  induction tr generalizing n with
  | leaf h c => rfl
  | internal h left right ihLeft ihRight => simp [Tree.parsedNodes, Tree.handles, ihLeft, ihRight]

@[simp] theorem Tree.ser_preorder (tr : Tree) (n : Nat) : (tr.preorder n).ser = tr.ser := by
  induction tr generalizing n with
  | leaf h c => rfl
  | internal h left right ihLeft ihRight => simp only [Tree.preorder, Tree.ser, ihLeft, ihRight]

@[simp] theorem Tree.walk_preorder (tr : Tree) (n : Nat) (path : Bits) : (tr.preorder n).walk path = tr.walk path := by
  induction tr generalizing n path with
  | leaf h c => rfl
  | internal h left right ihLeft ihRight => simp only [Tree.preorder, Tree.walk, ihLeft, ihRight]

/-- A code table depends on shape and symbols alone. -/
theorem codeTable_preorder (tr : Tree) (n : Nat) : codeTable (tr.preorder n) = codeTable tr := by
  cases tr with
  | leaf h c => rfl
  | internal h left right =>
    have entries : codeEntries ((Tree.internal h left right).preorder n) = codeEntries (.internal h left right) :=
      Tree.walk_preorder (.internal h left right) n []
    rw [codeTable, entries, codeTable]

/-- The parser at a leaf's tag with a symbol it has not seen. -/
theorem parseTree_leaf (nbits depth : Nat) {p : ParseState} {c : Byte} {rest : Bits}
    (bits : p.rest = true :: (byteToBits c ++ rest)) (unseen : c ∉ p.seen) :
    parseTree nbits (depth + 1) p =
      .ok ([.leaf 0 c],
        { rest := rest, pos := p.pos + 9, next := p.next + 1, nint := p.nint, seen := c :: p.seen }) := by
  have symbol : (byteToBits c ++ rest).take 8 = byteToBits c := List.take_left' (byteToBits_length c)
  have remaining : (byteToBits c ++ rest).drop 8 = rest := List.drop_left' (byteToBits_length c)
  simp [parseTree, bits, symbol, remaining, bitsToByte_byteToBits, unseen]

/-- The parser at an internal node's tag with two subtrees after it. -/
theorem parseTree_internal {nbits depth : Nat} {p p1 p2 : ParseState} {rest : Bits} {left right : List Node}
    (bits : p.rest = false :: rest) (notFull : p.nint ≠ Config.maxInternal)
    (parseLeft : parseTree nbits depth (p.pastInternalTag rest) = .ok (left, p1))
    (parseRight : parseTree nbits depth p1 = .ok (right, p2)) :
    parseTree nbits (depth + 1) p =
      .ok (.internal 0 (BitVec.ofNat 9 (p.next + 1)) (BitVec.ofNat 9 p1.next) :: (left ++ right), p2) := by
  rw [ParseState.pastInternalTag] at parseLeft
  simp only [parseTree, bits, notFull, if_false, parseLeft, parseRight]

/-- On a serialization with room for its internal nodes and symbols not seen before, the parser reads exactly that
tree. -/
theorem parseTree_ser (nbits : Nat) {tr : Tree} {depth : Nat} {p : ParseState} {rest : Bits}
    (deep : tr.internalHandles.length < depth) (bits : p.rest = tr.ser ++ rest)
    (few : p.nint + tr.internalHandles.length ≤ Config.maxInternal) (fresh : (tr.symbols.reverse ++ p.seen).Nodup) :
    parseTree nbits depth p = .ok (tr.parsedNodes p.next, p.past tr rest) := by
  induction tr generalizing depth p rest with
  | leaf h c =>
    obtain ⟨depth, rfl⟩ := Nat.exists_eq_add_one_of_ne_zero (Nat.ne_zero_of_lt deep)
    exact parseTree_leaf nbits depth bits (List.nodup_cons.mp fresh).1
  | internal h left right ihLeft ihRight =>
    obtain ⟨depth, rfl⟩ := Nat.exists_eq_add_one_of_ne_zero (Nat.ne_zero_of_lt deep)
    simp only [Tree.internalHandles, List.length_cons, List.length_append] at deep few
    simp only [Tree.symbols, List.reverse_append, List.append_assoc] at fresh
    simp only [Tree.ser, List.cons_append, List.append_assoc] at bits
    have parseLeft : parseTree nbits depth (p.pastInternalTag (left.ser ++ (right.ser ++ rest))) =
        .ok (left.parsedNodes (p.next + 1), (p.pastInternalTag _).past left (right.ser ++ rest)) :=
      ihLeft (by omega) rfl (by simp only [ParseState.pastInternalTag]; omega) (List.Nodup.of_append_right fresh)
    have parseRight := ihRight (depth := depth) (rest := rest)
      (p := (p.pastInternalTag (left.ser ++ (right.ser ++ rest))).past left (right.ser ++ rest)) (by omega) rfl
      (by simp only [ParseState.past, ParseState.pastInternalTag]; omega) fresh
    rw [ParseState.past_internal]
    exact parseTree_internal bits (by omega) parseLeft parseRight

end Sys2Proof.Machine
end

section
/-! ## The arena after DESERIALIZE (43_tree_serializer.md R157 to R159) -/

namespace Sys2Proof.Machine

/-- An arena that holds a tree's parsed nodes from handle `n` on holds the tree, its handles in preorder. -/
theorem fromArena_of_parsedNodes {look : Handle → Option Node} {tr : Tree} {n depth : Nat}
    (deep : tr.internalHandles.length < depth)
    (stored : ∀ e ∈ (tr.parsedNodes n).zipIdx n, look (BitVec.ofNat 9 e.2) = some e.1) :
    Tree.fromArena look depth (BitVec.ofNat 9 n) = some (tr.preorder n) := by
  induction tr generalizing n depth with
  | leaf h c =>
    obtain ⟨depth, rfl⟩ := Nat.exists_eq_add_one_of_ne_zero (Nat.ne_zero_of_lt deep)
    have here : look (BitVec.ofNat 9 n) = some (.leaf 0 c) := stored _ List.mem_cons_self
    simp only [Tree.fromArena, here, Tree.preorder]
  | internal h left right ihLeft ihRight =>
    obtain ⟨depth, rfl⟩ := Nat.exists_eq_add_one_of_ne_zero (Nat.ne_zero_of_lt deep)
    simp only [Tree.internalHandles, List.length_cons, List.length_append] at deep
    simp only [Tree.parsedNodes, List.zipIdx_cons, List.zipIdx_append, List.forall_mem_cons, List.forall_mem_append,
      Tree.parsedNodes_length] at stored
    obtain ⟨here, storedLeft, storedRight⟩ := stored
    have readLeft := ihLeft (depth := depth) (by omega) storedLeft
    have readRight := ihRight (depth := depth) (by omega) storedRight
    simp only [Tree.fromArena, here, readLeft, readRight, Tree.preorder]

/-- A tree installed from its parsed nodes is what the arena then holds. -/
theorem treeOf_installTree_parsedNodes {tr : Tree} (distinct : tr.symbols.Nodup) (k : Nat) (s : State) :
    treeOf (installTree (tr.parsedNodes 0) k 0 s) = some (tr.preorder 0) := by
  have few := Tree.internalHandles_length_le distinct
  have count := tr.handles_length_eq
  simp only [Config.maxInternal] at few
  refine fromArena_of_parsedNodes (n := 0) (by unfold Config.maxNodes; omega) fun ⟨node, i⟩ mem => ?_
  have entry : (tr.parsedNodes 0)[i]? = some node := List.mk_mem_zipIdx_iff_getElem?.mp mem
  have below : i < tr.handles.length := by
    simpa using (List.getElem?_eq_some_iff.mp entry).1
  have handle : (BitVec.ofNat 9 i).toNat = i := Nat.mod_eq_of_lt (by omega)
  have nodeCount : (BitVec.ofNat 10 tr.handles.length).toNat = tr.handles.length := Nat.mod_eq_of_lt (by omega)
  rw [nodeAt_installTree, Tree.parsedNodes_length, handle, nodeCount, if_pos below, entry]

/-- DESERIALIZE installs the nodes of a parse that ends. -/
theorem exec_deserialize_of_parse {s : State} {nodes : List Node} {p : ParseState}
    (inside : s.srcAddr.toNat + s.srcLen.toNat ≤ s.lmemSize.bytes)
    (parse : parseTree (8 * s.srcLen.toNat) (Config.maxNodes + 1) (parseStart s) = .ok (nodes, p)) :
    exec .deserialize s = .next (complete { installTree nodes p.seen.length 0 s with
      resultLen := BitVec.ofNat 32 (bytesFor p.pos) }) := by
  simp only [exec, execDeserialize, deserializeBody, (srcRangeOK_iff s).mpr inside, parse, Bool.not_true,
    Bool.false_eq_true, if_false, perform_ok]

/-- DESERIALIZE on a source that starts with a serialization installs that tree's parsed nodes and reads no further. -/
theorem exec_deserialize_of_ser {s : State} {tr : Tree} {rest : Bits}
    (inside : s.srcAddr.toNat + s.srcLen.toNat ≤ s.lmemSize.bytes) (distinct : tr.symbols.Nodup)
    (source : sourceBits s (8 * s.srcLen.toNat) = tr.ser ++ rest) :
    exec .deserialize s = .next (complete { installTree (tr.parsedNodes 0) tr.symbols.length 0 s with
      resultLen := BitVec.ofNat 32 (bytesFor tr.ser.length) }) := by
  have few := Tree.internalHandles_length_le distinct
  have deep : tr.internalHandles.length < Config.maxNodes + 1 := few.trans_lt (by decide)
  have parse := parseTree_ser (8 * s.srcLen.toNat) (p := parseStart s) deep source (by simpa [parseStart] using few)
    (by simpa [parseStart] using distinct)
  have pos : ((parseStart s).past tr rest).pos = tr.ser.length := Nat.zero_add _
  have seen : ((parseStart s).past tr rest).seen.length = tr.symbols.length := by simp [ParseState.past, parseStart]
  rw [exec_deserialize_of_parse inside parse, pos, seen]
  rfl

/-- Settles O31: the source range of DESERIALIZE reads the padded serialization that SERIALIZE stored
(`sourceBits_resultAsSource`), so it installs the tree with its handles in preorder (`exec_deserialize_of_ser`,
`treeOf_installTree_parsedNodes`), whose serialization and code table are the tree's own (`Tree.ser_preorder`,
`codeTable_preorder`). -/
theorem deserializeUndoesSerialize : Obligations.DeserializeUndoesSerialize := by
  intro s t1 tr inv valid reads inside room run
  have distinct := (inv.treeInv valid reads).distinctSymbols
  obtain ⟨out_length, out_bits⟩ := packBytes_padToByte tr.ser
  have stored := (exec_serialize_of_treeOf valid reads inside room).symm.trans run
  generalize packBytes (padToByte tr.ser) = out at out_length out_bits stored
  obtain rfl : complete (storeResult out s) = t1 := Host.Outcome.next.inj stored
  have out_room : out.length ≤ s.dstLen.toNat := out_length.trans_le room
  have source_inside : s.dstAddr.toNat + (storeResult out s).resultLen.toNat ≤ s.lmemSize.bytes := by
    rw [storeResult_resultLen_toNat out_room]
    omega
  have source := (sourceBits_resultAsSource out_room).trans out_bits
  have parsed := exec_deserialize_of_ser source_inside distinct source
  have reads2 := treeOf_installTree_parsedNodes distinct tr.symbols.length
    (resultAsSource (complete (storeResult out s)))
  have same_len : BitVec.ofNat 32 (bytesFor tr.ser.length) = (storeResult out s).resultLen := by
    rw [storeResult_resultLen, out_length]
  exact ⟨_, tr.preorder 0, _, _, parsed, rfl, reads2, Tree.ser_preorder tr 0, same_len,
    exec_gencodes_of_walkedTree valid (walkedTree_of_treeOf reads),
    exec_gencodes_of_walkedTree rfl (walkedTree_of_treeOf reads2), rfl, rfl, (codeTable_preorder tr 0).symm⟩

end Sys2Proof.Machine
end

section
/-! ## FLUSH (44_bit_packer.md R176) -/

namespace Sys2Proof.Machine

theorem exec_flush_of_beyond {s : State} (beyond : dstRangeOK s = false) :
    exec .flush s = .next (rejected 0x06 0 s) := by
  simp only [exec, execFlush, flushBody, beyond, Bool.not_false, if_true]
  rfl

theorem exec_flush_of_nothing_pending {s : State} (inside : dstRangeOK s = true) (nothing : s.pk = []) :
    exec .flush s = .next (complete { s with padOut := 0, resultLen := 0 }) := by
  simp [exec, execFlush, flushBody, inside, nothing]

theorem exec_flush_of_no_room {s : State} (inside : dstRangeOK s = true) (bits : s.pk ≠ [])
    (noRoom : s.dstLen.toNat = 0) : exec .flush s = .next (rejected 0x09 1 s) := by
  simp only [exec, execFlush, flushBody, inside, List.isEmpty_eq_false_iff.mpr bits, noRoom, Bool.not_true,
    Bool.false_eq_true, if_false, if_true]
  rfl

theorem exec_flush_of_room {s : State} (inside : dstRangeOK s = true) (bits : s.pk ≠ [])
    (room : s.dstLen.toNat ≠ 0) :
    exec .flush s = .next (complete { storeResult [bitsToByte (padRight 8 s.pk)] s with
      padOut := BitVec.ofNat 3 (8 - s.pk.length), pk := [] }) := by
  simp [exec, execFlush, flushBody, inside, List.isEmpty_eq_false_iff.mpr bits, room]

/-- The byte of FLUSH: the pending bits, then its zero bits. -/
theorem byteToBits_paddedByte {b : Bits} (le : b.length ≤ 7) :
    byteToBits (bitsToByte (padRight 8 b)) = b ++ List.replicate (8 - b.length) false :=
  byteToBits_bitsToByte_of_length (padRight_length 8 b (by omega))

/-- With 1 to 7 bits pending the pad count fits PAD_OUT. -/
theorem padOut_toNat {b : Bits} (bits : b ≠ []) : (BitVec.ofNat 3 (8 - b.length)).toNat = 8 - b.length := by
  have := List.length_pos_of_ne_nil bits
  exact Nat.mod_eq_of_lt (by omega)

/-- Settles O35: one equation of FLUSH for each of its four outcomes, and the byte that it stores
(`byteToBits_paddedByte`). -/
theorem flushPadsTheFinalByte : Obligations.FlushPadsTheFinalByte := by
  refine ⟨decodeWord_encodeInstr .flush, fun s => ⟨fun beyond => ?beyond, fun inside nothing => ?nothing,
    fun inside bits zero => ?noRoom, fun inside bits le room => ?room⟩⟩
  case beyond => exact exec_flush_of_beyond (by simpa [dstRangeOK, rangeOK] using beyond)
  case nothing => exact exec_flush_of_nothing_pending ((dstRangeOK_iff s).mpr inside) nothing
  case noRoom => exact exec_flush_of_no_room ((dstRangeOK_iff s).mpr inside) bits (congrArg BitVec.toNat zero)
  case room =>
    have room' : s.dstLen.toNat ≠ 0 := fun zero => room (BitVec.eq_of_toNat_eq zero)
    exact ⟨_, _, exec_flush_of_room ((dstRangeOK_iff s).mpr inside) bits room', rfl, padOut_toNat bits,
      Memory.get_set_same _ _ _, byteToBits_paddedByte le, Memory.setBytes_sameOutside [_] _ _⟩

end Sys2Proof.Machine
end

section
/-! ## A packed stream: successful ENCODE chunks and one FLUSH (44_bit_packer.md R171, R174) -/

namespace Sys2Proof.Machine

theorem abortedEncode.err {code : BitVec 8} {info : Word} {s t : State} (aborted : abortedEncode code info s t) :
    t.err = true := by
  rw [aborted.1]
  rfl

theorem readCode_of_written {s : State} {c : Byte} {b : Bits} (written : s.code[c.toNat]'c.isLt = .written b) :
    readCode s c = tableCode s.code c := by
  simp only [readCode, tableCode, written]

theorem flatMap_byteToBits_length (bytes : List Byte) : (bytes.flatMap byteToBits).length = 8 * bytes.length := by
  simp [List.length_flatMap, Nat.mul_comm]

/-- The RESULT_LEN bytes read back from DST_ADDR on after a command are the bytes it stored. -/
theorem eq_of_holds_storeResult {s : State} {out read : List Byte} (room : out.length ≤ s.dstLen.toNat)
    (len : read.length = (storeResult out s).resultLen.toNat)
    (bytes : holdsBytes (storeResult out s).lmem s.dstAddr.toNat read) : read = out := by
  have same_length : read.length = out.length := len.trans (storeResult_resultLen_toNat room)
  refine List.ext_getElem same_length fun i lt_read lt_out => ?_
  exact Option.some.inj ((bytes i lt_read).symm.trans (Memory.setBytes_holdsBytes out _ _ i lt_out))

/-! ## The error record does not enter (60_exceptions.md R219) -/

@[simp] theorem dstRangeOK_acknowledgeError (s : State) : dstRangeOK (acknowledgeError s) = dstRangeOK s := rfl
@[simp] theorem sourceDestError_acknowledgeError (s : State) :
    sourceDestError (acknowledgeError s) = sourceDestError s := rfl
@[simp] theorem sourceBytes_acknowledgeError (s : State) : sourceBytes (acknowledgeError s) = sourceBytes s := rfl
@[simp] theorem readCode_acknowledgeError (s : State) (c : Byte) :
    readCode (acknowledgeError s) c = readCode s c := rfl

@[simp] theorem encodeLoop_acknowledgeError (s : State) (i written : Nat) (pk : Bits) (syms : List Byte) :
    encodeLoop (acknowledgeError s) i written pk syms = encodeLoop s i written pk syms := by
  induction syms generalizing i written pk with
  | nil => rfl
  | cons c rest ih => simp only [encodeLoop, readCode_acknowledgeError, acknowledgeError_dstLen, ih]

/-! ## A successful ENCODE, a successful FLUSH, and the stream -/

/-- An ENCODE that succeeds stores what its symbol loop emits; an older error in the record does not enter. -/
theorem exec_encode_of_succeeds {s : State} (ok : succeeds .encode s) :
    ∃ out pk, encodeLoop s 0 0 s.pk (sourceBytes s) = .ok (out, pk) ∧
      exec .encode s = .next (complete { storeResult out s with pk := pk }) := by
  obtain ⟨t, run, noError⟩ := ok
  obtain ⟨_, rfl⟩ | ⟨e, _, _, rfl⟩ | ⟨valid, checks, ⟨e, _, aborted⟩ | ⟨out, pk, loop, _⟩⟩ := exec_encode_cases run
  · cases noError
  · cases noError
  · cases aborted.err.symm.trans noError
  · simp only [acknowledgeError_codesValid, sourceDestError_acknowledgeError, encodeLoop_acknowledgeError,
      acknowledgeError_pk, sourceBytes_acknowledgeError] at valid checks loop
    exact ⟨out, pk, loop, by simp [exec, execEncode, encodeBody, valid, checks, loop]⟩

/-- A FLUSH that succeeds stores the pending bits and PAD_OUT zero bits as whole bytes, none or one; an older error in
the record does not enter. -/
theorem exec_flush_of_succeeds {s : State} (few : s.pk.length < 8) (ok : succeeds .flush s) :
    ∃ out pad, exec .flush s = .next (complete { storeResult out s with padOut := pad, pk := [] }) ∧
      out.length ≤ s.dstLen.toNat ∧ out.flatMap byteToBits = s.pk ++ List.replicate pad.toNat false ∧
      pad.toNat = (8 - s.pk.length) % 8 := by
  obtain ⟨t, run, noError⟩ := ok
  obtain ⟨_, rfl⟩ | ⟨inside, nothing, _⟩ | ⟨_, _, _, rfl⟩ | ⟨inside, bits, room, _⟩ := exec_flush_cases run
  · cases noError
  · simp only [dstRangeOK_acknowledgeError, acknowledgeError_pk] at inside nothing
    refine ⟨[], 0, ?_, Nat.zero_le _, by simp [nothing], by simp [nothing]⟩
    rw [exec_flush_of_nothing_pending inside nothing, ← nothing]
    rfl
  · cases noError
  · simp only [dstRangeOK_acknowledgeError, acknowledgeError_pk, acknowledgeError_dstLen] at inside bits room
    have some_bit := List.length_pos_of_ne_nil bits
    refine ⟨_, _, exec_flush_of_room inside bits room, Nat.one_le_iff_ne_zero.mpr room, ?_, ?_⟩
    · rw [padOut_toNat bits, List.flatMap_singleton, byteToBits_paddedByte (by omega)]
    · rw [padOut_toNat bits, Nat.mod_eq_of_lt (by omega)]

/-- What chunks keep: the bytes written so far and the bits pending are the codes of the symbols so far, and fewer than
8 bits are pending. -/
theorem PackedSoFar.bits {table : Vector (Contents Bits) 256} {S B : List Byte} {s : State}
    (written : ∀ c : Byte, ∃ b, table[c.toNat]'c.isLt = .written b) (packed : PackedSoFar table S B s) :
    B.flatMap byteToBits ++ s.pk = S.flatMap (tableCode table) ∧ s.pk.length < 8 := by
  induction packed with
  | start s empty => simp [empty]
  | chunk S B s s' t out before samePk sameCode run ok len bytes ih =>
    obtain ⟨ihBits, ihFew⟩ := ih
    subst sameCode
    obtain ⟨stored, pk, loop, run'⟩ := exec_encode_of_succeeds ok
    obtain rfl := Host.Outcome.next.inj (run.symm.trans run')
    obtain ⟨_, loopBits, few, room⟩ := encodeLoop_ok loop (samePk ▸ ihFew)
    obtain rfl : out = stored := eq_of_holds_storeResult (by simpa using room) len bytes
    have codes : readCode s' = tableCode s'.code := funext fun c =>
      have ⟨_, entry⟩ := written c
      readCode_of_written entry
    refine ⟨?_, few⟩
    calc (B ++ out).flatMap byteToBits ++ pk
      _ = B.flatMap byteToBits ++ (out.flatMap byteToBits ++ pk) := by rw [List.flatMap_append, List.append_assoc]
      _ = (B.flatMap byteToBits ++ s.pk) ++ (sourceBytes s').flatMap (readCode s') := by
        rw [loopBits, samePk, List.append_assoc]
      _ = (S ++ sourceBytes s').flatMap (tableCode s'.code) := by rw [ihBits, codes, List.flatMap_append]

/-- Settles O36: the chunks keep `PackedSoFar.bits`, the FLUSH adds the bits that pend and PAD_OUT zero bits
(`exec_flush_of_succeeds`), and the counts follow from the bits' number. -/
theorem chunkingDoesNotChangeThePackedBytes : Obligations.ChunkingDoesNotChangeThePackedBytes := by
  intro table S B s s' t out written packed samePk run ok len bytes
  obtain ⟨packedBits, few⟩ := packed.bits written
  rw [← samePk] at packedBits few
  obtain ⟨stored, pad, run', room, flushedBits, padCount⟩ := exec_flush_of_succeeds few ok
  obtain rfl := Host.Outcome.next.inj (run.symm.trans run')
  obtain rfl : out = stored := eq_of_holds_storeResult room len bytes
  have packedLength := congrArg List.length packedBits
  have flushedLength := congrArg List.length flushedBits
  simp only [List.length_append, flatMap_byteToBits_length, List.length_replicate] at packedLength flushedLength
  refine ⟨?bits, ?padOut, ?count⟩
  case bits => rw [List.flatMap_append, flushedBits, ← packedBits, List.append_assoc]; rfl
  case padOut => show pad.toNat = _; omega
  case count => rw [List.length_append, bytesFor]; omega

end Sys2Proof.Machine
end

section
/-! ## Decoding, and one step by its event (30_encoding.md R91, 20_memory.md R73) -/

namespace Sys2Proof.Machine

/-- Settles O2: every command's word decodes to it, and a word decodes to a command only if it is the command's
(`decodeWord_eq_ok_iff`). -/
theorem decodeAndEncodeAreInverse : Obligations.DecodeAndEncodeAreInverse :=
  ⟨fun i _ => decodeWord_encodeInstr i, fun _ _ => decodeWord_eq_ok_iff.mp⟩

/-- Settles O3: the legal words are the words of the commands; each illegal one has an OP above 8, a LAST that is not
DECODE's, or a reserved bit. -/
theorem wordsOfTheOpcodeMapDecode : Obligations.WordsOfTheOpcodeMapDecode :=
  ⟨decodeWord_encodeInstr .nop, decodeWord_encodeInstr .clear, decodeWord_encodeInstr .build,
    decodeWord_encodeInstr .gencodes, decodeWord_encodeInstr .serialize, decodeWord_encodeInstr .deserialize,
    decodeWord_encodeInstr .encode, decodeWord_encodeInstr .flush, decodeWord_encodeInstr (.decode false),
    decodeWord_encodeInstr (.decode true), by decide, by decide, by decide, by decide⟩

theorem step_of_access {s : State} {a : Access} {rest : List Event} (next : s.agenda = .access a :: rest) :
    step s = hostStep a (beginEvent rest s) := by
  simp only [step, nextEvent, next, eventStep]

theorem step_of_reset {s : State} {rest : List Event} (next : s.agenda = .reset :: rest) :
    step s = .next (resetBlock (beginEvent rest s)) := by
  simp only [step, nextEvent, next, eventStep]

/-- The engine has the turn: it is next on the agenda, or nothing is. `rest` comes after it. -/
def engineNext (s : State) (rest : List Event) : Prop := s.agenda = .engine :: rest ∨ (s.agenda = [] ∧ rest = [])

theorem step_of_engineNext {s : State} {rest : List Event} (turn : engineNext s rest) :
    step s = engineStep (beginEvent rest s) := by
  rcases turn with next | ⟨nothing, rfl⟩
  · simp only [step, nextEvent, next, eventStep]
  · simp only [step, nextEvent, nothing, eventStep]

theorem engineStep_of_ok {s : State} {w : Word} {i : Instr} (pending : s.pending = some w)
    (decoded : decodeWord w = .ok i) : engineStep s = exec i s := by
  simp only [engineStep, pending, decoded]

theorem engineStep_of_idle {s : State} (idle : s.pending = none) : engineStep s = .next s := by
  simp only [engineStep, idle]

/-- Settles O5: `step` takes the event off the agenda and performs it, and the engine's turn is `exec` of the decoded
word. -/
theorem stepPerformsTheDecodedCommand : Obligations.StepPerformsTheDecodedCommand :=
  ⟨fun _ _ _ _ pending decoded turn => (step_of_engineNext turn).trans (engineStep_of_ok pending decoded),
    fun _ _ _ => step_of_access, fun _ _ => step_of_reset,
    fun _ _ idle turn => (step_of_engineNext turn).trans (engineStep_of_idle idle)⟩

end Sys2Proof.Machine
end

section
/-! ## Range checks (20_memory.md R81, R82), and the Rejects of the commands (60_exceptions.md R212, R215) -/

namespace Sys2Proof.Machine

/-- Two ranges overlap exactly when both hold a byte; the later of their first bytes is then one. -/
theorem overlap_iff (sa sl da dl : Word) : overlap sa sl da dl = true ↔
    ∃ x : Nat, (sa.toNat ≤ x ∧ x < sa.toNat + sl.toNat) ∧ (da.toNat ≤ x ∧ x < da.toNat + dl.toNat) := by
  simp only [overlap, Bool.and_eq_true, decide_eq_true_iff]
  constructor
  · rintro ⟨⟨⟨srcByte, dstByte⟩, srcBelow⟩, dstBelow⟩
    exact ⟨max sa.toNat da.toNat, by omega, by omega⟩
  · rintro ⟨x, inSrc, inDst⟩
    omega

/-- Settles O58: the range check compares natural numbers (`rangeOK_iff`), and so does the overlap check
(`overlap_iff`). -/
theorem rangeAndOverlapChecks : Obligations.RangeAndOverlapChecks := ⟨rangeOK_iff, overlap_iff⟩

theorem rangeOK_eq_false_iff (s : State) (a l : Word) :
    rangeOK s a l = false ↔ s.lmemSize.bytes < a.toNat + l.toNat := by
  rw [← Bool.not_eq_true, rangeOK_iff, not_le]

theorem srcRangeOK_eq_false_iff (s : State) :
    srcRangeOK s = false ↔ s.lmemSize.bytes < s.srcAddr.toNat + s.srcLen.toNat :=
  rangeOK_eq_false_iff s _ _

theorem dstRangeOK_eq_false_iff (s : State) :
    dstRangeOK s = false ↔ s.lmemSize.bytes < s.dstAddr.toNat + s.dstLen.toNat :=
  rangeOK_eq_false_iff s _ _

theorem sourceDestError_of_src {s : State} (beyond : srcRangeOK s = false) :
    sourceDestError s = some (rejectError .srcRange 0) := by
  simp only [sourceDestError, beyond, Bool.not_false, if_true]

theorem sourceDestError_of_dst {s : State} (src : srcRangeOK s = true) (beyond : dstRangeOK s = false) :
    sourceDestError s = some (rejectError .dstRange 0) := by
  simp only [sourceDestError, src, beyond, Bool.not_true, Bool.not_false, Bool.false_eq_true, if_false, if_true]

theorem sourceDestError_of_overlap {s : State} (src : srcRangeOK s = true) (dst : dstRangeOK s = true)
    (common : rangesOverlap s = true) : sourceDestError s = some (rejectError .overlap 0) := by
  simp only [sourceDestError, src, dst, common, Bool.not_true, Bool.false_eq_true, if_false, if_true]

theorem sourceDestError_of_inside {s : State} (src : s.srcAddr.toNat + s.srcLen.toNat ≤ s.lmemSize.bytes)
    (dst : s.dstAddr.toNat + s.dstLen.toNat ≤ s.lmemSize.bytes) (apart : rangesOverlap s = false) :
    sourceDestError s = none :=
  (sourceDestError_none_iff s).mpr ⟨(srcRangeOK_iff s).mpr src, (dstRangeOK_iff s).mpr dst, apart⟩

theorem exec_build_of_no_symbol {s : State} (nothing : presentSymbols s = []) :
    exec .build s = .next (rejected 0x02 0 s) := by
  simp only [exec, execBuild, buildBody, nothing, List.isEmpty_nil, if_true]
  rfl

theorem exec_gencodes_of_no_tree {s : State} (noTree : s.treeValid = false) :
    exec .gencodes s = .next (rejected 0x03 0 s) := by
  simp only [exec, execGencodes, noTree, Bool.not_false, if_true]
  rfl

/-- With every count 0 no symbol is present. -/
theorem countedSymbols_zero : countedSymbols (fun _ => 0) = [] := by
  simp [countedSymbols]

/-- Settles O16: BUILD finds no symbol present, and GENCODES no tree. -/
theorem buildAndGencodesReject : Obligations.BuildAndGencodesReject := fun _ =>
  ⟨fun zero => exec_build_of_no_symbol ((presentSymbols_of_written zero).trans countedSymbols_zero),
    exec_gencodes_of_no_tree⟩

theorem exec_serialize_of_no_tree {s : State} (noTree : s.treeValid = false) :
    exec .serialize s = .next (rejected 0x03 0 s) := by
  simp only [exec, execSerialize, noTree, Bool.not_false, if_true]
  rfl

theorem exec_serialize_of_beyond {s : State} (valid : s.treeValid = true) (beyond : dstRangeOK s = false) :
    exec .serialize s = .next (rejected 0x06 0 s) := by
  simp only [exec, execSerialize, valid, beyond, Bool.not_true, Bool.not_false, Bool.false_eq_true, if_false, if_true]
  rfl

theorem exec_serialize_of_no_room {s : State} {tr : Tree} (valid : s.treeValid = true) (inside : dstRangeOK s = true)
    (reads : treeOf s = some tr) (noRoom : s.dstLen.toNat < bytesFor tr.ser.length) :
    exec .serialize s = .next (rejected 0x09 (BitVec.ofNat 32 (bytesFor tr.ser.length)) s) := by
  simp only [exec, execSerialize, serializeBody, valid, inside, walkedTree_of_treeOf reads, noRoom, Bool.not_true,
    Bool.false_eq_true, if_false, if_true]
  rfl

/-- Settles O26: one equation of SERIALIZE for each of its three Rejects. -/
theorem serializeChecksInOrder : Obligations.SerializeChecksInOrder := fun s =>
  ⟨exec_serialize_of_no_tree,
    fun valid beyond => exec_serialize_of_beyond valid ((dstRangeOK_eq_false_iff s).mpr beyond),
    fun _ valid inside => exec_serialize_of_no_room valid ((dstRangeOK_iff s).mpr inside)⟩

theorem exec_encode_of_no_codes {s : State} (noCodes : s.codesValid = false) :
    exec .encode s = .next (rejected 0x04 0 s) := by
  simp only [exec, execEncode, encodeBody, noCodes, Bool.not_false, if_true]
  rfl

theorem exec_encode_of_sourceDestError {s : State} {c : ErrCode} {info : Nat} (codes : s.codesValid = true)
    (checks : sourceDestError s = some (rejectError c info)) :
    exec .encode s = .next (rejected c.toByte (BitVec.ofNat 32 info) s) := by
  simp only [exec, execEncode, encodeBody, codes, checks, Bool.not_true, Bool.false_eq_true, if_false]
  rfl

/-- Settles O32: NO_CODES, then the three checks of the ranges in the order of `sourceDestError`. -/
theorem encodeChecksInOrder : Obligations.EncodeChecksInOrder := by
  refine fun s => ⟨exec_encode_of_no_codes, fun codes beyond => ?src, fun codes src beyond => ?dst,
    fun codes src dst common => ?overlap⟩
  case src =>
    exact exec_encode_of_sourceDestError codes (sourceDestError_of_src ((srcRangeOK_eq_false_iff s).mpr beyond))
  case dst =>
    exact exec_encode_of_sourceDestError codes
      (sourceDestError_of_dst ((srcRangeOK_iff s).mpr src) ((dstRangeOK_eq_false_iff s).mpr beyond))
  case overlap =>
    exact exec_encode_of_sourceDestError codes
      (sourceDestError_of_overlap ((srcRangeOK_iff s).mpr src) ((dstRangeOK_iff s).mpr dst) common)

theorem exec_decode_of_no_tree {s : State} (last : Bool) (noTree : s.treeValid = false) :
    exec (.decode last) s = .next (rejected 0x03 0 s) := by
  simp only [exec, execDecode, decodeBody, noTree, Bool.not_false, if_true]
  rfl

theorem exec_decode_of_sourceDestError {s : State} {c : ErrCode} {info : Nat} (last : Bool)
    (valid : s.treeValid = true) (checks : sourceDestError s = some (rejectError c info)) :
    exec (.decode last) s = .next (rejected c.toByte (BitVec.ofNat 32 info) s) := by
  simp only [exec, execDecode, decodeBody, valid, checks, Bool.not_true, Bool.false_eq_true, if_false]
  rfl

theorem exec_decode_of_badPad {s : State} {last : Bool} (valid : s.treeValid = true)
    (checks : sourceDestError s = none) (bad : badPad last s = true) :
    exec (.decode last) s = .next (rejected 0x08 (BitVec.ofNat 32 s.padIn.toNat) s) := by
  simp only [exec, execDecode, decodeBody, valid, checks, bad, Bool.not_true, Bool.false_eq_true, if_false, if_true]
  rfl

theorem badPad_eq_true_iff {last : Bool} {s : State} : badPad last s = true ↔
    last = true ∧ (7 < s.padIn.toNat ∨ 8 * s.srcLen.toNat < s.padIn.toNat) := by
  simp [badPad]

/-- Settles O37: NO_TREE, the three checks of the ranges in the order of `sourceDestError`, then BAD_PAD. -/
theorem decodeChecksInOrder : Obligations.DecodeChecksInOrder := by
  refine fun last s => ⟨exec_decode_of_no_tree last, fun valid beyond => ?src, fun valid src beyond => ?dst,
    fun valid src dst common => ?overlap, fun valid src dst apart isLast bad => ?pad⟩
  case src =>
    exact exec_decode_of_sourceDestError last valid (sourceDestError_of_src ((srcRangeOK_eq_false_iff s).mpr beyond))
  case dst =>
    exact exec_decode_of_sourceDestError last valid
      (sourceDestError_of_dst ((srcRangeOK_iff s).mpr src) ((dstRangeOK_eq_false_iff s).mpr beyond))
  case overlap =>
    exact exec_decode_of_sourceDestError last valid
      (sourceDestError_of_overlap ((srcRangeOK_iff s).mpr src) ((dstRangeOK_iff s).mpr dst) common)
  case pad =>
    have checks := sourceDestError_of_inside src dst apart
    rw [← BitVec.ofNat_toNat 32 s.padIn]
    exact exec_decode_of_badPad valid checks (badPad_eq_true_iff.mpr ⟨isLast, bad⟩)

end Sys2Proof.Machine
end

section
/-! ## What every command leaves: completion, its frame and the error record (40_control.md R113, 60_exceptions.md R214) -/

namespace Sys2Proof.Machine

/-- The error record is as before, or shows an error of R210 with RESULT_LEN = 0. -/
def recordsAtMostOne (s t : State) : Prop :=
  (t.err = s.err ∧ t.errCode = s.errCode ∧ t.errInfo = s.errInfo) ∨
    (t.err = true ∧ 0x01 ≤ t.errCode.toNat ∧ t.errCode.toNat ≤ 0x0F ∧ t.resultLen = 0)

theorem recordsAtMostOne_perform {r : Except CmdError State} {s : State}
    (body : ∀ u, r = .ok u → u.err = s.err ∧ u.errCode = s.errCode ∧ u.errInfo = s.errInfo) :
    recordsAtMostOne s (perform r s) := by
  cases r with
  | ok u => exact .inl (body u rfl)
  | error e => exact .inr ⟨rfl, e.code.toByte_bounds.1, e.code.toByte_bounds.2, rfl⟩

theorem perform_pending (r : Except CmdError State) (s : State) : (perform r s).pending = none := by
  cases r <;> rfl

theorem perform_done (r : Except CmdError State) (s : State) : (perform r s).done = true := by
  cases r <;> rfl

/-! ## The results of the bodies -/

theorem buildBody_ok {s u : State} (body : buildBody s = .ok u) :
    presentSymbols s ≠ [] ∧ u = installTree (buildNodes (leafNodes s (presentSymbols s))).2 (presentSymbols s).length
      (BitVec.ofNat 9 (buildNodes (leafNodes s (presentSymbols s))).1) s := by
  simp only [buildBody] at body
  split at body
  · cases body
  · next present => exact ⟨by simpa using present, (Except.ok.inj body).symm⟩

theorem serializeBody_ok {tr : Tree} {s u : State} (body : serializeBody tr s = .ok u) :
    bytesFor tr.ser.length ≤ s.dstLen.toNat ∧ u = storeResult (packBytes (padToByte tr.ser)) s := by
  simp only [serializeBody] at body
  split at body
  · cases body
  · next room => exact ⟨not_lt.mp room, (Except.ok.inj body).symm⟩

theorem deserializeBody_ok {s u : State} (body : deserializeBody s = .ok u) :
    ∃ nodes p, parseTree (8 * s.srcLen.toNat) (Config.maxNodes + 1) (parseStart s) = .ok (nodes, p) ∧
      u = { installTree nodes p.seen.length 0 s with resultLen := BitVec.ofNat 32 (bytesFor p.pos) } := by
  simp only [deserializeBody] at body
  split at body
  · cases body
  · split at body
    · cases body
    · next nodes p parse => exact ⟨nodes, p, parse, (Except.ok.inj body).symm⟩

theorem encodeBody_ok {s u : State} (body : encodeBody s = .ok u) :
    ∃ out pk, s.codesValid = true ∧ sourceDestError s = none ∧
      encodeLoop s 0 0 s.pk (sourceBytes s) = .ok (out, pk) ∧ u = { storeResult out s with pk := pk } := by
  simp only [encodeBody] at body
  split at body
  · cases body
  · next codes =>
    split at body
    · cases body
    · next checks =>
      split at body
      · cases body
      · next out pk loop => exact ⟨out, pk, by simpa using codes, checks, loop, (Except.ok.inj body).symm⟩

theorem flushBody_ok {s u : State} (body : flushBody s = .ok u) :
    dstRangeOK s = true ∧ ((s.pk = [] ∧ u = { s with padOut := 0, resultLen := 0 }) ∨
      (s.pk ≠ [] ∧ s.dstLen.toNat ≠ 0 ∧ u = { storeResult [bitsToByte (padRight 8 s.pk)] s with
        padOut := BitVec.ofNat 3 (8 - s.pk.length), pk := [] })) := by
  simp only [flushBody] at body
  split at body
  · cases body
  · next inside =>
    refine ⟨by simpa using inside, ?_⟩
    split at body
    · next nothing => exact .inl ⟨List.isEmpty_iff.mp nothing, (Except.ok.inj body).symm⟩
    · next bits =>
      split at body
      · cases body
      · next room => exact .inr ⟨by simpa using bits, room, (Except.ok.inj body).symm⟩

theorem decodeBody_ok {last : Bool} {s u : State} (body : decodeBody last s = .ok u) :
    ∃ out n, s.treeValid = true ∧ sourceDestError s = none ∧
      decodeLoop s 0 0 s.decNode (sourceBits s (8 * s.srcLen.toNat - padCount last s)) = .ok (out, n) ∧
      u = { storeResult out s with decNode := n } := by
  simp only [decodeBody] at body
  split at body
  · cases body
  · next valid =>
    split at body
    · cases body
    · next checks =>
      split at body
      · cases body
      · split at body
        · cases body
        · next out n loop =>
          split at body
          · cases body
          · exact ⟨out, n, by simpa using valid, checks, loop, (Except.ok.inj body).symm⟩

/-- A command's next state is its body's result, completed; the body keeps the error record. -/
theorem exec_eq_perform {i : Instr} {s t : State} (run : exec i s = .next t) :
    ∃ r, t = perform r s ∧ ∀ u, r = .ok u → u.err = s.err ∧ u.errCode = s.errCode ∧ u.errInfo = s.errInfo := by
  cases i with
  | nop => exact ⟨_, (Host.Outcome.next.inj run).symm, fun u ok => by cases ok; exact ⟨rfl, rfl, rfl⟩⟩
  | clear => exact ⟨_, (Host.Outcome.next.inj run).symm, fun u ok => by cases ok; exact ⟨rfl, rfl, rfl⟩⟩
  | build =>
    refine ⟨_, (Host.Outcome.next.inj run).symm, fun u ok => ?_⟩
    obtain ⟨-, rfl⟩ := buildBody_ok ok
    exact ⟨rfl, rfl, rfl⟩
  | gencodes =>
    rcases exec_gencodes_cases run with ⟨-, rfl⟩ | ⟨tr, -, -, rfl⟩
    · exact ⟨.error (rejectError .noTree 0), rfl, fun u err => by cases err⟩
    · exact ⟨.ok _, rfl, fun u ok => by cases ok; exact ⟨rfl, rfl, rfl⟩⟩
  | serialize =>
    rcases exec_serialize_cases run with ⟨-, rfl⟩ | ⟨-, -, rfl⟩ | ⟨tr, -, -, -, ⟨-, rfl⟩ | ⟨-, rfl⟩⟩
    · exact ⟨.error (rejectError .noTree 0), rfl, fun u err => by cases err⟩
    · exact ⟨.error (rejectError .dstRange 0), rfl, fun u err => by cases err⟩
    · exact ⟨.error (rejectError .dstOverflow _), rfl, fun u err => by cases err⟩
    · exact ⟨.ok _, rfl, fun u ok => by cases ok; exact ⟨rfl, rfl, rfl⟩⟩
  | deserialize =>
    refine ⟨_, (Host.Outcome.next.inj run).symm, fun u ok => ?_⟩
    obtain ⟨nodes, p, -, rfl⟩ := deserializeBody_ok ok
    exact ⟨rfl, rfl, rfl⟩
  | encode =>
    refine ⟨_, (Host.Outcome.next.inj run).symm, fun u ok => ?_⟩
    obtain ⟨out, pk, -, -, -, rfl⟩ := encodeBody_ok ok
    exact ⟨rfl, rfl, rfl⟩
  | flush =>
    refine ⟨_, (Host.Outcome.next.inj run).symm, fun u ok => ?_⟩
    obtain ⟨-, ⟨-, rfl⟩ | ⟨-, -, rfl⟩⟩ := flushBody_ok ok
    · exact ⟨rfl, rfl, rfl⟩
    · exact ⟨rfl, rfl, rfl⟩
  | decode last =>
    refine ⟨_, (Host.Outcome.next.inj run).symm, fun u ok => ?_⟩
    obtain ⟨out, n, -, -, -, rfl⟩ := decodeBody_ok ok
    exact ⟨rfl, rfl, rfl⟩

/-- Settles O10: every command ends through `perform` (`exec_eq_perform`), which completes and records an error only where
the body raised one. -/
theorem completionRecordsAtMostOneError : Obligations.CompletionRecordsAtMostOneError := by
  intro i s t run
  obtain ⟨r, rfl, body⟩ := exec_eq_perform run
  exact ⟨perform_pending r s, perform_done r s, recordsAtMostOne_perform body⟩

/-- An Abort of ENCODE writes what `rejected` does, PK and LMEM. -/
theorem abortedEncode.frame {code : BitVec 8} {info : Word} {s t : State} (aborted : abortedEncode code info s t) :
    ∃ m, t = { rejected code info s with pk := [], lmem := m } :=
  ⟨_, aborted.1⟩

/-- An Abort of DECODE writes what `rejected` does, DEC_NODE and LMEM. -/
theorem abortedDecode.frame {code : BitVec 8} {info : Word} {s t : State} (aborted : abortedDecode code info s t) :
    ∃ m, t = { rejected code info s with decNode := s.root, lmem := m } :=
  ⟨_, aborted.1⟩

/-- Settles O11: each outcome of each command (`exec_build_cases` and its siblings) is an update of the fields named. -/
theorem commandsWriteOnlyTheirOwnFields : Obligations.CommandsWriteOnlyTheirOwnFields := by
  refine fun s t => ⟨fun run => ?nop, fun run => ?clear, fun run => ?build, fun run => ?gencodes, fun run => ?serialize,
    fun run => ?deserialize, fun run => ?encode, fun run => ?flush, fun last run => ?decode⟩
  case nop => exact (Host.Outcome.next.inj run).symm
  case clear => cases run; rfl
  case build => rcases exec_build_cases run with ⟨-, rfl⟩ | ⟨-, rfl⟩ <;> rfl
  case gencodes => rcases exec_gencodes_cases run with ⟨-, rfl⟩ | ⟨tr, -, -, rfl⟩ <;> rfl
  case serialize =>
    rcases exec_serialize_cases run with ⟨-, rfl⟩ | ⟨-, -, rfl⟩ | ⟨tr, -, -, -, ⟨-, rfl⟩ | ⟨-, rfl⟩⟩ <;> rfl
  case deserialize =>
    rcases exec_deserialize_cases run with ⟨-, rfl⟩ | ⟨e, -, -, rfl⟩ | ⟨nodes, p, -, -, rfl⟩ <;> rfl
  case encode =>
    rcases exec_encode_cases run with
      ⟨-, rfl⟩ | ⟨e, -, -, rfl⟩ | ⟨-, -, ⟨e, -, aborted⟩ | ⟨out, pk, -, rfl⟩⟩
    · rfl
    · rfl
    · obtain ⟨m, rfl⟩ := aborted.frame
      rfl
    · rfl
  case flush =>
    rcases exec_flush_cases run with ⟨-, rfl⟩ | ⟨-, -, rfl⟩ | ⟨-, -, -, rfl⟩ | ⟨-, -, -, rfl⟩ <;> rfl
  case decode =>
    rcases exec_decode_cases run with
      ⟨-, rfl⟩ | ⟨e, -, -, rfl⟩ | ⟨-, -, -, rfl⟩ | ⟨-, -, -, ⟨e, aborted, -⟩ | ⟨out, n, -, -, rfl⟩⟩
    · rfl
    · rfl
    · rfl
    · obtain ⟨m, rfl⟩ := aborted.frame
      rfl
    · rfl

/-- The fields that no command writes, gathered. -/
theorem exec_frame {i : Instr} {s t : State} (run : exec i s = .next t) :
    t.doneIE = s.doneIE ∧ t.errIE = s.errIE ∧ t.lmemSize = s.lmemSize ∧ t.agenda = s.agenda := by
  obtain ⟨nop, clear, build, gencodes, serialize, deserialize, encode, flush, decode⟩ :=
    commandsWriteOnlyTheirOwnFields s t
  cases i with
  | nop => rw [nop run]; exact ⟨rfl, rfl, rfl, rfl⟩
  | clear => rw [clear run]; exact ⟨rfl, rfl, rfl, rfl⟩
  | build => rw [build run]; exact ⟨rfl, rfl, rfl, rfl⟩
  | gencodes => rw [gencodes run]; exact ⟨rfl, rfl, rfl, rfl⟩
  | serialize => rw [serialize run]; exact ⟨rfl, rfl, rfl, rfl⟩
  | deserialize => rw [deserialize run]; exact ⟨rfl, rfl, rfl, rfl⟩
  | encode => rw [encode run]; exact ⟨rfl, rfl, rfl, rfl⟩
  | flush => rw [flush run]; exact ⟨rfl, rfl, rfl, rfl⟩
  | decode last => rw [decode last run]; exact ⟨rfl, rfl, rfl, rfl⟩

theorem irq_eq_true_iff (s : State) :
    irq s = true ↔ (s.done = true ∧ s.doneIE = true) ∨ (s.err = true ∧ s.errIE = true) := by
  simp [irq]

/-- Settles O57: a completed command has DONE = 1 (`completionRecordsAtMostOneError`) and the enables as they were
(`exec_frame`). -/
theorem completionDrivesTheInterrupt : Obligations.CompletionDrivesTheInterrupt := by
  refine fun s => ⟨irq_eq_true_iff s, fun i t run => ?_⟩
  obtain ⟨-, done, -⟩ := completionRecordsAtMostOneError i s t run
  obtain ⟨doneIE, errIE, -, -⟩ := exec_frame run
  rw [irq, done, doneIE, errIE, Bool.true_and]

end Sys2Proof.Machine
end

section
/-! ## LMEM: what a command stores, and its bounds (20_memory.md R62, R69; 60_exceptions.md R213) -/

namespace Sys2Proof.Machine

/-- LMEM after a command: as before, or with the command's bytes stored from DST_ADDR on within the destination range, or
with that range forgotten by an Abort. -/
inductive Stores (s t : State) : Prop where
  | nothing (lmem : t.lmem = s.lmem)
  | result (out : List Byte) (inside : dstRangeOK s = true) (room : out.length ≤ s.dstLen.toNat)
      (lmem : t.lmem = Memory.setBytes s.lmem s.dstAddr.toNat out) (len : t.resultLen = BitVec.ofNat 32 out.length)
  | forgets (lmem : t.lmem = Memory.forget s.lmem s.dstAddr.toNat s.dstLen.toNat)

theorem abortRow_lmem (k : ErrClass) (s : State) : (abortRow k s).lmem = s.lmem ∨
    (abortRow k s).lmem = Memory.forget s.lmem s.dstAddr.toNat s.dstLen.toNat := by
  cases k with
  | reject => exact .inl rfl
  | abortDeserialize => exact .inl rfl
  | abortEncode => exact .inr rfl
  | abortDecode => exact .inr rfl

theorem stores_perform {r : Except CmdError State} {s : State} (body : ∀ u, r = .ok u → Stores s (complete u)) :
    Stores s (perform r s) := by
  cases r with
  | ok u => exact body u rfl
  | error e =>
    rcases abortRow_lmem e.cls s with same | forgotten
    · exact .nothing same
    · exact .forgets forgotten

/-- Where the checks of ENCODE and DECODE pass the destination range is in LMEM. -/
theorem dstRangeOK_of_checks {s : State} (checks : sourceDestError s = none) : dstRangeOK s = true :=
  ((sourceDestError_none_iff s).mp checks).2.1

/-- What one symbol adds to a symbol loop that ends: it has a code, whose complete bytes have room. -/
theorem encodeLoop_cons_ok {s : State} {i written : Nat} {pk pk' : Bits} {c : Byte} {rest out : List Byte}
    (loop : encodeLoop s i written pk (c :: rest) = .ok (out, pk')) :
    readCode s c ≠ [] ∧ ∃ out1 pk1 out2, emitBytes s.dstLen.toNat written (pk ++ readCode s c) = some (out1, pk1) ∧
      encodeLoop s (i + 1) (written + out1.length) pk1 rest = .ok (out2, pk') ∧ out = out1 ++ out2 := by
  simp only [encodeLoop] at loop
  split at loop
  · cases loop
  · next code =>
    split at loop
    · cases loop
    · next out1 pk1 emitted =>
      split at loop
      · cases loop
      · next out2 pk2 later =>
        cases loop
        exact ⟨by simpa using code, out1, pk1, out2, emitted, later, rfl⟩

/-- The bytes ENCODE emits have room, however many bits PK held. -/
theorem encodeLoop_room {s : State} {i written : Nat} {syms out : List Byte} {pk pk' : Bits}
    (loop : encodeLoop s i written pk syms = .ok (out, pk')) (le : written ≤ s.dstLen.toNat) :
    written + out.length ≤ s.dstLen.toNat := by
  induction syms generalizing i written pk out with
  | nil => cases loop; exact le
  | cons c rest ih =>
    obtain ⟨-, out1, pk1, out2, emitted, later, rfl⟩ := encodeLoop_cons_ok loop
    obtain ⟨-, -, -, room⟩ := emitBytes_some emitted
    have := ih later (room le)
    rw [List.length_append]
    omega

/-- Every command that completes leaves LMEM in one of three ways. -/
theorem exec_stores {i : Instr} {s t : State} (run : exec i s = .next t) : Stores s t := by
  cases i with
  | nop => cases run; exact .nothing rfl
  | clear => cases run; exact .nothing rfl
  | build =>
    obtain rfl := Host.Outcome.next.inj run
    refine stores_perform fun u ok => ?_
    obtain ⟨-, rfl⟩ := buildBody_ok ok
    exact .nothing rfl
  | gencodes => rcases exec_gencodes_cases run with ⟨-, rfl⟩ | ⟨tr, -, -, rfl⟩ <;> exact .nothing rfl
  | serialize =>
    rcases exec_serialize_cases run with ⟨-, rfl⟩ | ⟨-, -, rfl⟩ | ⟨tr, -, inside, -, ⟨-, rfl⟩ | ⟨room, rfl⟩⟩
    · exact .nothing rfl
    · exact .nothing rfl
    · exact .nothing rfl
    · exact .result _ inside ((packBytes_padToByte tr.ser).1.trans_le room) rfl rfl
  | deserialize =>
    obtain rfl := Host.Outcome.next.inj run
    refine stores_perform fun u ok => ?_
    obtain ⟨nodes, p, -, rfl⟩ := deserializeBody_ok ok
    exact .nothing rfl
  | encode =>
    obtain rfl := Host.Outcome.next.inj run
    refine stores_perform fun u ok => ?_
    obtain ⟨out, pk, -, checks, loop, rfl⟩ := encodeBody_ok ok
    have room := encodeLoop_room loop (Nat.zero_le _)
    exact .result out (dstRangeOK_of_checks checks) (by omega) rfl rfl
  | flush =>
    obtain rfl := Host.Outcome.next.inj run
    refine stores_perform fun u ok => ?_
    obtain ⟨inside, ⟨-, rfl⟩ | ⟨-, room, rfl⟩⟩ := flushBody_ok ok
    · exact .nothing rfl
    · exact .result [_] inside (Nat.one_le_iff_ne_zero.mpr room) rfl rfl
  | decode last =>
    obtain rfl := Host.Outcome.next.inj run
    refine stores_perform fun u ok => ?_
    obtain ⟨out, n, -, checks, loop, rfl⟩ := decodeBody_ok ok
    have room := decodeLoop_ok_length loop (Nat.zero_le _)
    exact .result out (dstRangeOK_of_checks checks) (by omega) rfl rfl

/-- Every byte outside the RESULT_LEN bytes from DST_ADDR on is as before. -/
def storesResultOnly (s t : State) : Prop :=
  t.resultLen.toNat ≤ s.dstLen.toNat ∧ sameOutside s.lmem t.lmem s.dstAddr.toNat t.resultLen.toNat

theorem storesResultOnly_of_nothing {s t : State} (len : t.resultLen = 0) (lmem : t.lmem = s.lmem) :
    storesResultOnly s t := by
  refine ⟨by simp [len], fun x _ => by rw [lmem]⟩

theorem storesResultOnly_of_result {s t : State} {out : List Byte} (room : out.length ≤ s.dstLen.toNat)
    (len : t.resultLen = (storeResult out s).resultLen) (lmem : t.lmem = (storeResult out s).lmem) :
    storesResultOnly s t := by
  rw [storesResultOnly, len, lmem, storeResult_resultLen_toNat room]
  exact ⟨room, Memory.setBytes_sameOutside out _ _⟩

/-- The row of R213 of ENCODE and DECODE, with the error record and RESULT_LEN. -/
def forgetsDestination (s t : State) : Prop :=
  t.err = true ∧ t.resultLen = 0 ∧ sameOutside s.lmem t.lmem s.dstAddr.toNat s.dstLen.toNat ∧
    unspecifiedIn t.lmem s.dstAddr.toNat s.dstLen.toNat

theorem abortedEncode.forgetsDestination {code : BitVec 8} {info : Word} {s t : State}
    (aborted : abortedEncode code info s t) : forgetsDestination s t :=
  ⟨aborted.err, congrArg State.resultLen aborted.1, aborted.2⟩

theorem abortedDecode.forgetsDestination {code : BitVec 8} {info : Word} {s t : State}
    (aborted : abortedDecode code info s t) : forgetsDestination s t :=
  ⟨congrArg State.err aborted.1, congrArg State.resultLen aborted.1, aborted.2⟩

theorem exec_decode_storesResultOnly {last : Bool} {s t : State} (run : exec (.decode last) s = .next t) :
    storesResultOnly s t ∨ forgetsDestination s t := by
  rcases exec_decode_cases run with
    ⟨-, rfl⟩ | ⟨e, -, -, rfl⟩ | ⟨-, -, -, rfl⟩ | ⟨-, -, -, ⟨e, aborted, -⟩ | ⟨out, n, loop, -, rfl⟩⟩
  · exact .inl (storesResultOnly_of_nothing rfl rfl)
  · exact .inl (storesResultOnly_of_nothing rfl rfl)
  · exact .inl (storesResultOnly_of_nothing rfl rfl)
  · exact .inr aborted.forgetsDestination
  · have room := decodeLoop_ok_length loop (Nat.zero_le _)
    exact .inl (storesResultOnly_of_result (by omega) rfl rfl)

/-- Settles O12: each outcome of the storing commands leaves LMEM, stores its result from DST_ADDR on where it has room, or
is the Abort of ENCODE or DECODE, whose row of R213 forgets the destination range. -/
theorem commandsStoreOnlyInTheDestination : Obligations.CommandsStoreOnlyInTheDestination := by
  intro i s t storing run
  rcases storing with rfl | rfl | rfl | rfl | rfl
  · refine ⟨nofun, .inl ?_⟩
    rcases exec_serialize_cases run with ⟨-, rfl⟩ | ⟨-, -, rfl⟩ | ⟨tr, -, -, -, ⟨-, rfl⟩ | ⟨room, rfl⟩⟩
    · exact storesResultOnly_of_nothing rfl rfl
    · exact storesResultOnly_of_nothing rfl rfl
    · exact storesResultOnly_of_nothing rfl rfl
    · exact storesResultOnly_of_result ((packBytes_padToByte tr.ser).1.trans_le room) rfl rfl
  · refine ⟨nofun, ?_⟩
    rcases exec_encode_cases run with ⟨-, rfl⟩ | ⟨e, -, -, rfl⟩ | ⟨-, -, ⟨e, -, aborted⟩ | ⟨out, pk, loop, rfl⟩⟩
    · exact .inl (storesResultOnly_of_nothing rfl rfl)
    · exact .inl (storesResultOnly_of_nothing rfl rfl)
    · exact .inr ⟨nofun, nofun, aborted.forgetsDestination⟩
    · have room := encodeLoop_room loop (Nat.zero_le _)
      exact .inl (storesResultOnly_of_result (by omega) rfl rfl)
  · rcases exec_flush_cases run with ⟨-, rfl⟩ | ⟨-, -, rfl⟩ | ⟨-, -, -, rfl⟩ | ⟨-, bits, room, rfl⟩
    · exact ⟨fun _ _ => rfl, .inl (storesResultOnly_of_nothing rfl rfl)⟩
    · exact ⟨fun _ _ => rfl, .inl (storesResultOnly_of_nothing rfl rfl)⟩
    · exact ⟨fun _ _ => rfl, .inl (storesResultOnly_of_nothing rfl rfl)⟩
    · exact ⟨fun _ nothing => absurd nothing bits,
        .inl (storesResultOnly_of_result (out := [_]) (Nat.one_le_iff_ne_zero.mpr room) rfl rfl)⟩
  · exact ⟨nofun, (exec_decode_storesResultOnly run).imp_right fun forgets => ⟨nofun, nofun, forgets⟩⟩
  · exact ⟨nofun, (exec_decode_storesResultOnly run).imp_right fun forgets => ⟨nofun, nofun, forgets⟩⟩

/-- LMEM is in canonical form and inside its size (20_memory.md R62). -/
def lmemBounded (s : State) : Prop := Memory.wf s.lmem = true ∧ insideLmem s

/-- Writing bytes inside LMEM_SIZE keeps the bounds. -/
theorem lmemBounded_of_setBytes {s t : State} (bounded : lmemBounded s) {a : Nat} {bytes : List Byte}
    (fits : a + bytes.length ≤ s.lmemSize.bytes) (size : t.lmemSize = s.lmemSize)
    (lmem : t.lmem = Memory.setBytes s.lmem a bytes) : lmemBounded t := by
  rw [lmemBounded, insideLmem, lmem, size]
  exact ⟨Memory.wf_setBytes bounded.1 _ _, insideLmem_setBytes bounded.2 fits⟩

theorem lmemBounded_of_same {s t : State} (bounded : lmemBounded s) (size : t.lmemSize = s.lmemSize)
    (lmem : t.lmem = s.lmem) : lmemBounded t := by
  rwa [lmemBounded, insideLmem, lmem, size]

/-- What a command stores keeps the bounds: the destination range is inside LMEM_SIZE. -/
theorem Stores.lmemBounded {s t : State} (stores : Stores s t) (size : t.lmemSize = s.lmemSize)
    (bounded : lmemBounded s) : lmemBounded t := by
  cases stores with
  | nothing lmem => exact lmemBounded_of_same bounded size lmem
  | result out inside room lmem len =>
    have := (dstRangeOK_iff s).mp inside
    exact lmemBounded_of_setBytes bounded (by omega) size lmem
  | forgets lmem =>
    rw [Machine.lmemBounded, insideLmem, lmem, size]
    exact ⟨Memory.wf_forget bounded.1 _ _, insideLmem_forget bounded.2 _ _⟩

end Sys2Proof.Machine
end

section
/-! ## Host writes: the place of an offset, and what an access may change (20_memory.md R60 to R66) -/

namespace Sys2Proof.Machine

theorem placeOf_of_window {off : HostOff} (window : 0x10000 ≤ off.toNat) :
    placeOf off = .lmem (off.toNat - 0x10000) := by
  have ge (n : Nat) (le : n ≤ 0x10000) : ¬ off.toNat < n := by omega
  simp only [placeOf, ge, Nat.reduceLeDiff, if_false]

theorem placeOf_ne_lmem {off : HostOff} (below : off.toNat < 0x10000) (a : Nat) : placeOf off ≠ .lmem a := by
  simp only [placeOf, below]
  repeat' split
  all_goals simp_all

/-- An offset names an LMEM byte exactly in the LMEM window. -/
theorem placeOf_eq_lmem_iff {off : HostOff} {a : Nat} : placeOf off = .lmem a ↔ off.toNat = 0x10000 + a := by
  by_cases window : 0x10000 ≤ off.toNat
  · rw [placeOf_of_window window, Place.lmem.injEq]
    omega
  · refine iff_of_false (placeOf_ne_lmem (not_le.mp window) a) (by omega)

/-- A write of STATUS clears the bits written 1, in one equation. -/
theorem writeStatus_eq (v : Word) (s : State) : writeStatus v s =
    { s with
      done := s.done && !v.getLsbD 1, err := s.err && !v.getLsbD 2, busyViol := s.busyViol && !v.getLsbD 3,
      errCode := if v.getLsbD 2 then 0 else s.errCode, errInfo := if v.getLsbD 2 then 0 else s.errInfo } := by
  unfold writeStatus acknowledgeError
  cases v.getLsbD 1 <;> cases v.getLsbD 2 <;> cases v.getLsbD 3 <;> simp

/-- What a host access may change: no field of the tree, the codes, the packer or the decoder; the error record only by
clearing it; LMEM only by bytes inside LMEM_SIZE. -/
structure HostChanges (s t : State) : Prop where
  frame : t = { s with
    pending := t.pending, doneIE := t.doneIE, errIE := t.errIE, done := t.done, err := t.err, busyViol := t.busyViol,
    cmdLast := t.cmdLast, errCode := t.errCode, errInfo := t.errInfo, srcAddr := t.srcAddr, srcLen := t.srcLen,
    dstAddr := t.dstAddr, dstLen := t.dstLen, padIn := t.padIn, freq := t.freq, lmem := t.lmem,
    returned := t.returned }
  record : (t.err = s.err ∧ t.errCode = s.errCode) ∨ (t.err = false ∧ t.errCode = 0)
  lmem : t.lmem = s.lmem ∨
    ∃ a bytes, a + bytes.length ≤ s.lmemSize.bytes ∧ t.lmem = Memory.setBytes s.lmem a bytes

theorem hostChanges_refl (s : State) : HostChanges s s := ⟨rfl, .inl ⟨rfl, rfl⟩, .inl rfl⟩

theorem hostChanges_unlessBusy {write : State → State} {s : State} (changes : HostChanges s (write s)) :
    HostChanges s (unlessBusy write s) := by
  unfold unlessBusy
  split
  · exact ⟨rfl, .inl ⟨rfl, rfl⟩, .inl rfl⟩
  · exact changes

theorem hostChanges_writeStatus (v : Word) (s : State) : HostChanges s (writeStatus v s) := by
  rw [writeStatus_eq]
  refine ⟨rfl, ?_, .inl rfl⟩
  cases v.getLsbD 2 with
  | false => exact .inl ⟨Bool.and_true _, rfl⟩
  | true => exact .inr ⟨Bool.and_false _, rfl⟩

theorem hostChanges_writeReg (r : Reg) (v : Word) (s : State) : HostChanges s (writeReg r v s) := by
  cases r with
  | ctrl => exact ⟨rfl, .inl ⟨rfl, rfl⟩, .inl rfl⟩
  | status => exact hostChanges_writeStatus v s
  | cmd | srcAddr | srcLen | dstAddr | dstLen | padIn =>
    simp only [writeReg]
    exact hostChanges_unlessBusy ⟨rfl, .inl ⟨rfl, rfl⟩, .inl rfl⟩
  | _ => exact hostChanges_refl s

theorem hostChanges_writeLmem {a : Nat} {bytes : List Byte} {s : State}
    (fits : a < s.lmemSize.bytes → a + bytes.length ≤ s.lmemSize.bytes) : HostChanges s (writeLmem a bytes s) := by
  unfold writeLmem
  split
  · exact hostChanges_refl s
  · next inside => exact hostChanges_unlessBusy ⟨rfl, .inl ⟨rfl, rfl⟩, .inr ⟨a, bytes, fits (not_le.mp inside), rfl⟩⟩

/-- A legal access to LMEM below its size stays below it: the size is a multiple of 4 (00_scope.md R7). -/
theorem hostChanges_performAccess {a : Access} (s : State) (legal : a.legal = true) :
    HostChanges s (performAccess a s) := by
  cases a with
  | read32 off => exact ⟨rfl, .inl ⟨rfl, rfl⟩, .inl rfl⟩
  | read8 off => exact ⟨rfl, .inl ⟨rfl, rfl⟩, .inl rfl⟩
  | write32 off v =>
    have aligned := Access.legal_write32_iff.mp legal
    have multiple := (Config.LmemSize.bytes_bounds s.lmemSize).1
    show HostChanges s (write32At (placeOf off) v s)
    cases place : placeOf off with
    | reg r => exact hostChanges_writeReg r v s
    | freq c => exact hostChanges_unlessBusy ⟨rfl, .inl ⟨rfl, rfl⟩, .inl rfl⟩
    | lmem a =>
      have := placeOf_eq_lmem_iff.mp place
      exact hostChanges_writeLmem fun below => show a + 4 ≤ _ by omega
    | _ => exact hostChanges_refl s
  | write8 off v =>
    show HostChanges s (write8At (placeOf off) v s)
    cases place : placeOf off with
    | lmem a => exact hostChanges_writeLmem fun below => below
    | _ => exact hostChanges_refl s

/-- A host access keeps LMEM_SIZE and the bounds of LMEM. -/
theorem HostChanges.lmemBounded {s t : State} (changes : HostChanges s t) (bounded : lmemBounded s) :
    t.lmemSize = s.lmemSize ∧ lmemBounded t := by
  have size : t.lmemSize = s.lmemSize := by rw [changes.frame]
  rcases changes.lmem with same | ⟨a, bytes, fits, written⟩
  · exact ⟨size, lmemBounded_of_same bounded size same⟩
  · exact ⟨size, lmemBounded_of_setBytes bounded fits size written⟩

/-- Settles O13: a host access and a command write LMEM only inside its size (`HostChanges.lmemBounded`,
`Stores.lmemBounded`), and reset empties it. -/
theorem everyStepKeepsLmemInItsBounds : Obligations.EveryStepKeepsLmemInItsBounds := by
  intro s t wf inside run
  have kept : t.lmemSize = s.lmemSize ∧ lmemBounded t := by
    rcases step_cases run with ⟨a, rest, -, legal, rfl⟩ | ⟨rest, -, rfl⟩ |
      ⟨rest, -, ⟨-, rfl⟩ | ⟨w, -, -, rfl⟩ | ⟨w, i, -, -, run⟩⟩
    · exact (hostChanges_performAccess (beginEvent rest s) legal).lmemBounded ⟨wf, inside⟩
    · exact ⟨rfl, rfl, List.forall_mem_nil _⟩
    · exact ⟨rfl, wf, inside⟩
    · exact ⟨rfl, wf, inside⟩
    · obtain ⟨-, -, size, -⟩ := exec_frame run
      exact ⟨size, (exec_stores run).lmemBounded size ⟨wf, inside⟩⟩
  exact ⟨kept.2.1, kept.2.2, kept.1⟩

end Sys2Proof.Machine
end

section
/-! ## The windows of the address map (10_state.md R23, 20_memory.md R61) -/

namespace Sys2Proof.Machine

/-- The offset of a register in the control window (10_state.md R23). -/
def Reg.offset : Reg → Nat
  | .id => 0x000
  | .ctrl => 0x004
  | .status => 0x008
  | .cmd => 0x00C
  | .errCode => 0x010
  | .errInfo => 0x014
  | .srcAddr => 0x018
  | .srcLen => 0x01C
  | .dstAddr => 0x020
  | .dstLen => 0x024
  | .padIn => 0x028
  | .resultLen => 0x02C
  | .padOut => 0x030
  | .packState => 0x034
  | .numSyms => 0x038
  | .nodeCount => 0x03C
  | .root => 0x040
  | .treeBits => 0x044
  | .decNode => 0x048
  | .lmemSize => 0x04C

theorem regAt_offset (r : Reg) : regAt r.offset = some r := by cases r <;> rfl

theorem offset_of_regAt {n : Nat} {r : Reg} (at_n : regAt n = some r) : r.offset = n := by
  unfold regAt at at_n
  split at at_n <;> cases at_n <;> rfl

/-- The registers fill the control window up to 0x050. -/
theorem exists_regAt {n : Nat} (aligned : n % 4 = 0) (below : n < 0x050) : ∃ r, regAt n = some r := by
  have filled : ∀ k < 20, (regAt (4 * k)).isSome := by decide
  have index : 4 * (n / 4) = n := by omega
  rw [← index]
  exact Option.isSome_iff_exists.mp (filled (n / 4) (by omega))

theorem regAt_eq_none {n : Nat} (beyond : 0x050 ≤ n) : regAt n = none := by
  cases at_n : regAt n with
  | none => rfl
  | some r =>
    have offset := offset_of_regAt at_n
    have le : r.offset ≤ 0x04C := by cases r <;> decide
    omega

theorem placeOf_of_regAt {off : HostOff} {r : Reg} (at_off : regAt off.toNat = some r) : placeOf off = .reg r := by
  have offset := offset_of_regAt at_off
  have le : r.offset ≤ 0x04C := by cases r <;> decide
  have lt : off.toNat < 0x400 := by omega
  simp only [placeOf, lt, at_off, if_true]

section
variable {off : HostOff}

/-- The offsets of the map that name nothing (10_state.md R41). -/
theorem placeOf_reserved (range : (0x050 ≤ off.toNat ∧ off.toNat < 0x400) ∨
    (0xC00 ≤ off.toNat ∧ off.toNat < 0x1000) ∨ (0x3000 ≤ off.toNat ∧ off.toNat < 0x4000) ∨
    (0x5FF0 ≤ off.toNat ∧ off.toNat < 0x10000)) : placeOf off = .reserved := by
  rcases range with ⟨lo, hi⟩ | ⟨lo, hi⟩ | ⟨lo, hi⟩ | ⟨lo, hi⟩
  · simp only [placeOf, hi, regAt_eq_none lo, if_true]
  all_goals simp (disch := omega) only [placeOf, hi, Nat.not_lt_of_le, if_true, if_false]

theorem placeOf_freq (lo : 0x400 ≤ off.toNat) (hi : off.toNat < 0x800) :
    placeOf off = .freq (BitVec.ofNat 8 ((off.toNat - 0x400) / 4)) := by
  simp (disch := omega) only [placeOf, hi, Nat.not_lt_of_le, if_true, if_false]

theorem placeOf_codeLen (lo : 0x800 ≤ off.toNat) (hi : off.toNat < 0xC00) :
    placeOf off = .codeLen (BitVec.ofNat 8 ((off.toNat - 0x800) / 4)) := by
  simp (disch := omega) only [placeOf, hi, Nat.not_lt_of_le, if_true, if_false]

theorem placeOf_codeBits (lo : 0x1000 ≤ off.toNat) (hi : off.toNat < 0x3000) :
    placeOf off = .codeBits (BitVec.ofNat 8 ((off.toNat - 0x1000) / 32)) ((off.toNat - 0x1000) % 32 / 4) := by
  simp (disch := omega) only [placeOf, hi, Nat.not_lt_of_le, if_true, if_false]

theorem placeOf_node (lo : 0x4000 ≤ off.toNat) (hi : off.toNat < 0x5FF0) :
    placeOf off = .node (BitVec.ofNat 9 ((off.toNat - 0x4000) / 16)) ((off.toNat - 0x4000) % 16 / 4) := by
  simp (disch := omega) only [placeOf, hi, Nat.not_lt_of_le, if_true, if_false]

end

/-- At a legal offset an 8-bit host write is the write at its place. -/
theorem hostStep_write8 {off : HostOff} (v : Byte) (s : State) (window : 0x10000 ≤ off.toNat) :
    hostStep (.write8 off v) s = .next (write8At (placeOf off) v s) :=
  hostStep_of_legal s (Access.legal_write8_iff.mpr window)

/-! ## Writes while BUSY = 1 (20_memory.md R66) -/

theorem writeLmem_of_busy {s : State} {a : Nat} (bytes : List Byte) (pending : s.pending ≠ none)
    (inside : a < s.lmemSize.bytes) : writeLmem a bytes s = { s with busyViol := true } := by
  rw [writeLmem, if_neg (not_le.mpr inside)]
  exact unlessBusy_of_busy _ pending

/-- CMD and the operand registers drop a write while BUSY = 1. -/
theorem writeReg_of_busy {r : Reg} {s : State} (v : Word) (pending : s.pending ≠ none)
    (input : r.offset = 0x00C ∨ (0x018 ≤ r.offset ∧ r.offset ≤ 0x028)) :
    writeReg r v s = { s with busyViol := true } := by
  cases r with
  | cmd | srcAddr | srcLen | dstAddr | dstLen | padIn => simp only [writeReg, unlessBusy_of_busy _ pending]
  | _ => simp [Reg.offset] at input

theorem hostStep_write_ctrl (v : Word) (s : State) :
    hostStep (.write32 0x00004 v) s = .next { s with doneIE := v.getLsbD 0, errIE := v.getLsbD 1 } :=
  hostStep_write32 v s rfl

theorem hostStep_write_status (v : Word) (s : State) : hostStep (.write32 0x00008 v) s = .next
    { s with
      done := s.done && !v.getLsbD 1, err := s.err && !v.getLsbD 2, busyViol := s.busyViol && !v.getLsbD 3,
      errCode := if v.getLsbD 2 then 0 else s.errCode, errInfo := if v.getLsbD 2 then 0 else s.errInfo } := by
  rw [← writeStatus_eq]
  exact hostStep_write32 v s rfl

/-- Settles O45: each place named is one whose write `unlessBusy` drops, and CTRL and STATUS are written by `writeCtrl` and
`writeStatus`, BUSY or not. -/
theorem inputWritesAreDroppedWhileBusy : Obligations.InputWritesAreDroppedWhileBusy := by
  intro s w pending
  have busy : s.pending ≠ none := by simp [pending]
  refine ⟨fun off v aligned place => ?word, fun off v window inside => ?byte, fun v => ⟨hostStep_write_ctrl v s, ?status⟩⟩
  case word =>
    rw [hostStep_write32 v s aligned]
    have reg (input : off.toNat = 0x00C ∨ (0x018 ≤ off.toNat ∧ off.toNat ≤ 0x028)) :
        write32At (placeOf off) v s = { s with busyViol := true } := by
      obtain ⟨r, at_off⟩ := exists_regAt aligned (by omega)
      rw [placeOf_of_regAt at_off]
      exact writeReg_of_busy v busy (by rwa [offset_of_regAt at_off])
    rcases place with cmd | operand | ⟨lo, hi⟩ | ⟨window, inside⟩
    · rw [reg (.inl cmd)]
    · rw [reg (.inr operand)]
    · rw [placeOf_freq lo hi]
      exact congrArg _ (unlessBusy_of_busy _ busy)
    · rw [placeOf_of_window window]
      exact congrArg _ (writeLmem_of_busy _ busy (by omega))
  case byte =>
    rw [hostStep_write8 v s window, placeOf_of_window window]
    exact congrArg _ (writeLmem_of_busy _ busy (by omega))
  case status => exact ⟨_, hostStep_write_status v s, pending, rfl, rfl, rfl⟩

/-! ## Places that ignore writes, and reserved reads (10_state.md R23, R41; 20_memory.md R65) -/

theorem writeLmem_of_beyond {s : State} {a : Nat} (bytes : List Byte) (beyond : s.lmemSize.bytes ≤ a) :
    writeLmem a bytes s = s := if_pos beyond

theorem readLmem_of_beyond {s : State} {a : Nat} (k : Nat) (beyond : s.lmemSize.bytes ≤ a) : readLmem s k a = 0 :=
  if_pos beyond

theorem writeReg_readOnly {r : Reg} (v : Word) (s : State)
    (readOnly : r.offset = 0x000 ∨ (0x010 ≤ r.offset ∧ r.offset < 0x018) ∨ 0x02C ≤ r.offset) : writeReg r v s = s := by
  cases r with
  | ctrl | status | cmd | srcAddr | srcLen | dstAddr | dstLen | padIn => simp [Reg.offset] at readOnly
  | _ => rfl

/-- At a read-only register, a reserved offset, or a CODE or NODE word a write changes nothing. -/
theorem write32At_ignored {off : HostOff} (v : Word) (s : State) (aligned : off.toNat % 4 = 0)
    (place : off.toNat = 0x000 ∨ (0x010 ≤ off.toNat ∧ off.toNat < 0x018) ∨
      (0x02C ≤ off.toNat ∧ off.toNat < 0x400) ∨ (0x800 ≤ off.toNat ∧ off.toNat < 0x10000)) :
    write32At (placeOf off) v s = s := by
  have windows : off.toNat < 0x050 ∨ ((0x050 ≤ off.toNat ∧ off.toNat < 0x400) ∨
      (0xC00 ≤ off.toNat ∧ off.toNat < 0x1000) ∨ (0x3000 ≤ off.toNat ∧ off.toNat < 0x4000) ∨
      (0x5FF0 ≤ off.toNat ∧ off.toNat < 0x10000)) ∨ (0x800 ≤ off.toNat ∧ off.toNat < 0xC00) ∨
      (0x1000 ≤ off.toNat ∧ off.toNat < 0x3000) ∨ (0x4000 ≤ off.toNat ∧ off.toNat < 0x5FF0) := by omega
  rcases windows with reg | reserved | ⟨lo, hi⟩ | ⟨lo, hi⟩ | ⟨lo, hi⟩
  · obtain ⟨r, at_off⟩ := exists_regAt aligned reg
    rw [placeOf_of_regAt at_off]
    exact writeReg_readOnly v s (by rw [offset_of_regAt at_off]; omega)
  · rw [placeOf_reserved reserved]; rfl
  · rw [placeOf_codeLen lo hi]; rfl
  · rw [placeOf_codeBits lo hi]; rfl
  · rw [placeOf_node lo hi]; rfl

/-- At or beyond LMEM_SIZE a word reads 0: all its bytes do. -/
theorem read32At_of_beyond {s : State} {a : Nat} (beyond : s.lmemSize.bytes ≤ a) : read32At s (.lmem a) = 0 := by
  simp (disch := omega) only [read32At, readLmem_of_beyond]
  rfl

/-- Settles O46: the places named are those whose write is no update (`write32At_ignored`, `writeLmem_of_beyond`), and the
reserved ones read 0 whatever the state. -/
theorem readOnlyAndReservedPlaces : Obligations.ReadOnlyAndReservedPlaces := by
  refine fun s => ⟨fun off v aligned place => ?word, fun off v beyond => ?byte, fun off aligned place => ?readWord,
    fun off beyond => ?readByte⟩
  case word =>
    rw [hostStep_write32 v s aligned]
    by_cases window : 0x10000 ≤ off.toNat
    · rw [placeOf_of_window window]
      exact congrArg _ (writeLmem_of_beyond _ (by omega))
    · rw [write32At_ignored v s aligned (by omega)]
  case byte =>
    rw [hostStep_write8 v s (by omega), placeOf_of_window (by omega)]
    exact congrArg _ (writeLmem_of_beyond _ (by omega))
  case readWord =>
    refine (readsAs_iff aligned).mpr ?_
    by_cases window : 0x10000 ≤ off.toNat
    · rw [placeOf_of_window window]
      exact read32At_of_beyond (by omega)
    · rw [placeOf_reserved (by omega)]
      rfl
  case readByte =>
    refine (readsByteAs_iff (by omega)).mpr ?_
    rw [placeOf_of_window (by omega)]
    exact readLmem_of_beyond 0 (by omega)

end Sys2Proof.Machine
end

section
/-! ## Host reads: no side effect, and the views of the flags (20_memory.md R67, R70; 10_state.md R24, R25) -/

namespace Sys2Proof.Machine

theorem hostStep_eq_next {a : Access} {s t : State} (run : hostStep a s = .next t) : t = performAccess a s := by
  unfold hostStep at run
  split at run
  · exact (Host.Outcome.next.inj run).symm
  · cases run

/-- Settles O48: a read that is legal is `returnValue`, which writes `returned` alone. -/
theorem readsHaveNoSideEffect : Obligations.ReadsHaveNoSideEffect := by
  rintro s t off (run | run)
  · exact ⟨_, hostStep_eq_next run⟩
  · exact ⟨_, hostStep_eq_next run⟩

@[simp] theorem flagBit_getLsbD (b : Bool) (i k : Nat) :
    (flagBit b i).getLsbD k = (b && decide (k = i) && decide (i < 32)) := by
  cases b with
  | false => simp [flagBit]
  | true => simp [flagBit, BitVec.getLsbD_twoPow, eq_comm, Bool.and_comm]

theorem ctrlWord_getLsbD (s : State) (k : Nat) :
    (ctrlWord s).getLsbD k = ((s.doneIE && decide (k = 0)) || (s.errIE && decide (k = 1))) := by
  simp [ctrlWord]

/-- CTRL shows its two enables and 0 in every other bit (R24). -/
theorem ctrlWord_bits (s : State) :
    (ctrlWord s).getLsbD 0 = s.doneIE ∧ (ctrlWord s).getLsbD 1 = s.errIE ∧
      ∀ k, 2 ≤ k → (ctrlWord s).getLsbD k = false := by
  simp only [ctrlWord_getLsbD]
  refine ⟨by simp, by simp, fun k le => ?_⟩
  have ne0 : k ≠ 0 := by omega
  have ne1 : k ≠ 1 := by omega
  simp [ne0, ne1]

/-- A write's low two bits are what CTRL then shows. -/
theorem ctrlWord_writeCtrl (v : Word) (s : State) : ctrlWord (writeCtrl v s) = v &&& 3 := by
  have mask : ∀ k < 32, (3 : Word).getLsbD k = (decide (k = 0) || decide (k = 1)) := by decide
  refine BitVec.eq_of_getLsbD_eq fun k lt => ?_
  rw [ctrlWord_getLsbD, BitVec.getLsbD_and, mask k lt, writeCtrl_doneIE, writeCtrl_errIE]
  by_cases zero : k = 0
  · simp [zero]
  · by_cases one : k = 1 <;> simp [zero, one]

/-- Settles O50: CTRL and STATUS are written by `writeCtrl` and `writeStatus`, BUSY or not, and CTRL's view shows the two
enables. -/
theorem controlAndStatusWrites : Obligations.ControlAndStatusWrites := fun s v =>
  ⟨hostStep_write_ctrl v s, ctrlWord_writeCtrl v s, hostStep_write_status v s⟩

/-- STATUS bits 3:0 (R25). -/
theorem statusLow_getLsbD (s : State) (k : Nat) : (statusLow s).getLsbD k =
    ((busy s && decide (k = 0)) || (s.done && decide (k = 1)) || (s.err && decide (k = 2)) ||
      (s.busyViol && decide (k = 3))) := by
  simp [statusLow]

/-- STATUS bits 6:4 (R25). -/
theorem statusHigh_getLsbD (s : State) (k : Nat) : (statusHigh s).getLsbD k =
    ((s.treeValid && decide (k = 4)) || (s.codesValid && decide (k = 5)) || (decMid s && decide (k = 6))) := by
  simp [statusHigh]

/-- The bits that read any while BUSY = 1 are 6:4 (20_memory.md R67). -/
theorem freeStatus_getLsbD (w : Word) {k : Nat} (outside : k < 4 ∨ 7 ≤ k) : (w &&& 0x70).getLsbD k = false := by
  have mask : ∀ k < 32, (k < 4 ∨ 7 ≤ k) → (0x70 : Word).getLsbD k = false := by decide
  by_cases lt : k < 32
  · rw [BitVec.getLsbD_and, mask k lt outside, Bool.and_false]
  · exact BitVec.getLsbD_of_ge _ _ (not_lt.mp lt)

/-- Outside bits 6:4 STATUS shows its low flags, BUSY or not. -/
theorem statusWord_getLsbD_low (s : State) {k : Nat} (outside : k < 4 ∨ 7 ≤ k) :
    (statusWord s).getLsbD k = (statusLow s).getLsbD k := by
  rw [statusWord, BitVec.getLsbD_or]
  have high : (if busy s then Config.freeWord s.draws 0 &&& 0x70 else statusHigh s).getLsbD k = false := by
    split
    · exact freeStatus_getLsbD _ outside
    · rw [statusHigh_getLsbD]
      have ne4 : k ≠ 4 := by omega
      have ne5 : k ≠ 5 := by omega
      have ne6 : k ≠ 6 := by omega
      simp [ne4, ne5, ne6]
  rw [high, Bool.or_false]

theorem statusWord_of_idle {s : State} (idle : s.pending = none) : statusWord s = statusLow s ||| statusHigh s := by
  simp [statusWord, busy, idle]

/-- A register's read is its field while BUSY = 0, and while BUSY = 1 too where R67 says so. -/
theorem readsAs_reg {s : State} {off : HostOff} {r : Reg} (place : placeOf off = .reg r) (aligned : off.toNat % 4 = 0)
    (shown : s.pending = none ∨ r.trueWhileBusy = true) : readsAs s off (readReg s r) := by
  refine (readsAs_iff aligned).mpr ?_
  rw [place]
  rcases shown with idle | always
  · exact read32At_reg_of_idle r idle
  · simp [read32At, always]

/-- Settles O51: a read of STATUS returns `statusWord`, whose bits are the flags' (`statusLow_getLsbD`,
`statusHigh_getLsbD`). -/
theorem statusShowsTheFlags : Obligations.StatusShowsTheFlags := by
  intro s
  refine ⟨statusWord s, readsAs_reg (r := .status) rfl rfl (.inr rfl), ?_, ?_, ?_, ?_, fun idle => ?tree,
    fun k le => ?above⟩
  case tree =>
    simp only [statusWord_of_idle idle, BitVec.getLsbD_or, statusLow_getLsbD, statusHigh_getLsbD]
    simp [decMid]
  case above =>
    rw [statusWord_getLsbD_low s (.inr le), statusLow_getLsbD]
    have ne (n : Nat) (small : n < 7) : k ≠ n := by omega
    simp [ne]
  all_goals
    rw [statusWord_getLsbD_low s (.inl (by decide)), statusLow_getLsbD]
    simp [busy]

end Sys2Proof.Machine
end

section
/-! ## Host reads and writes of the operands and of FREQ (10_state.md R27, R30 to R40) -/

namespace Sys2Proof.Machine

/-- The offset of FREQ[c] names it. -/
theorem placeOf_freqEntry {off : HostOff} {c : Byte} (at_off : off.toNat = 0x400 + 4 * c.toNat) :
    placeOf off = .freq c := by
  have lt := c.isLt
  have index : (off.toNat - 0x400) / 4 = c.toNat := by omega
  rw [placeOf_freq (by omega) (by omega), index, BitVec.ofNat_toNat, BitVec.setWidth_eq]

theorem read32At_freq_of_idle {s : State} (c : Byte) (idle : s.pending = none) :
    read32At s (.freq c) = readFreq s 0 c := by
  simp [read32At, busy, idle]

theorem readFreq_of_entry {s : State} {c : Byte} {v : Word} (entry : freqEntry s c = .written v) (k : Nat) :
    readFreq s k c = v := by
  rw [freqEntry] at entry
  simp only [readFreq, entry]

theorem readFreq_of_unspecified {s : State} {c : Byte} (entry : freqEntry s c = .unspecified) (k : Nat) :
    readFreq s k c = Config.freeWord s.draws k := by
  rw [freqEntry] at entry
  simp only [readFreq, entry]

/-- A write of FREQ[c] stores its word there and in no other entry, and reads back. -/
theorem write_freqEntry {s : State} (v : Word) {c : Byte} {off : HostOff} (idle : s.pending = none)
    (at_off : off.toNat = 0x400 + 4 * c.toNat) :
    ∃ t, hostStep (.write32 off v) s = .next t ∧ t = { s with freq := t.freq } ∧ freqEntry t c = .written v ∧
      (∀ d : Byte, d ≠ c → freqEntry t d = freqEntry s d) ∧ readsAs t off v := by
  have aligned : off.toNat % 4 = 0 := by omega
  have stored : freqEntry (writeFreq c v s) c = .written v := by simp [freqEntry]
  refine ⟨writeFreq c v s, ?write, rfl, stored, fun d ne => ?others, ?readBack⟩
  case write =>
    rw [hostStep_write32 v s aligned, placeOf_freqEntry at_off]
    exact congrArg _ (unlessBusy_of_idle _ idle)
  case others =>
    have ne_index : c.toNat ≠ d.toNat := fun eq => ne (BitVec.eq_of_toNat_eq eq.symm)
    simp [freqEntry, Vector.getElem_set_ne _ _ ne_index]
  case readBack =>
    refine (readsAs_iff aligned).mpr ?_
    rw [placeOf_freqEntry at_off, read32At_freq_of_idle c (by simpa using idle)]
    exact readFreq_of_entry stored 0

/-- While BUSY = 0 a write that `unlessBusy` guards is performed. -/
theorem hostStep_write_operand {s : State} {off : HostOff} {r : Reg} (write : State → State) (v : Word)
    (idle : s.pending = none) (place : placeOf off = .reg r) (aligned : off.toNat % 4 = 0)
    (operand : writeReg r v s = unlessBusy write s) : hostStep (.write32 off v) s = .next (write s) := by
  rw [hostStep_write32 v s aligned, place, ← unlessBusy_of_idle write idle, ← operand]
  rfl

/-- Zero-extending the low byte of a word is masking it. -/
theorem setWidth_setWidth_byte (v : Word) : (v.setWidth 8).setWidth 32 = v &&& 0xFF := by
  have mask : ∀ k < 32, (0xFF : Word).getLsbD k = decide (k < 8) := by decide
  refine BitVec.eq_of_getLsbD_eq fun k lt => ?_
  rw [BitVec.getLsbD_and, mask k lt]
  simp [lt, Bool.and_comm]

/-- Settles O52: each register is at its offset and reads its field (`readsAs_reg`), an operand's write is an update of its
field alone, and a FREQ entry reads its contents or the free draw. -/
theorem operandsAndCountsReadBack : Obligations.OperandsAndCountsReadBack := by
  intro s idle
  refine ⟨fun v => ⟨⟨?_, ?_⟩, ⟨?_, ?_⟩, ⟨?_, ?_⟩, ⟨?_, ?_⟩, ⟨?_, ?_⟩, fun c off at_off => ?freq⟩,
    fun c off entry at_off => ?unspecified, ?regs⟩
  case freq => exact write_freqEntry v idle at_off
  case unspecified =>
    refine (readsAs_iff (by omega)).mpr ?_
    rw [placeOf_freqEntry at_off, read32At_freq_of_idle c idle, readFreq_of_unspecified entry]
  case regs =>
    have reg {off : HostOff} {r : Reg} (place : placeOf off = .reg r) (aligned : off.toNat % 4 = 0) :
        readsAs s off (readReg s r) := readsAs_reg place aligned (.inl idle)
    exact ⟨reg (r := .id) rfl rfl, ⟨_, reg (r := .ctrl) rfl rfl, ctrlWord_bits s⟩, reg (r := .cmd) rfl rfl,
      reg (r := .errCode) rfl rfl, reg (r := .errInfo) rfl rfl, reg (r := .srcAddr) rfl rfl,
      reg (r := .srcLen) rfl rfl, reg (r := .dstAddr) rfl rfl, reg (r := .dstLen) rfl rfl,
      reg (r := .padIn) rfl rfl, reg (r := .resultLen) rfl rfl, reg (r := .padOut) rfl rfl,
      reg (r := .numSyms) rfl rfl, reg (r := .nodeCount) rfl rfl, reg (r := .root) rfl rfl,
      reg (r := .treeBits) rfl rfl, reg (r := .decNode) rfl rfl, reg (r := .lmemSize) rfl rfl⟩
  · exact hostStep_write_operand (fun t => { t with srcAddr := v }) v idle (r := .srcAddr) rfl rfl rfl
  · exact readsAs_reg (r := .srcAddr) rfl rfl (.inr rfl)
  · exact hostStep_write_operand (fun t => { t with srcLen := v }) v idle (r := .srcLen) rfl rfl rfl
  · exact readsAs_reg (r := .srcLen) rfl rfl (.inr rfl)
  · exact hostStep_write_operand (fun t => { t with dstAddr := v }) v idle (r := .dstAddr) rfl rfl rfl
  · exact readsAs_reg (r := .dstAddr) rfl rfl (.inr rfl)
  · exact hostStep_write_operand (fun t => { t with dstLen := v }) v idle (r := .dstLen) rfl rfl rfl
  · exact readsAs_reg (r := .dstLen) rfl rfl (.inr rfl)
  · exact hostStep_write_operand (fun t => { t with padIn := v.setWidth 8 }) v idle (r := .padIn) rfl rfl rfl
  · rw [← setWidth_setWidth_byte]
    exact readsAs_reg (r := .padIn) rfl rfl (.inr rfl)

/-! ## Reads while BUSY = 1 (20_memory.md R67) -/

theorem read32At_reg_of_busy {s : State} {r : Reg} (pending : s.pending ≠ none)
    (written : (0x010 ≤ r.offset ∧ r.offset < 0x018) ∨ (0x02C ≤ r.offset ∧ r.offset < 0x04C)) :
    read32At s (.reg r) = Config.freeWord s.draws 0 := by
  have busy : busy s = true := Option.isSome_iff_ne_none.mpr pending
  cases r with
  | id | ctrl | status | cmd | srcAddr | srcLen | dstAddr | dstLen | padIn | lmemSize => simp [Reg.offset] at written
  | _ => simp [read32At, busy, Reg.trueWhileBusy]

theorem readLmem_of_busy {s : State} {a : Nat} (k : Nat) (pending : s.pending ≠ none) (inside : a < s.lmemSize.bytes) :
    readLmem s k a = Config.freeByte s.draws k := by
  have busy : busy s = true := Option.isSome_iff_ne_none.mpr pending
  simp [readLmem, busy, not_le.mpr inside]

/-- Settles O53: the registers that R67 calls true read their field (`readsAs_reg`); every other place named reads the draw
that `read32At` and `readLmem` take while BUSY = 1. -/
theorem readsWhileBusy : Obligations.ReadsWhileBusy := by
  intro s w pending
  have pending' : s.pending ≠ none := by simp [pending]
  have busy : busy s = true := Option.isSome_iff_ne_none.mpr pending'
  have reg {off : HostOff} {r : Reg} (place : placeOf off = .reg r) (aligned : off.toNat % 4 = 0)
      (always : r.trueWhileBusy = true) : readsAs s off (readReg s r) := readsAs_reg place aligned (.inr always)
  refine ⟨reg (r := .id) rfl rfl rfl, ⟨_, reg (r := .ctrl) rfl rfl rfl, ctrlWord_bits s⟩, reg (r := .cmd) rfl rfl rfl,
    reg (r := .srcAddr) rfl rfl rfl, reg (r := .srcLen) rfl rfl rfl, reg (r := .dstAddr) rfl rfl rfl,
    reg (r := .dstLen) rfl rfl rfl, reg (r := .padIn) rfl rfl rfl, reg (r := .lmemSize) rfl rfl rfl,
    fun off aligned place => ?words, fun off window inside => ⟨?byte, fun aligned => ?lanes⟩⟩
  case words =>
    refine (readsAs_iff aligned).mpr ?_
    have windows : off.toNat < 0x050 ∨ (0x400 ≤ off.toNat ∧ off.toNat < 0x800) ∨
        (0x800 ≤ off.toNat ∧ off.toNat < 0xC00) ∨ (0x1000 ≤ off.toNat ∧ off.toNat < 0x3000) ∨
        (0x4000 ≤ off.toNat ∧ off.toNat < 0x5FF0) := by omega
    rcases windows with low | ⟨lo, hi⟩ | ⟨lo, hi⟩ | ⟨lo, hi⟩ | ⟨lo, hi⟩
    · obtain ⟨r, at_off⟩ := exists_regAt aligned low
      rw [placeOf_of_regAt at_off]
      exact read32At_reg_of_busy pending' (by rw [offset_of_regAt at_off]; omega)
    · rw [placeOf_freq lo hi, read32At, if_pos busy]
    · rw [placeOf_codeLen lo hi, read32At, if_pos busy]
    · rw [placeOf_codeBits lo hi, read32At, if_pos busy]
    · rw [placeOf_node lo hi, read32At, if_pos busy]
  case byte =>
    refine (readsByteAs_iff window).mpr ?_
    rw [placeOf_of_window window]
    exact readLmem_of_busy 0 pending' (by omega)
  case lanes =>
    have multiple := (Config.LmemSize.bytes_bounds s.lmemSize).1
    refine (readsAs_iff aligned).mpr ?_
    have lane (k a : Nat) (below : a < s.lmemSize.bytes) : readLmem s k a = Config.freeByte s.draws k :=
      readLmem_of_busy k pending' below
    rw [placeOf_of_window window]
    simp (disch := omega) only [read32At, lane]
    rfl

end Sys2Proof.Machine
end

section
/-! ## LMEM through the host: bytes and big-endian words (20_memory.md R62, R64) -/

namespace Sys2Proof.Machine

/-- What a host read of a byte returns where it has contents, whatever the lane. -/
theorem lmemLane_of_get {s : State} {a : Nat} {v : Byte} (byte : Memory.get s.lmem a = some v) (k : Nat) :
    lmemLane s k a = v := by
  simp [lmemLane, byte]

theorem readsByteAs_lmemLane {s : State} {off : HostOff} {a : Nat} (idle : s.pending = none)
    (at_off : off.toNat = 0x10000 + a) (inside : a < s.lmemSize.bytes) : readsByteAs s off (lmemLane s 0 a) := by
  refine (readsByteAs_iff (by omega)).mpr ?_
  rw [placeOf_eq_lmem_iff.mpr at_off]
  exact readLmem_eq_lmemLane idle inside

/-- A byte with contents reads back through an 8-bit access. -/
theorem readsByteAs_of_get {s : State} {off : HostOff} {a : Nat} {v : Byte} (idle : s.pending = none)
    (at_off : off.toNat = 0x10000 + a) (inside : a < s.lmemSize.bytes) (byte : Memory.get s.lmem a = some v) :
    readsByteAs s off v := by
  rw [← lmemLane_of_get byte 0]
  exact readsByteAs_lmemLane idle at_off inside

/-- A word of LMEM is its four lanes, the lowest address first. -/
theorem readsAs_lmemLanes {s : State} {off : HostOff} {a : Nat} (idle : s.pending = none)
    (at_off : off.toNat = 0x10000 + a) (inside : a < s.lmemSize.bytes) (aligned : off.toNat % 4 = 0) :
    readsAs s off (lmemLane s 0 a ++ lmemLane s 1 (a + 1) ++ lmemLane s 2 (a + 2) ++ lmemLane s 3 (a + 3)) := by
  have multiple := (Config.LmemSize.bytes_bounds s.lmemSize).1
  have lane (k b : Nat) (below : b < s.lmemSize.bytes) : readLmem s k b = lmemLane s k b :=
    readLmem_eq_lmemLane idle below
  refine (readsAs_iff aligned).mpr ?_
  rw [placeOf_eq_lmem_iff.mpr at_off]
  simp (disch := omega) only [read32At, lane]
  rfl

/-- The four bytes of a word in a row are the word. -/
theorem beBytes_append (v : Word) :
    v.extractLsb' 24 8 ++ v.extractLsb' 16 8 ++ v.extractLsb' 8 8 ++ v.extractLsb' 0 8 = v := by
  rw [BitVec.extractLsb'_append_extractLsb'_eq_extractLsb' (start₂ := 24) (start₁ := 16) rfl,
    BitVec.extractLsb'_append_extractLsb'_eq_extractLsb' (start₂ := 16) (start₁ := 8) rfl,
    BitVec.extractLsb'_append_extractLsb'_eq_extractLsb' (start₂ := 8) (start₁ := 0) rfl]
  exact BitVec.extractLsb'_eq_self

theorem writeLmem_of_idle {s : State} {a : Nat} (bytes : List Byte) (idle : s.pending = none)
    (inside : a < s.lmemSize.bytes) :
    writeLmem a bytes s = { s with lmem := Memory.setBytes s.lmem a bytes } := by
  rw [writeLmem, if_neg (not_le.mpr inside)]
  exact unlessBusy_of_idle _ idle

/-- An 8-bit write stores its byte alone, and it reads back. -/
theorem write_lmemByte {s : State} {off : HostOff} {a : Nat} (v : Byte) (idle : s.pending = none)
    (at_off : off.toNat = 0x10000 + a) (inside : a < s.lmemSize.bytes) :
    ∃ t, hostStep (.write8 off v) s = .next t ∧ t = { s with lmem := t.lmem } ∧ holdsBytes t.lmem a [v] ∧
      sameOutside s.lmem t.lmem a 1 ∧ readsByteAs t off v := by
  have holds := Memory.setBytes_holdsBytes [v] s.lmem a
  refine ⟨{ s with lmem := Memory.setBytes s.lmem a [v] }, ?_, rfl, holds, Memory.setBytes_sameOutside [v] _ _,
    readsByteAs_of_get idle at_off inside (holds 0 Nat.one_pos)⟩
  rw [hostStep_write8 v s (by omega), placeOf_eq_lmem_iff.mpr at_off]
  exact congrArg _ (writeLmem_of_idle [v] idle inside)

/-- A 32-bit write stores its bytes alone, the most significant at the lowest address; they read back as the word and one by
one. -/
theorem write_lmemWord {s : State} {off : HostOff} {a : Nat} (v : Word) (idle : s.pending = none)
    (at_off : off.toNat = 0x10000 + a) (inside : a < s.lmemSize.bytes) (aligned : off.toNat % 4 = 0) :
    ∃ t, hostStep (.write32 off v) s = .next t ∧ t = { s with lmem := t.lmem } ∧ holdsBytes t.lmem a (beBytes v) ∧
      sameOutside s.lmem t.lmem a 4 ∧ readsAs t off v ∧ readsByteAs t off (v.extractLsb' 24 8) ∧
      readsByteAs t (off + 1) (v.extractLsb' 16 8) ∧ readsByteAs t (off + 2) (v.extractLsb' 8 8) ∧
      readsByteAs t (off + 3) (v.extractLsb' 0 8) := by
  have small := off.isLt
  have multiple := (Config.LmemSize.bytes_bounds s.lmemSize).1
  have holds := Memory.setBytes_holdsBytes (beBytes v) s.lmem a
  have last : a + 3 < s.lmemSize.bytes := by omega
  have lane (i : Nat) (lt : i < 4) := holds i lt
  have readLane (i : Nat) (lt : i < 4) (o : HostOff) (at_o : o.toNat = 0x10000 + (a + i)) :=
    readsByteAs_of_get (s := { s with lmem := Memory.setBytes s.lmem a (beBytes v) }) idle at_o
      ((Nat.add_le_add_left (Nat.le_of_lt_succ lt) a).trans_lt last) (lane i lt)
  refine ⟨{ s with lmem := Memory.setBytes s.lmem a (beBytes v) }, ?_, rfl, holds,
    Memory.setBytes_sameOutside (beBytes v) _ _, ?_, readLane 0 (by decide) off at_off,
    readLane 1 (by decide) (off + 1) (by bv_omega), readLane 2 (by decide) (off + 2) (by bv_omega),
    readLane 3 (by decide) (off + 3) (by bv_omega)⟩
  · rw [hostStep_write32 v s aligned, placeOf_eq_lmem_iff.mpr at_off]
    exact congrArg _ (writeLmem_of_idle (beBytes v) idle inside)
  · have read := readsAs_lmemLanes (s := { s with lmem := Memory.setBytes s.lmem a (beBytes v) }) idle at_off inside
      aligned
    rw [lmemLane_of_get (lane 0 (by decide)), lmemLane_of_get (lane 1 (by decide)),
      lmemLane_of_get (lane 2 (by decide)), lmemLane_of_get (lane 3 (by decide))] at read
    exact (beBytes_append v).subst (motive := readsAs _ off) read

/-- Settles O49: a read returns the lanes of its place, and a write of a byte or of a word stores its bytes there, which
read back. -/
theorem lmemWordsAreBigEndian : Obligations.LmemWordsAreBigEndian := by
  intro s off idle window inside
  obtain ⟨a, at_off⟩ := Nat.exists_eq_add_of_le window
  have index : off.toNat - 0x10000 = a := by omega
  rw [index] at inside ⊢
  exact ⟨readsByteAs_lmemLane idle at_off inside, fun v => write_lmemByte v idle at_off inside, fun aligned =>
    ⟨readsAs_lmemLanes idle at_off inside aligned, fun v => write_lmemWord v idle at_off inside aligned⟩⟩

end Sys2Proof.Machine
end

section
/-! ## Bit strings as numbers, and the views of PK, of the codes and of the nodes (10_state.md R28, R29, R35) -/

namespace Sys2Proof.Machine

theorem bitsToNat_append_singleton (b : Bits) (x : Bool) : bitsToNat (b ++ [x]) = 2 * bitsToNat b + x.toNat := by
  simp [bitsToNat, List.foldl_append]

/-- The last bit of a string is the least significant of its number. -/
theorem testBit_bitsToNat (b : Bits) (i : Nat) : (bitsToNat b).testBit i = b.reverse.getD i false := by
  induction b using List.reverseRecOn generalizing i with
  | nil => simp [bitsToNat]
  | append_singleton b x ih =>
    rw [bitsToNat_append_singleton, List.reverse_append, List.reverse_singleton, List.singleton_append]
    cases i with
    | zero => cases x <;> simp [Nat.testBit_zero]
    | succ i =>
      have half : (2 * bitsToNat b + x.toNat) / 2 = bitsToNat b := by cases x <;> simp; omega
      rw [Nat.testBit_succ, half, ih, List.getD_cons_succ]

theorem bitsToNat_lt (b : Bits) : bitsToNat b < 2 ^ b.length := by
  induction b using List.reverseRecOn with
  | nil => simp [bitsToNat]
  | append_singleton b x ih =>
    rw [bitsToNat_append_singleton, List.length_append, List.length_singleton, Nat.pow_succ]
    have := x.toNat_lt
    omega

theorem leftAligned_lt {n : Nat} {b : Bits} (le : b.length ≤ n) : leftAligned n b < 2 ^ n := by
  have lt := bitsToNat_lt (padRight n b)
  rwa [padRight_length n b le] at lt

/-- A zero bit on the right reads as one past the end. -/
theorem getD_padRight (n : Nat) (b : Bits) (m : Nat) : (padRight n b).getD m false = b.getD m false := by
  simp only [padRight, List.getD_eq_getElem?_getD]
  by_cases lt : m < b.length
  · rw [List.getElem?_append_left lt]
  · rw [List.getElem?_append_right (not_lt.mp lt), List.getElem?_eq_none (not_lt.mp lt), List.getElem?_replicate]
    split <;> rfl

/-- Bit `m` of a left-aligned string is the field's bit `m` from the top. -/
theorem testBit_leftAligned {n : Nat} {b : Bits} (le : b.length ≤ n) {m : Nat} (lt : m < n) :
    (leftAligned n b).testBit (n - 1 - m) = b.getD m false := by
  have len := padRight_length n b le
  rw [leftAligned, testBit_bitsToNat, ← getD_padRight n b m, List.getD_eq_getElem?_getD, List.getD_eq_getElem?_getD,
    List.getElem?_reverse (by omega), len]
  congr 2
  omega

/-! ## PACK_STATE (R35) -/

theorem packState_getLsbD (s : State) (k : Nat) : (packState s).getLsbD k =
    (decide (k < 32) && if k < 8 then (s.pk.length % 8).testBit k else (leftAligned 8 s.pk).testBit (k - 8)) := by
  rw [packState, BitVec.getLsbD_ofNat, Nat.testBit_two_pow_mul_add (i := 8) _ (by omega)]

/-- Settles O54: PACK_STATE is the left-aligned bits of PK at bit 8 and their number at bit 0. -/
theorem packStateShowsThePendingBits : Obligations.PackStateShowsThePendingBits := by
  intro s few
  have number : s.pk.length % 8 = s.pk.length := Nat.mod_eq_of_lt (by omega)
  refine ⟨fun idle => readsAs_reg (r := .packState) rfl rfl (.inl idle), ?fill, fun m lt => ?bits, fun k outside => ?rest⟩
  case fill =>
    refine BitVec.eq_of_getLsbD_eq fun k lt => ?_
    have lt8 : k < 8 := by omega
    have lt32 : k < 32 := by omega
    rw [BitVec.getLsbD_extractLsb', Nat.zero_add, readReg, packState_getLsbD, BitVec.getLsbD_ofNat]
    simp [lt, lt8, lt32, number]
  case bits =>
    have ge8 : ¬ 15 - m < 8 := by omega
    have lt32 : 15 - m < 32 := by omega
    have index : 15 - m - 8 = 8 - 1 - m := by omega
    rw [readReg, packState_getLsbD, if_neg ge8, index, testBit_leftAligned (by omega) lt, decide_eq_true lt32,
      Bool.true_and]
  case rest =>
    rw [readReg, packState_getLsbD]
    rcases outside with ⟨ge3, lt8⟩ | ge16
    · have small : s.pk.length % 8 < 2 ^ k :=
        (Nat.mod_lt _ (by decide)).trans_le (Nat.pow_le_pow_right (n := 2) (by decide) ge3)
      rw [if_pos lt8, Nat.testBit_lt_two_pow small, Bool.and_false]
    · have small : leftAligned 8 s.pk < 2 ^ (k - 8) :=
        (leftAligned_lt (by omega)).trans_le (Nat.pow_le_pow_right (n := 2) (by decide) (by omega))
      rw [if_neg (by omega), Nat.testBit_lt_two_pow small, Bool.and_false]

/-! ## CODE (R29) -/

section
variable {s : State} {c : Byte}

theorem placeOf_codeLenEntry {off : HostOff} (at_off : off.toNat = 0x800 + 4 * c.toNat) : placeOf off = .codeLen c := by
  have lt := c.isLt
  have index : (off.toNat - 0x800) / 4 = c.toNat := by omega
  rw [placeOf_codeLen (by omega) (by omega), index, BitVec.ofNat_toNat, BitVec.setWidth_eq]

theorem placeOf_codeBitsEntry {off : HostOff} {j : Nat} (lt_j : j < 8)
    (at_off : off.toNat = 0x1000 + 32 * c.toNat + 4 * j) : placeOf off = .codeBits c j := by
  have lt := c.isLt
  have index : (off.toNat - 0x1000) / 32 = c.toNat := by omega
  have word : (off.toNat - 0x1000) % 32 / 4 = j := by omega
  rw [placeOf_codeBits (by omega) (by omega), index, word, BitVec.ofNat_toNat, BitVec.setWidth_eq]

theorem readsAs_codeLen {off : HostOff} (idle : s.pending = none) (at_off : off.toNat = 0x800 + 4 * c.toNat) :
    readsAs s off (codeLenWord s c) := by
  refine (readsAs_iff (by omega)).mpr ?_
  rw [placeOf_codeLenEntry at_off]
  simp [read32At, busy, idle]

theorem readsAs_codeBits {off : HostOff} {j : Nat} (idle : s.pending = none) (lt_j : j < 8)
    (at_off : off.toNat = 0x1000 + 32 * c.toNat + 4 * j) : readsAs s off (codeBitsWord s c j) := by
  refine (readsAs_iff (by omega)).mpr ?_
  rw [placeOf_codeBitsEntry lt_j at_off]
  simp [read32At, busy, idle]

theorem codeLenWord_of_written {b : Bits} (entry : codeEntry s c = .written b) (le : b.length ≤ 255) :
    codeLenWord s c = BitVec.ofNat 32 b.length := by
  rw [codeEntry] at entry
  simp only [codeLenWord, entry]
  refine BitVec.eq_of_toNat_eq ?_
  rw [BitVec.toNat_setWidth, BitVec.toNat_ofNat, BitVec.toNat_ofNat]
  omega

theorem codeBitsWord_of_written {b : Bits} (entry : codeEntry s c = .written b) (j : Nat) {m : Nat} (lt : m < 32) :
    (codeBitsWord s c j).getLsbD (31 - m) = b.getD (32 * j + m) false := by
  rw [codeEntry] at entry
  simp only [codeBitsWord, entry]
  have index : 31 - m < 32 := by omega
  have word : ((b.drop (32 * j)).take 32).length ≤ 32 := List.length_take_le _ _
  rw [BitVec.getLsbD_ofNat, decide_eq_true index, Bool.true_and, testBit_leftAligned word lt]
  simp [List.getD_eq_getElem?_getD, lt]

theorem codeWords_of_unspecified (entry : codeEntry s c = .unspecified) :
    codeLenWord s c = Config.freeWord s.draws 0 ∧ ∀ j, codeBitsWord s c j = Config.freeWord s.draws 0 := by
  rw [codeEntry] at entry
  simp only [codeLenWord, codeBitsWord, entry, implies_true, and_self]

end

/-- Settles O55: the reads are `codeLenWord` and `codeBitsWord`, and a CODE_BITS word is 32 bits of the code, left-aligned. -/
theorem codeWordsShowTheCode : Obligations.CodeWordsShowTheCode := by
  refine fun s c off idle at_off => ⟨fun b entry le => ⟨?len, fun j boff lt_j at_boff => ?bits⟩, fun entry =>
    ⟨?freeLen, fun j boff lt_j at_boff => ?freeBits⟩⟩
  case len =>
    rw [← codeLenWord_of_written entry le]
    exact readsAs_codeLen idle at_off
  case bits =>
    exact ⟨_, readsAs_codeBits idle lt_j at_boff, fun m lt => codeBitsWord_of_written entry j lt⟩
  case freeLen =>
    rw [← (codeWords_of_unspecified entry).1]
    exact readsAs_codeLen idle at_off
  case freeBits =>
    rw [← (codeWords_of_unspecified entry).2 j]
    exact readsAs_codeBits idle lt_j at_boff

/-! ## NODE (R28) -/

section
variable {s : State} {h : Handle}

theorem placeOf_nodeEntry {off : HostOff} {j : Nat} (le : h.toNat ≤ 510) (lt_j : j < 4)
    (at_off : off.toNat = 0x4000 + 16 * h.toNat + 4 * j) : placeOf off = .node h j := by
  have index : (off.toNat - 0x4000) / 16 = h.toNat := by omega
  have word : (off.toNat - 0x4000) % 16 / 4 = j := by omega
  rw [placeOf_node (by omega) (by omega), index, word, BitVec.ofNat_toNat, BitVec.setWidth_eq]

theorem readsAs_nodeWord {off : HostOff} {j : Nat} (idle : s.pending = none) (le : h.toNat ≤ 510) (lt_j : j < 4)
    (at_off : off.toNat = 0x4000 + 16 * h.toNat + 4 * j) : readsAs s off (nodeWord s h j) := by
  refine (readsAs_iff (by omega)).mpr ?_
  rw [placeOf_nodeEntry le lt_j at_off]
  simp [read32At, busy, idle]

theorem nodeWord_of_node {n : Node} (node : nodeAt s h = some n) (j : Nat) : nodeWord s h j = n.word j := by
  simp only [nodeWord, node]

theorem nodeWord_of_beyond (beyond : s.nodeCount.toNat ≤ h.toNat) (j : Nat) :
    nodeWord s h j = Config.freeWord s.draws 0 := by
  simp only [nodeWord, nodeAt, not_lt.mpr beyond, if_false]

end

/-- Word 0 of a node is FREQ[31:0]. -/
theorem Node.word_zero (n : Node) : n.word 0 = n.freq.extractLsb' 0 32 := by cases n <;> rfl

/-- Word 1 of a node: FREQ[39:32] below, IS_LEAF at the top, 0 between. -/
theorem Node.word_one (n : Node) : (n.word 1).extractLsb' 0 8 = n.freq.extractLsb' 32 8 ∧
    (n.word 1).getLsbD 31 = n.isLeaf ∧ (n.word 1).extractLsb' 8 23 = 0 := by
  have top : (0x80000000 : Word) = BitVec.twoPow 32 31 := by decide
  have bit (k : Nat) (lt : k < 32) : (n.word 1).getLsbD k =
      ((decide (k < 8) && n.freq.getLsbD (32 + k)) || (n.isLeaf && decide (k = 31))) := by
    cases n <;> simp [Node.word, top, Node.freq, Node.isLeaf, lt, Bool.or_comm]
  refine ⟨BitVec.eq_of_getLsbD_eq fun k lt => ?_, (bit 31 (by decide)).trans (by simp), BitVec.eq_of_getLsbD_eq fun k lt => ?_⟩
  · have ne31 : k ≠ 31 := by omega
    rw [BitVec.getLsbD_extractLsb', BitVec.getLsbD_extractLsb', Nat.zero_add, bit k (by omega)]
    simp [lt, ne31]
  · have ne31 : 8 + k ≠ 31 := by omega
    rw [BitVec.getLsbD_extractLsb', bit (8 + k) (by omega)]
    simp [ne31]

/-- Word 2 of a node: LEFT below, RIGHT from bit 16 on, 0 elsewhere. -/
theorem Node.word_two (n : Node) : (n.word 2).extractLsb' 0 9 = n.left ∧ (n.word 2).extractLsb' 16 9 = n.right ∧
    (n.word 2).extractLsb' 9 7 = 0 ∧ (n.word 2).extractLsb' 25 7 = 0 := by
  cases n with
  | leaf f c => simp [Node.word, Node.left, Node.right]
  | internal f l r =>
    have bit (k : Nat) (lt : k < 32) : ((Node.internal f l r).word 2).getLsbD k =
        (l.getLsbD k || (!decide (k < 16) && r.getLsbD (k - 16))) := by
      simp [Node.word, lt, Bool.or_comm]
    have low (k : Nat) (ge : 9 ≤ k) : l.getLsbD k = false := BitVec.getLsbD_of_ge _ _ ge
    refine ⟨?_, ?_, ?_, ?_⟩
    all_goals
      refine BitVec.eq_of_getLsbD_eq fun k lt => ?_
      rw [BitVec.getLsbD_extractLsb', bit _ (by omega)]
    · have below : k < 16 := by omega
      simp [lt, Node.left, below]
    · have zero : l.getLsbD (16 + k) = false := low _ (by omega)
      simp [lt, Node.right, zero]
    · have below : 9 + k < 16 := by omega
      simp [below]
    · have zero : l.getLsbD (25 + k) = false := low _ (by omega)
      have index : 25 + k - 16 = 9 + k := by omega
      simp [zero, index]

/-- Word 3 of a node is SYMBOL. -/
theorem Node.word_three (n : Node) : n.word 3 = n.symbol.setWidth 32 := by cases n <;> rfl

/-- Settles O56: the four reads are the node's words, or the draw at or above NODE_COUNT. -/
theorem nodeWordsShowTheNode : Obligations.NodeWordsShowTheNode := by
  intro s h off idle le at_off
  have read (j : Nat) (lt_j : j < 4) (o : HostOff) (at_o : o.toNat = 0x4000 + 16 * h.toNat + 4 * j) :
      readsAs s o (nodeWord s h j) := readsAs_nodeWord idle le lt_j at_o
  have read0 := read 0 (by decide) off at_off
  have read1 := read 1 (by decide) (off + 4) (by bv_omega)
  have read2 := read 2 (by decide) (off + 8) (by bv_omega)
  have read3 := read 3 (by decide) (off + 12) (by bv_omega)
  refine ⟨fun n node => ?below, fun beyond => ?beyond⟩
  case below =>
    rw [nodeWord_of_node node] at read0 read1 read2 read3
    obtain ⟨freq, leaf, zero⟩ := n.word_one
    exact ⟨_, _, _, _, read0, read1, read2, read3, n.word_zero, freq, leaf, zero, n.word_two.1, n.word_two.2.1,
      n.word_two.2.2.1, n.word_two.2.2.2, n.word_three⟩
  case beyond =>
    rw [nodeWord_of_beyond beyond] at read0 read1 read2 read3
    exact ⟨read0, read1, read2, read3⟩

end Sys2Proof.Machine
end

section
/-! ## Reset and the clean entry of a run (70_reset_and_hazards.md R240 to R243, R258) -/

namespace Sys2Proof.Machine

theorem codeEntry_resetBlock (s : State) (c : Byte) : codeEntry (resetBlock s) c = .unspecified :=
  Vector.getElem_replicate c.isLt

theorem freqEntry_resetBlock (s : State) (c : Byte) : freqEntry (resetBlock s) c = .unspecified :=
  Vector.getElem_replicate c.isLt

theorem nodeAt_resetBlock (s : State) (h : Handle) : nodeAt (resetBlock s) h = none := if_neg (Nat.not_lt_zero _)

/-- After reset every register but ID and LMEM_SIZE reads 0 (R242). -/
theorem read32At_resetBlock (s : State) {r : Reg} (notId : r ≠ .id) (notSize : r ≠ .lmemSize) :
    read32At (resetBlock s) (.reg r) = 0 := by
  rw [read32At_reg_of_idle r rfl]
  cases r with
  | id => exact absurd rfl notId
  | lmemSize => exact absurd rfl notSize
  | ctrl => exact (by decide : ctrlWord State.reset = 0)
  | status => exact (statusWord_of_idle rfl).trans (by decide : statusLow State.reset ||| statusHigh State.reset = 0)
  | _ => rfl

/-- Settles O59: reset answers `resetBlock`, whose fields are those of `State.reset` but for LMEM_SIZE and the model's own. -/
theorem resetGivesTheResetState : Obligations.ResetGivesTheResetState := fun s =>
  ⟨resetBlock s, rfl, rfl, rfl, rfl, rfl, rfl, rfl, rfl, rfl, rfl, rfl, rfl, rfl, rfl, rfl, rfl, rfl, rfl, rfl, rfl, rfl,
    rfl, rfl, rfl, fun c => ⟨freqEntry_resetBlock s c, codeEntry_resetBlock s c⟩, nodeAt_resetBlock s, rfl, rfl, rfl, rfl,
    rfl, rfl, rfl, rfl, fun _ => read32At_resetBlock s⟩

/-- Settles O60: reset leaves nothing pending, so the write is accepted (`hostStep_write_cmd`), and the word 1 is CLEAR. -/
theorem clearAfterResetIsCleanEntry : Obligations.ClearAfterResetIsCleanEntry := by
  intro s r a reset write
  obtain rfl := Host.Outcome.next.inj reset
  rw [hostStep_write_cmd, unlessBusy_of_idle _ rfl] at write
  obtain rfl := Host.Outcome.next.inj write
  exact ⟨_, (engineStep_of_ok (i := .clear) rfl (decodeWord_encodeInstr .clear)).trans (exec_clear _), rfl⟩

/-- Without a tree the invariants say that its registers are 0, that nothing is pending in the packer, and no more of the
tree. -/
theorem inv_of_noTree {s : State} (valid : s.treeValid = false) (codes : s.codesValid = false)
    (zero : s.numSyms = 0 ∧ s.nodeCount = 0 ∧ s.root = 0 ∧ s.decNode = 0) (pk : s.pk = [])
    (errors : s.err = false ↔ s.errCode = 0) (memory : lmemBounded s) (arena : s.node.length ≤ Config.maxNodes) :
    Inv s where
  codes h := by cases codes.symm.trans h
  tree h := by cases valid.symm.trans h
  noTree _ := zero
  packer := by simp [pk]
  padOut := Nat.le_of_lt_succ s.padOut.isLt
  errors := errors
  memory := memory
  arena := arena

theorem inv_resetBlock (s : State) : Inv (resetBlock s) :=
  inv_of_noTree rfl rfl ⟨rfl, rfl, rfl, rfl⟩ rfl (iff_of_true rfl rfl) ⟨rfl, List.forall_mem_nil _⟩ (Nat.zero_le _)

/-- Settles O6: reset leaves no tree, and the rest of the invariants is about empty things. -/
theorem resetStateMeetsTheInvariants : Obligations.ResetStateMeetsTheInvariants := inv_resetBlock State.reset

end Sys2Proof.Machine
end

section
/-! ## PopMin (41_tree_builder.md R130) -/

namespace Sys2Proof.Machine

theorem QueueKey.less_iff {a b : QueueKey} : a.less b = true ↔
    a.freq.toNat < b.freq.toNat ∨ (a.freq.toNat = b.freq.toNat ∧ a.handle < b.handle) := by
  simp [QueueKey.less, BitVec.toNat_inj]

/-- Before or equal: the order of R130 is the lexicographic order on frequency and handle. -/
theorem QueueKey.not_less_iff {a b : QueueKey} : a.less b = false ↔
    b.freq.toNat < a.freq.toNat ∨ (b.freq.toNat = a.freq.toNat ∧ b.handle ≤ a.handle) := by
  rw [← Bool.not_eq_true, QueueKey.less_iff]
  omega

/-- No element that PopMin leaves comes before the one it takes. -/
theorem popMin_least {q rest : List QueueKey} {a : QueueKey} (pop : popMin q = some (a, rest)) :
    ∀ b ∈ rest, b.less a = false := by
  induction q generalizing a rest with
  | nil => simp [popMin] at pop
  | cons x xs ih =>
    unfold popMin at pop
    split at pop
    · cases pop; simp
    · next y ys popRest =>
      have least := ih popRest
      split at pop
      · next first =>
        cases pop
        intro b mem
        rcases List.mem_cons.mp ((popMin_perm popRest).mem_iff.mp mem) with rfl | mem
        · rw [QueueKey.not_less_iff]
          rw [QueueKey.less_iff] at first
          omega
        · have := QueueKey.not_less_iff.mp (least b mem)
          rw [QueueKey.less_iff] at first
          rw [QueueKey.not_less_iff]
          omega
      · next later =>
        cases pop
        rintro b (_ | ⟨_, mem⟩)
        · exact Bool.not_eq_true _ ▸ later
        · exact least b mem

/-- Settles O19: PopMin answers on every queue that is not empty, with a permutation of it (`popMin_perm`) whose head is
least (`popMin_least`). -/
theorem popMinTakesTheLeastKey : Obligations.PopMinTakesTheLeastKey := by
  intro q nonempty
  obtain ⟨x, xs, rfl⟩ := List.exists_cons_of_ne_nil nonempty
  obtain ⟨a, rest, pop⟩ := popMin_isSome x xs
  exact ⟨a, rest, pop, popMin_perm pop, popMin_least pop⟩

end Sys2Proof.Machine
end

section
/-! ## Trees in an arena (10_state.md R28, R44) -/

namespace Sys2Proof.Machine

def Tree.root : Tree → Handle
  | .leaf h _ => h
  | .internal h _ _ => h

@[simp] theorem Tree.root_leaf (h : Handle) (c : Byte) : (Tree.leaf h c).root = h := rfl
@[simp] theorem Tree.root_internal (h : Handle) (l r : Tree) : (Tree.internal h l r).root = h := rfl

/-- The nodes of the tree are what `look` finds at its handles. -/
def Tree.StoredIn (look : Handle → Option Node) : Tree → Prop
  | .leaf h c => ∃ f, look h = some (.leaf f c)
  | .internal h l r => (∃ f, look h = some (.internal f l.root r.root)) ∧ l.StoredIn look ∧ r.StoredIn look

theorem Tree.StoredIn.mono {look look' : Handle → Option Node} (le : ∀ h n, look h = some n → look' h = some n)
    {tr : Tree} (stored : tr.StoredIn look) : tr.StoredIn look' := by
  induction tr with
  | leaf h c =>
    obtain ⟨f, here⟩ := stored
    exact ⟨f, le _ _ here⟩
  | internal h l r ihLeft ihRight =>
    obtain ⟨⟨f, here⟩, storedLeft, storedRight⟩ := stored
    exact ⟨⟨f, le _ _ here⟩, ihLeft storedLeft, ihRight storedRight⟩

/-- A stored tree is what the walk from its root finds. -/
theorem fromArena_of_storedIn {look : Handle → Option Node} {tr : Tree} {depth : Nat}
    (deep : tr.internalHandles.length < depth) (stored : tr.StoredIn look) :
    Tree.fromArena look depth tr.root = some tr := by
  induction tr generalizing depth with
  | leaf h c =>
    obtain ⟨depth, rfl⟩ := Nat.exists_eq_add_one_of_ne_zero (Nat.ne_zero_of_lt deep)
    obtain ⟨f, here⟩ := stored
    rw [Tree.root, Tree.fromArena, here]
  | internal h l r ihLeft ihRight =>
    obtain ⟨depth, rfl⟩ := Nat.exists_eq_add_one_of_ne_zero (Nat.ne_zero_of_lt deep)
    obtain ⟨⟨f, here⟩, storedLeft, storedRight⟩ := stored
    simp only [Tree.internalHandles, List.length_cons, List.length_append] at deep
    have readLeft := ihLeft (depth := depth) (by omega) storedLeft
    have readRight := ihRight (depth := depth) (by omega) storedRight
    rw [Tree.root, Tree.fromArena, here]
    simp only [readLeft, readRight]

/-- A walk that ends finds a stored tree with its root where it started. -/
theorem storedIn_of_fromArena {look : Handle → Option Node} {depth : Nat} {h : Handle} {tr : Tree}
    (walk : Tree.fromArena look depth h = some tr) : tr.root = h ∧ tr.StoredIn look := by
  induction depth generalizing h tr with
  | zero => simp [Tree.fromArena] at walk
  | succ depth ih =>
    simp only [Tree.fromArena] at walk
    split at walk
    · cases walk
    · next f c here => cases walk; exact ⟨rfl, f, here⟩
    · next f l r here =>
      split at walk
      · cases walk
      · next tl walkLeft =>
        split at walk
        · cases walk
        · next trr walkRight =>
          cases walk
          obtain ⟨rfl, storedLeft⟩ := ih walkLeft
          obtain ⟨rfl, storedRight⟩ := ih walkRight
          exact ⟨rfl, ⟨f, here⟩, storedLeft, storedRight⟩

theorem storedIn_of_treeOf {s : State} {tr : Tree} (reads : treeOf s = some tr) :
    tr.root = s.root ∧ tr.StoredIn (nodeAt s) := storedIn_of_fromArena reads

/-- The nodes of a list under their places as handles. -/
def arena (nodes : List Node) (h : Handle) : Option Node := nodes[h.toNat]?

/-- FREQ of the node at a place of the list. -/
def freqAt (nodes : List Node) (h : Nat) : NodeFreq := (nodes[h]?.map Node.freq).getD 0

/-- Handles each once are as many as NODE_COUNT, and distinct symbols at most 256: the arena's bounds (00_scope.md R7). -/
theorem Tree.handles_length_le {tr : Tree} (distinct : tr.symbols.Nodup) : tr.handles.length ≤ Config.maxNodes := by
  have few := Tree.internalHandles_length_le distinct
  have count := tr.handles_length_eq
  simp only [Config.maxInternal] at few
  unfold Config.maxNodes
  omega

/-- Below 1024 nodes, NODE_COUNT is their number, and an installed arena holds exactly them. -/
theorem nodeAt_installTree_eq_arena {nodes : List Node} (few : nodes.length ≤ Config.maxNodes) (k : Nat) (r : Handle)
    (s : State) : nodeAt (installTree nodes k r s) = arena nodes := by
  have count : (BitVec.ofNat 10 nodes.length).toNat = nodes.length :=
    Nat.mod_eq_of_lt (few.trans_lt (by decide))
  funext h
  rw [nodeAt_installTree, count, arena]
  split
  · rfl
  · next beyond => exact (List.getElem?_eq_none (not_lt.mp beyond)).symm

theorem nodeFreq_eq_freqAt {s : State} {nodes : List Node} (holds : nodeAt s = arena nodes) (h : Handle) :
    nodeFreq s h = freqAt nodes h.toNat := by
  rw [nodeFreq, holds, arena, freqAt]
  cases nodes[h.toNat]? <;> rfl

/-- A full tree with distinct symbols, stored in a list of nodes that it uses each once, and whose frequencies are sums, is a
valid tree once it is installed. -/
theorem treeInv_installTree {nodes : List Node} {tr : Tree} (s : State) (stored : tr.StoredIn (arena nodes))
    (eachOnce : (tr.handles.map BitVec.toNat).Perm (List.range nodes.length)) (distinct : tr.symbols.Nodup)
    (sums : ∀ (h : Nat) (f : NodeFreq) (l r : Handle), nodes[h]? = some (.internal f l r) →
      f = freqAt nodes l.toNat + freqAt nodes r.toNat) :
    TreeInv (installTree nodes tr.symbols.length tr.root s) tr := by
  have few := Tree.internalHandles_length_le distinct
  have leaves := tr.symbols_length_eq
  have count := tr.handles_length_eq
  have length : tr.handles.length = nodes.length := by simpa using eachOnce.length_eq
  simp only [Config.maxInternal] at few
  have fewNodes : nodes.length ≤ Config.maxNodes := by unfold Config.maxNodes; omega
  have holds := nodeAt_installTree_eq_arena fewNodes tr.symbols.length tr.root s
  have numSyms : (BitVec.ofNat 9 tr.symbols.length).toNat = tr.symbols.length := Nat.mod_eq_of_lt (by omega)
  have nodeCount : (BitVec.ofNat 10 nodes.length).toNat = nodes.length := Nat.mod_eq_of_lt (by omega)
  exact {
    reads := by
      rw [treeOf, holds]
      exact fromArena_of_storedIn (by unfold Config.maxNodes; omega) stored
    atLeastOne := by rw [installTree_numSyms, numSyms]; omega
    atMost256 := by rw [installTree_numSyms, numSyms]; omega
    numSyms := numSyms
    nodeCount := by rw [installTree_numSyms, numSyms, installTree_nodeCount, nodeCount]; omega
    eachHandleOnce := by rwa [installTree_nodeCount, nodeCount]
    distinctSymbols := distinct
    decoder := .inl rfl
    sums := fun h f l r node => by
      rw [nodeFreq_eq_freqAt holds, nodeFreq_eq_freqAt holds]
      rw [holds] at node
      exact sums _ _ _ _ node }

/-! ## The invariants over updates of the state (R44) -/

/-- The fields that hold the tree are the same in both states. -/
structure SameTree (s t : State) : Prop where
  treeValid : t.treeValid = s.treeValid
  numSyms : t.numSyms = s.numSyms
  nodeCount : t.nodeCount = s.nodeCount
  root : t.root = s.root
  node : t.node = s.node

theorem sameTree_complete (s : State) : SameTree s (complete s) := ⟨rfl, rfl, rfl, rfl, rfl⟩

section
variable {s t : State} (same : SameTree s t)
include same

theorem SameTree.nodeAt : nodeAt t = nodeAt s := by
  funext h
  rw [Machine.nodeAt, Machine.nodeAt, same.nodeCount, same.node]

theorem SameTree.treeOf : treeOf t = treeOf s := by rw [Machine.treeOf, Machine.treeOf, same.nodeAt, same.root]

theorem SameTree.treeInv {tr : Tree} (inv : TreeInv s tr) (decoder : t.decNode = s.root ∨ t.decNode ∈ tr.internalHandles) :
    TreeInv t tr where
  reads := same.treeOf.trans inv.reads
  atLeastOne := by rw [same.numSyms]; exact inv.atLeastOne
  atMost256 := by rw [same.numSyms]; exact inv.atMost256
  numSyms := by rw [same.numSyms]; exact inv.numSyms
  nodeCount := by rw [same.numSyms, same.nodeCount]; exact inv.nodeCount
  eachHandleOnce := by rw [same.nodeCount]; exact inv.eachHandleOnce
  distinctSymbols := inv.distinctSymbols
  decoder := by rw [same.root]; exact decoder
  sums := fun h f l r node => by
    simp only [nodeFreq, same.nodeAt] at node ⊢
    exact inv.sums h f l r node

end

section
variable {s t : State} (inv : Inv s) (same : SameTree s t)
include inv same

/-- An update that leaves the tree keeps the invariants where it keeps those of the codes, the decoder, the packer, the error
record and LMEM. -/
theorem Inv.of_sameTree
    (codes : t.codesValid = true → s.treeValid = true ∧ ∃ tr, Machine.treeOf s = some tr ∧ t.code = codeTable tr)
    (decoder : ∀ tr, TreeInv s tr → t.decNode = s.root ∨ t.decNode ∈ tr.internalHandles)
    (noTree : s.treeValid = false → t.decNode = 0)
    (packer : t.pk.length ≤ 7 ∧ (t.pk ≠ [] → t.codesValid = true)) (errors : t.err = false ↔ t.errCode = 0)
    (memory : lmemBounded t) : Inv t where
  codes valid := by rw [same.treeValid, same.treeOf]; exact codes valid
  tree valid := by
    obtain ⟨tr, treeInv⟩ := inv.tree (same.treeValid ▸ valid)
    exact ⟨tr, same.treeInv treeInv (decoder tr treeInv)⟩
  noTree invalid := by
    have invalid' := same.treeValid ▸ invalid
    obtain ⟨numSyms, nodeCount, root, -⟩ := inv.noTree invalid'
    exact ⟨same.numSyms.trans numSyms, same.nodeCount.trans nodeCount, same.root.trans root, noTree invalid'⟩
  packer := packer
  padOut := Nat.le_of_lt_succ t.padOut.isLt
  errors := errors
  memory := memory
  arena := by rw [same.node]; exact inv.arena

/-- An update that leaves the tree, the codes and the decoder keeps the invariants where it keeps those of PK, the error
record and LMEM. -/
theorem Inv.of_sameTree_codes (code : t.code = s.code) (codesValid : t.codesValid = s.codesValid)
    (decNode : t.decNode = s.decNode) (packer : t.pk.length ≤ 7 ∧ (t.pk ≠ [] → s.codesValid = true))
    (errors : t.err = false ↔ t.errCode = 0) (memory : lmemBounded t) : Inv t := by
  refine inv.of_sameTree same ?_ ?_ ?_ (codesValid ▸ packer) errors memory
  · rw [code, codesValid]
    exact inv.codes
  · rw [decNode]
    exact fun tr treeInv => treeInv.decoder
  · rw [decNode]
    exact fun invalid => (inv.noTree invalid).2.2.2

end

/-- Installing a valid tree keeps the rest of the invariants: the codes and PK are cleared. -/
theorem inv_of_installTree {s t : State} {nodes : List Node} {k : Nat} {r : Handle} {tr : Tree} (inv : Inv s)
    (treeInv : TreeInv t tr) (few : nodes.length ≤ Config.maxNodes)
    (installed : t = complete { installTree nodes k r s with resultLen := t.resultLen }) : Inv t where
  codes valid := by rw [installed] at valid; cases valid
  tree _ := ⟨tr, treeInv⟩
  noTree invalid := by rw [installed] at invalid; cases invalid
  packer := by rw [installed]; simp
  padOut := Nat.le_of_lt_succ t.padOut.isLt
  errors := by rw [installed]; exact inv.errors
  memory := by rw [installed]; exact inv.memory
  arena := by
    rw [installed]
    have := inv.arena
    simp only [complete_node, installTree_node, List.length_append, List.length_drop]
    omega

end Sys2Proof.Machine
end

section
/-! ## The merge loop of BUILD (41_tree_builder.md R130, R131) -/

namespace Sys2Proof.Machine

/-- The queue element of the node that joins `a` and `b`, at handle `n`. -/
def mergedKey (a b : QueueKey) (n : Nat) : QueueKey := ⟨a.freq + b.freq, n⟩

@[simp] theorem mergedKey_handle (a b : QueueKey) (n : Nat) : (mergedKey a b n).handle = n := rfl

/-- The node that joins `a` and `b`. -/
def mergedNode (a b : QueueKey) : Node :=
  .internal (a.freq + b.freq) (BitVec.ofNat 9 a.handle) (BitVec.ofNat 9 b.handle)

/-- PopMin takes `a` and then `b`, and leaves `rest`. -/
def popsTwo (queue : List QueueKey) (a b : QueueKey) (rest : List QueueKey) : Prop :=
  ∃ q1, popMin queue = some (a, q1) ∧ popMin q1 = some (b, rest)

theorem popsTwo.perm {queue rest : List QueueKey} {a b : QueueKey} (pops : popsTwo queue a b rest) :
    queue.Perm (a :: b :: rest) := by
  obtain ⟨q1, popA, popB⟩ := pops
  exact (popMin_perm popA).trans ((popMin_perm popB).cons a)

/-- The first element taken is not after the second, and the second not after any that is left. -/
theorem popsTwo.least {queue rest : List QueueKey} {a b : QueueKey} (pops : popsTwo queue a b rest) :
    b.less a = false ∧ ∀ x ∈ rest, x.less b = false := by
  obtain ⟨q1, popA, popB⟩ := pops
  exact ⟨popMin_least popA b ((popMin_perm popB).mem_iff.mpr List.mem_cons_self), popMin_least popB⟩

/-- What holds of the queue and the nodes at the start, and is kept by every merge, holds when one element is left; and the
loop gets there. -/
theorem mergeLoop_keeps {P : List QueueKey → List Node → Prop}
    (step : ∀ queue nodes a b rest, popsTwo queue a b rest → P queue nodes →
      P (rest ++ [mergedKey a b nodes.length]) (nodes ++ [mergedNode a b]))
    {fuel : Nat} {queue : List QueueKey} {nodes : List Node} (start : P queue nodes) (nonempty : queue ≠ [])
    (le : queue.length ≤ fuel) :
    ∃ root nodes', mergeLoop fuel queue nodes = (root.handle, nodes') ∧ P [root] nodes' := by
  induction fuel generalizing queue nodes with
  | zero => exact absurd (List.length_eq_zero_iff.mp (Nat.le_zero.mp le)) nonempty
  | succ fuel ih =>
    obtain ⟨x, xs, rfl⟩ := List.exists_cons_of_ne_nil nonempty
    obtain ⟨a, q1, popA⟩ := popMin_isSome x xs
    have permA := popMin_perm popA
    simp only [mergeLoop, popA]
    cases popB : popMin q1 with
    | none =>
      cases q1 with
      | nil =>
        rw [List.perm_singleton.mp permA] at start
        exact ⟨a, nodes, rfl, start⟩
      | cons y ys =>
        obtain ⟨_, _, some⟩ := popMin_isSome y ys
        cases popB.symm.trans some
    | some popped =>
      obtain ⟨b, rest⟩ := popped
      have length := permA.length_eq
      have length1 := (popMin_perm popB).length_eq
      simp only [List.length_cons] at length length1 le
      exact ih (step _ _ a b rest ⟨q1, popA, popB⟩ start) (by simp) (by simp; omega)

/-! ## The queue (R130) -/

/-- The handles that the nodes of a list have as children. -/
def childrenOf (nodes : List Node) : List Nat :=
  nodes.flatMap fun n =>
    match n with
    | .leaf _ _ => []
    | .internal _ l r => [l.toNat, r.toNat]

/-- The queue element of the node at a place. -/
def keyAt (nodes : List Node) (h : Nat) : QueueKey := ⟨freqAt nodes h, h⟩

/-- The node made of `l` and `r` joins the two least of the nodes before it that none of them has taken, in this order. -/
structure MergesLeast (nodes : List Node) (v : NodeFreq) (l r : Handle) : Prop where
  leftBelow : l.toNat < nodes.length
  rightBelow : r.toNat < nodes.length
  freq : v = freqAt nodes l.toNat + freqAt nodes r.toNat
  leftFree : l.toNat ∉ childrenOf nodes
  rightFree : r.toNat ∉ childrenOf nodes
  leftFirst : (keyAt nodes l.toNat).less (keyAt nodes r.toNat) = true
  rightSecond : ∀ x < nodes.length, x ≠ l.toNat → x ≠ r.toNat → x ∉ childrenOf nodes →
    (keyAt nodes r.toNat).less (keyAt nodes x) = true

/-- What the merge loop keeps: the queue is of the nodes that none has taken, and every internal node was made of the two
least of its time. -/
structure QueueInv (leaves : List Node) (queue : List QueueKey) (nodes : List Node) : Prop where
  size : nodes.length + queue.length = 2 * leaves.length
  start : leaves <+: nodes
  keys : ∀ q ∈ queue, q.freq = freqAt nodes q.handle
  free : (childrenOf nodes ++ queue.map QueueKey.handle).Perm (List.range nodes.length)
  newest : ∃ q ∈ queue, q.handle + 1 = nodes.length
  merges : ∀ (h : Nat) (v : NodeFreq) (l r : Handle), nodes[h]? = some (.internal v l r) →
    MergesLeast (nodes.take h) v l r

theorem freqAt_append_left {nodes : List Node} {h : Nat} (below : h < nodes.length) (more : List Node) :
    freqAt (nodes ++ more) h = freqAt nodes h := by
  rw [freqAt, List.getElem?_append_left below, freqAt]

theorem freqAt_append_length (nodes : List Node) (n : Node) : freqAt (nodes ++ [n]) nodes.length = n.freq := by
  rw [freqAt, List.getElem?_concat_length]
  rfl

section
variable {leaves : List Node} {queue rest : List QueueKey} {nodes : List Node} {a b : QueueKey}
  (inv : QueueInv leaves queue nodes)
include inv

theorem QueueInv.handle_lt {q : QueueKey} (mem : q ∈ queue) : q.handle < nodes.length :=
  List.mem_range.mp (inv.free.mem_iff.mp (List.mem_append_right _ (List.mem_map_of_mem mem)))

theorem QueueInv.keyAt {q : QueueKey} (mem : q ∈ queue) : keyAt nodes q.handle = q := by
  rw [Machine.keyAt, ← inv.keys q mem]

theorem QueueInv.nodup : (childrenOf nodes ++ queue.map QueueKey.handle).Nodup :=
  inv.free.nodup_iff.mpr List.nodup_range

theorem QueueInv.handle_free {q : QueueKey} (mem : q ∈ queue) : q.handle ∉ childrenOf nodes := fun taken =>
  (List.nodup_append.mp inv.nodup).2.2 _ taken _ (List.mem_map_of_mem mem) rfl

/-- A node that none has taken is in the queue. -/
theorem QueueInv.mem_of_free {x : Nat} (below : x < nodes.length) (free : x ∉ childrenOf nodes) :
    ∃ q ∈ queue, q.handle = x := by
  have mem := inv.free.mem_iff.mpr (List.mem_range.mpr below)
  exact List.mem_map.mp ((List.mem_append.mp mem).resolve_left free)

/-- The two nodes that PopMin takes are the least free ones. -/
theorem QueueInv.mergesLeast (few : nodes.length ≤ Config.maxNodes) (pops : popsTwo queue a b rest) :
    MergesLeast nodes (a.freq + b.freq) (BitVec.ofNat 9 a.handle) (BitVec.ofNat 9 b.handle) := by
  have perm := pops.perm
  obtain ⟨firstA, firstB⟩ := pops.least
  have memA : a ∈ queue := perm.mem_iff.mpr (by simp)
  have memB : b ∈ queue := perm.mem_iff.mpr (by simp)
  have belowA := inv.handle_lt memA
  have belowB := inv.handle_lt memB
  have distinct : (a.handle :: b.handle :: rest.map QueueKey.handle).Nodup :=
    (perm.map QueueKey.handle).nodup_iff.mp (List.Nodup.of_append_right inv.nodup)
  obtain ⟨ne, distinct⟩ := List.nodup_cons.mp distinct
  unfold Config.maxNodes at few
  have left : (BitVec.ofNat 9 a.handle).toNat = a.handle := Nat.mod_eq_of_lt (by omega)
  have right : (BitVec.ofNat 9 b.handle).toNat = b.handle := Nat.mod_eq_of_lt (by omega)
  have ne : a.handle ≠ b.handle := fun eq => ne (by simp [eq])
  constructor <;> simp only [left, right, inv.keyAt memA, inv.keyAt memB]
  case leftBelow => exact belowA
  case rightBelow => exact belowB
  case freq => rw [inv.keys a memA, inv.keys b memB]
  case leftFree => exact inv.handle_free memA
  case rightFree => exact inv.handle_free memB
  case leftFirst =>
    rw [QueueKey.not_less_iff] at firstA
    rw [QueueKey.less_iff]
    omega
  case rightSecond =>
    intro x below neA neB free
    obtain ⟨q, mem, rfl⟩ := inv.mem_of_free below free
    rw [inv.keyAt mem]
    have memRest : q ∈ rest := by
      rcases List.mem_cons.mp (perm.mem_iff.mp mem) with rfl | mem
      · exact absurd rfl neA
      · exact (List.mem_cons.mp mem).resolve_left fun eq => neB (congrArg _ eq)
    have notBefore := QueueKey.not_less_iff.mp (firstB q memRest)
    rw [QueueKey.less_iff]
    omega

theorem QueueInv.merge (few : leaves.length ≤ 256) (pops : popsTwo queue a b rest) :
    QueueInv leaves (rest ++ [mergedKey a b nodes.length]) (nodes ++ [mergedNode a b]) := by
  have perm := pops.perm
  have size := inv.size
  have shrinks := perm.length_eq
  simp only [List.length_cons] at shrinks
  have fewNodes : nodes.length ≤ Config.maxNodes := by unfold Config.maxNodes; omega
  have memRest (q : QueueKey) (mem : q ∈ rest) : q ∈ queue := perm.mem_iff.mpr (by simp [mem])
  have belowA := inv.handle_lt (perm.mem_iff.mpr List.mem_cons_self)
  have belowB := inv.handle_lt (q := b) (perm.mem_iff.mpr (by simp))
  have children : childrenOf (nodes ++ [mergedNode a b]) = childrenOf nodes ++ [a.handle, b.handle] := by
    unfold Config.maxNodes at fewNodes
    have left : (BitVec.ofNat 9 a.handle).toNat = a.handle := Nat.mod_eq_of_lt (by omega)
    have right : (BitVec.ofNat 9 b.handle).toNat = b.handle := Nat.mod_eq_of_lt (by omega)
    simp only [childrenOf, mergedNode, List.flatMap_append, List.flatMap_singleton, left, right]
  refine ⟨?size, ?start, fun q mem => ?keys, ?free, ?newest, fun h v l r node => ?merges⟩
  case size => simp only [List.length_append, List.length_singleton]; omega
  case start => exact inv.start.trans (List.prefix_append _ _)
  case newest => exact ⟨mergedKey a b nodes.length, by simp, by simp [mergedKey]⟩
  case keys =>
    rcases List.mem_append.mp mem with mem | mem
    · rw [freqAt_append_left (inv.handle_lt (memRest q mem)), inv.keys q (memRest q mem)]
    · obtain rfl := List.mem_singleton.mp mem
      exact (freqAt_append_length nodes (mergedNode a b)).symm
  case free =>
    have before := ((perm.map QueueKey.handle).append_left (childrenOf nodes)).symm.trans inv.free
    rw [children, List.map_append, List.length_append, List.length_singleton, List.range_succ, ← List.append_assoc]
    refine List.Perm.append_right [nodes.length] ?_
    simpa using before
  case merges =>
    by_cases old : h < nodes.length
    · rw [List.getElem?_append_left old] at node
      rw [List.take_append_of_le_length old.le]
      exact inv.merges h v l r node
    · obtain ⟨lt, -⟩ := List.getElem?_eq_some_iff.mp node
      obtain rfl : h = nodes.length := by
        simp only [List.length_append, List.length_singleton] at lt
        omega
      rw [List.getElem?_concat_length] at node
      rw [List.take_left]
      cases node
      exact inv.mergesLeast fewNodes pops

end

/-! ## The trees under the queue's elements -/

/-- The subtrees under the elements of the queue are stored in the nodes and use each node once, and their leaves are the
leaves of the start. -/
def Forest (leaves : List Node) (queue : List QueueKey) (nodes : List Node) : Prop :=
  ∃ trees : List Tree, (trees.map fun tr => tr.root.toNat).Perm (queue.map QueueKey.handle) ∧
    (∀ tr ∈ trees, tr.StoredIn (arena nodes)) ∧
    ((trees.flatMap Tree.handles).map BitVec.toNat).Perm (List.range nodes.length) ∧
    (trees.flatMap Tree.symbols).Perm (leaves.map Node.symbol)

theorem arena_append {nodes : List Node} {h : Handle} {n : Node} (node : arena nodes h = some n) (more : List Node) :
    arena (nodes ++ more) h = some n := by
  obtain ⟨lt, -⟩ := List.getElem?_eq_some_iff.mp node
  rw [arena, List.getElem?_append_left lt]
  exact node

/-- Where the images of a list are `x` and `rest` up to order, `x` is the image of an element and `rest` those of the
others. -/
theorem exists_perm_cons_of_map_perm {α β : Type} {f : α → β} {l : List α} {x : β} {rest : List β}
    (perm : (l.map f).Perm (x :: rest)) : ∃ y ys, f y = x ∧ l.Perm (y :: ys) ∧ (ys.map f).Perm rest := by
  obtain ⟨y, mem, rfl⟩ := List.mem_map.mp (perm.mem_iff.mpr List.mem_cons_self)
  obtain ⟨before, after, rfl⟩ := List.append_of_mem mem
  exact ⟨y, before ++ after, rfl, List.perm_middle, ((List.perm_middle.map f).symm.trans perm).cons_inv⟩

/-- A merge joins two trees of the forest. -/
theorem Forest.merge {leaves : List Node} {queue rest : List QueueKey} {nodes : List Node} {a b : QueueKey}
    (forest : Forest leaves queue nodes) (few : nodes.length < Config.maxNodes) (pops : popsTwo queue a b rest) :
    Forest leaves (rest ++ [mergedKey a b nodes.length]) (nodes ++ [mergedNode a b]) := by
  obtain ⟨trees, roots, stored, handles, symbols⟩ := forest
  obtain ⟨treeA, trees1, rootA, permA, roots⟩ :=
    exists_perm_cons_of_map_perm (roots.trans (pops.perm.map QueueKey.handle))
  obtain ⟨treeB, others, rootB, permB, roots⟩ := exists_perm_cons_of_map_perm roots
  have perm : trees.Perm (treeA :: treeB :: others) := permA.trans (permB.cons treeA)
  have root (n : Nat) (lt : n < 512) : (BitVec.ofNat 9 n).toNat = n := Nat.mod_eq_of_lt lt
  unfold Config.maxNodes at few
  have here : (BitVec.ofNat 9 nodes.length).toNat = nodes.length := root _ (by omega)
  have storedBefore (tr : Tree) (mem : tr ∈ treeA :: treeB :: others) :
      tr.StoredIn (arena (nodes ++ [mergedNode a b])) :=
    (stored tr (perm.mem_iff.mpr mem)).mono fun _ _ node => arena_append node _
  refine ⟨.internal (BitVec.ofNat 9 nodes.length) treeA treeB :: others, ?roots, ?stored, ?handles, ?symbols⟩
  case roots =>
    rw [List.map_append]
    refine List.Perm.trans ?_ (List.perm_append_singleton _ _).symm
    simpa only [List.map_cons, Tree.root_internal, mergedKey_handle, here] using roots.cons nodes.length
  case stored =>
    intro tr mem
    rcases List.mem_cons.mp mem with rfl | mem
    · refine ⟨⟨a.freq + b.freq, ?_⟩, storedBefore _ (by simp), storedBefore _ (by simp)⟩
      rw [arena, here, List.getElem?_concat_length, mergedNode, ← rootA, ← rootB]
      simp
    · exact storedBefore tr (by simp [mem])
  case handles =>
    have before := ((perm.flatMap_right Tree.handles).map BitVec.toNat).symm.trans handles
    rw [List.length_append, List.length_singleton, List.range_succ]
    refine List.Perm.trans ?_ ((before.cons nodes.length).trans (List.perm_append_singleton _ _).symm)
    simp [Tree.handles, here]
  case symbols =>
    have before := (perm.flatMap_right Tree.symbols).symm.trans symbols
    simpa [Tree.symbols] using before

/-! ## The sum of the queue's frequencies (00_scope.md R8) -/

def queueSum (queue : List QueueKey) : Nat := (queue.map fun q => q.freq.toNat).sum

theorem queueSum_perm {q q' : List QueueKey} (perm : q.Perm q') : queueSum q = queueSum q' :=
  (perm.map _).sum_eq

/-- While the sum fits 40 bits no merge wraps, so it keeps the sum. -/
theorem queueSum_merge {queue rest : List QueueKey} {a b : QueueKey} (n : Nat) (pops : popsTwo queue a b rest)
    (fits : queueSum queue < 2 ^ 40) : queueSum (rest ++ [mergedKey a b n]) = queueSum queue := by
  rw [queueSum_perm pops.perm] at fits ⊢
  simp only [queueSum, List.map_cons, List.map_append, List.map_nil, List.sum_cons, List.sum_append, List.sum_nil,
    mergedKey, BitVec.toNat_add] at fits ⊢
  omega

end Sys2Proof.Machine
end

section
/-! ## The tree that BUILD makes (41_tree_builder.md R131 to R133) -/

namespace Sys2Proof.Machine

/-- Leaves of the symbols in order, with their frequencies. -/
def leavesOf (g : Byte → NodeFreq) (syms : List Byte) : List Node := syms.map fun c => .leaf (g c) c

/-- What the merge loop makes of some leaves: the root's queue element, the nodes, and the tree under the root. -/
structure Builds (leaves : List Node) (root : QueueKey) (nodes : List Node) (tr : Tree) : Prop where
  queue : QueueInv leaves [root] nodes
  atRoot : tr.root.toNat = root.handle
  stored : tr.StoredIn (arena nodes)
  eachOnce : (tr.handles.map BitVec.toNat).Perm (List.range nodes.length)
  symbols : tr.symbols.Perm (leaves.map Node.symbol)
  sum : root.freq.toNat = (leaves.map fun n => n.freq.toNat).sum

/-! ## The start of the loop -/

theorem leafQueue_handles (leaves : List Node) : (leafQueue leaves).map QueueKey.handle = List.range leaves.length := by
  rw [leafQueue, List.map_map, List.range_eq_range', ← List.zipIdx_map_snd 0 leaves]
  rfl

theorem leafQueue_length (leaves : List Node) : (leafQueue leaves).length = leaves.length := by
  simp [leafQueue]

theorem leafQueue_freqs (leaves : List Node) :
    (leafQueue leaves).map (fun q => q.freq.toNat) = leaves.map fun n => n.freq.toNat := by
  conv_rhs => rw [← List.zipIdx_map_fst 0 leaves, List.map_map]
  rw [leafQueue, List.map_map]
  rfl

theorem childrenOf_leavesOf (g : Byte → NodeFreq) (syms : List Byte) : childrenOf (leavesOf g syms) = [] := by
  simp [childrenOf, leavesOf]

theorem leavesOf_getElem? {g : Byte → NodeFreq} {syms : List Byte} {h : Nat} {n : Node}
    (node : (leavesOf g syms)[h]? = some n) : ∃ c, syms[h]? = some c ∧ n = .leaf (g c) c := by
  rw [leavesOf, List.getElem?_map, Option.map_eq_some_iff] at node
  obtain ⟨c, sym, rfl⟩ := node
  exact ⟨c, sym, rfl⟩

theorem queueInv_leafQueue {g : Byte → NodeFreq} {syms : List Byte} (nonempty : syms ≠ []) :
    QueueInv (leavesOf g syms) (leafQueue (leavesOf g syms)) (leavesOf g syms) := by
  have handles := leafQueue_handles (leavesOf g syms)
  refine ⟨?size, List.prefix_rfl, fun q mem => ?keys, ?free, ?newest, fun h v l r node => ?merges⟩
  case size => rw [leafQueue_length]; omega
  case keys =>
    obtain ⟨⟨n, i⟩, place, rfl⟩ := List.mem_map.mp mem
    rw [freqAt, List.mk_mem_zipIdx_iff_getElem?.mp place]
    rfl
  case free => rw [childrenOf_leavesOf, handles]; exact List.Perm.refl _
  case newest =>
    have pos : 0 < (leavesOf g syms).length := by
      simpa [leavesOf] using List.length_pos_of_ne_nil nonempty
    have mem : (leavesOf g syms).length - 1 ∈ (leafQueue (leavesOf g syms)).map QueueKey.handle := by
      rw [handles, List.mem_range]
      omega
    obtain ⟨q, mem, last⟩ := List.mem_map.mp mem
    exact ⟨q, mem, by omega⟩
  case merges =>
    obtain ⟨c, -, internal⟩ := leavesOf_getElem? node
    cases internal

theorem forest_leafQueue (g : Byte → NodeFreq) {syms : List Byte} (few : syms.length ≤ 256) :
    Forest (leavesOf g syms) (leafQueue (leavesOf g syms)) (leavesOf g syms) := by
  have handle {i : Nat} {c : Byte} (mem : (c, i) ∈ syms.zipIdx) : (BitVec.ofNat 9 i).toNat = i := by
    have lt := (List.getElem?_eq_some_iff.mp (List.mk_mem_zipIdx_iff_getElem?.mp mem)).1
    exact Nat.mod_eq_of_lt (by omega)
  have places : syms.zipIdx.map (fun p => (BitVec.ofNat 9 p.2).toNat) = List.range (leavesOf g syms).length := by
    have length : (leavesOf g syms).length = syms.length := by simp [leavesOf]
    rw [length, List.range_eq_range', ← List.zipIdx_map_snd 0 syms]
    exact List.map_congr_left fun p mem => handle mem
  refine ⟨syms.zipIdx.map fun p => .leaf (BitVec.ofNat 9 p.2) p.1, ?roots, fun tr mem => ?stored, ?handles, ?symbols⟩
  case roots =>
    rw [leafQueue_handles, List.map_map, ← places]
    exact List.Perm.refl _
  case stored =>
    obtain ⟨⟨c, i⟩, place, rfl⟩ := List.mem_map.mp mem
    refine ⟨g c, ?_⟩
    rw [arena, handle place, leavesOf, List.getElem?_map, List.mk_mem_zipIdx_iff_getElem?.mp place]
    rfl
  case handles =>
    rw [← places]
    simp [List.flatMap_map, Tree.handles, Function.comp_def, ← List.map_eq_flatMap]
  case symbols =>
    have symbols : (leavesOf g syms).map Node.symbol = syms := by
      simp [leavesOf, Function.comp_def, Node.symbol]
    rw [symbols]
    simp [List.flatMap_map, Tree.symbols, ← List.map_eq_flatMap, List.zipIdx_map_fst]

theorem length_le_of_nodup {syms : List Byte} (distinct : syms.Nodup) : syms.length ≤ 256 := by
  have le_all := (distinct.subperm fun c _ => mem_allSymbols c).length_le
  simpa [allSymbols] using le_all

/-- The sum of 256 counts of 32 bits fits NODE_FREQ_W (00_scope.md R8). -/
theorem queueSum_leafQueue_lt {g : Byte → NodeFreq} {syms : List Byte} (few : syms.length ≤ 256)
    (counts : ∀ c, (g c).toNat < 2 ^ 32) : queueSum (leafQueue (leavesOf g syms)) < 2 ^ 40 := by
  rw [queueSum, leafQueue_freqs]
  have bound := List.sum_le_card_nsmul ((leavesOf g syms).map fun n => n.freq.toNat) (2 ^ 32 - 1) fun x mem => by
    simp only [leavesOf, List.map_map, List.mem_map, Function.comp_apply] at mem
    obtain ⟨c, -, rfl⟩ := mem
    exact Nat.le_pred_of_lt (counts c)
  simp only [leavesOf, List.length_map, smul_eq_mul] at bound ⊢
  omega

/-- BUILD's loop makes one tree of the leaves of distinct symbols. -/
theorem exists_builds {g : Byte → NodeFreq} {syms : List Byte} (distinct : syms.Nodup) (nonempty : syms ≠ [])
    (counts : ∀ c, (g c).toNat < 2 ^ 32) :
    ∃ root nodes tr, buildNodes (leavesOf g syms) = (root.handle, nodes) ∧ Builds (leavesOf g syms) root nodes tr := by
  have few := length_le_of_nodup distinct
  have fewLeaves : (leavesOf g syms).length ≤ 256 := by simpa [leavesOf] using few
  have fits := queueSum_leafQueue_lt (syms := syms) few counts
  obtain ⟨root, nodes, made, inv, ⟨trees, roots, stored, handles, symbols⟩, sum⟩ := mergeLoop_keeps
    (P := fun queue nodes => QueueInv (leavesOf g syms) queue nodes ∧ Forest (leavesOf g syms) queue nodes ∧
      queueSum queue = queueSum (leafQueue (leavesOf g syms)))
    (fun queue nodes a b rest pops ⟨inv, forest, sum⟩ => by
      have size := inv.size
      have two := pops.perm.length_eq
      simp only [List.length_cons] at two
      exact ⟨inv.merge fewLeaves pops, forest.merge (by unfold Config.maxNodes; omega) pops,
        (queueSum_merge _ pops (by omega)).trans sum⟩)
    ⟨queueInv_leafQueue (g := g) nonempty, forest_leafQueue g few, rfl⟩
    (fuel := (leavesOf g syms).length) (List.ne_nil_of_length_pos (by
      rw [leafQueue_length, leavesOf, List.length_map]
      exact List.length_pos_of_ne_nil nonempty)) (leafQueue_length _).le
  obtain ⟨tr, rfl, root_eq⟩ := List.map_eq_singleton_iff.mp (List.perm_singleton.mp roots)
  refine ⟨root, nodes, tr, made, inv, root_eq, stored tr (by simp), by simpa using handles, by simpa using symbols, ?_⟩
  rw [queueSum, queueSum, leafQueue_freqs] at sum
  simpa using sum

/-! ## The result -/

section
variable {leaves nodes : List Node} {root : QueueKey} {tr : Tree} (builds : Builds leaves root nodes tr)
include builds

/-- The root is the last node made. -/
theorem Builds.root_handle : root.handle + 1 = nodes.length := by
  obtain ⟨q, mem, last⟩ := builds.queue.newest
  rwa [List.mem_singleton.mp mem] at last

theorem Builds.nodes_length : nodes.length + 1 = 2 * leaves.length := builds.queue.size

theorem Builds.root_eq : tr.root = BitVec.ofNat 9 root.handle := by
  rw [← builds.atRoot, BitVec.ofNat_toNat, BitVec.setWidth_eq]

theorem Builds.symbols_length : tr.symbols.length = leaves.length := by simpa using builds.symbols.length_eq

end

theorem freqAt_take {nodes : List Node} {h x : Nat} (below : x < (nodes.take h).length) :
    freqAt (nodes.take h) x = freqAt nodes x := by
  rw [List.length_take] at below
  rw [freqAt, List.getElem?_take_of_lt (by omega), freqAt]

/-- BUILD's result is a valid tree. -/
theorem Builds.treeInv {g : Byte → NodeFreq} {syms : List Byte} {nodes : List Node} {root : QueueKey} {tr : Tree}
    (builds : Builds (leavesOf g syms) root nodes tr) (distinct : syms.Nodup) (s : State) :
    TreeInv (complete (installTree nodes syms.length (BitVec.ofNat 9 root.handle) s)) tr := by
  have symbols : (leavesOf g syms).map Node.symbol = syms := by
    simp [leavesOf, Function.comp_def, Node.symbol]
  have perm : tr.symbols.Perm syms := symbols ▸ builds.symbols
  have installed := treeInv_installTree s builds.stored builds.eachOnce (perm.nodup_iff.mpr distinct)
    fun h f l r node => by
      have merged := builds.queue.merges h f l r node
      rw [merged.freq, freqAt_take merged.leftBelow, freqAt_take merged.rightBelow]
  rw [perm.length_eq, builds.root_eq] at installed
  exact (sameTree_complete _).treeInv installed installed.decoder

/-! ## The obligations of BUILD -/

theorem allSymbols_nodup : allSymbols.Nodup := by
  refine List.nodup_range.map_on fun a memA b memB eq => ?_
  have eq := congrArg BitVec.toNat eq
  rw [List.mem_range] at memA memB
  simp only [BitVec.toNat_ofNat] at eq
  omega

/-- The nodes over distinct symbols fit the arena (00_scope.md R7). -/
theorem Builds.nodes_length_le {g : Byte → NodeFreq} {syms : List Byte} {nodes : List Node} {root : QueueKey} {tr : Tree}
    (builds : Builds (leavesOf g syms) root nodes tr) (distinct : syms.Nodup) : nodes.length ≤ Config.maxNodes := by
  have length := builds.nodes_length
  have few := length_le_of_nodup distinct
  have leaves : (leavesOf g syms).length = syms.length := List.length_map _
  unfold Config.maxNodes
  omega

theorem presentSymbols_nodup (s : State) : (presentSymbols s).Nodup := allSymbols_nodup.filter _

theorem setWidth_40_lt (w : Word) : (w.setWidth 40 : NodeFreq).toNat < 2 ^ 32 := by
  rw [BitVec.toNat_setWidth_of_le (by decide)]
  exact w.isLt

/-- BUILD over counts not all 0 installs the tree of the leaves that the counts give. -/
theorem exec_build_builds {s : State} {f : Byte → Word} (written : ∀ c, freqEntry s c = .written (f c))
    (present : ∃ c, f c ≠ 0) : ∃ root nodes tr,
      exec .build s = .next (complete (installTree nodes (countedSymbols f).length (BitVec.ofNat 9 root.handle) s)) ∧
      Builds (countedLeaves f) root nodes tr := by
  obtain ⟨t, run⟩ : ∃ t, exec .build s = .next t := ⟨_, rfl⟩
  obtain ⟨root, nodes, tr, made, builds⟩ := exists_builds (g := fun c => (f c).setWidth 40)
    (allSymbols_nodup.filter _) (countedSymbols_ne_nil present) fun c => setWidth_40_lt (f c)
  have result := exec_build_of_written written present run
  rw [show buildNodes (countedLeaves f) = _ from made] at result
  exact ⟨root, nodes, tr, result ▸ run, builds⟩

theorem Builds.nodeAt {f : Byte → Word} {root : QueueKey} {nodes : List Node} {tr : Tree}
    (builds : Builds (countedLeaves f) root nodes tr) (s : State) (k : Nat) (r : Handle) :
    nodeAt (complete (installTree nodes k r s)) = arena nodes :=
  nodeAt_installTree_eq_arena (builds.nodes_length_le (allSymbols_nodup.filter _)) k r s

/-- Settles O17: the loop makes one tree of the leaves (`exists_builds`), which is valid once installed
(`Builds.treeInv`); the leaves stay the first nodes, and the root is the last. -/
theorem buildMakesAFullTreeOfTheSymbolsPresent : Obligations.BuildMakesAFullTreeOfTheSymbolsPresent := by
  intro s f written present
  obtain ⟨root, nodes, tr, run, builds⟩ := exec_build_builds written present
  have few := length_le_of_nodup (allSymbols_nodup.filter fun c => f c != 0)
  have length := builds.nodes_length
  have last := builds.root_handle
  have leaves : (countedLeaves f).length = (countedSymbols f).length := by simp [countedLeaves]
  have numSyms : (BitVec.ofNat 9 (countedSymbols f).length).toNat = (countedSymbols f).length :=
    Nat.mod_eq_of_lt (few.trans_lt (by decide))
  have fewNodes := builds.nodes_length_le (allSymbols_nodup.filter _)
  unfold Config.maxNodes at fewNodes
  have rootHandle : (BitVec.ofNat 9 root.handle).toNat = root.handle := Nat.mod_eq_of_lt (by omega)
  refine ⟨_, tr, run, rfl, builds.treeInv (allSymbols_nodup.filter _) s, numSyms, ?root, fun h below => ?leaf⟩
  case root =>
    rw [complete_root, complete_numSyms, installTree_root, installTree_numSyms, numSyms, rootHandle]
    omega
  case leaf =>
    rw [complete_numSyms, installTree_numSyms, numSyms] at below
    obtain ⟨more, rfl⟩ := builds.queue.start
    have node : (countedLeaves f)[h.toNat]? = (countedSymbols f)[h.toNat]?.map fun c => .leaf ((f c).setWidth 40) c :=
      List.getElem?_map
    refine ⟨(countedSymbols f)[h.toNat], List.getElem?_eq_getElem below, ?_⟩
    rw [builds.nodeAt, arena, List.getElem?_append_left (by omega), node, List.getElem?_eq_getElem below]
    rfl

theorem sum_map_filter_ne_zero (l : List Byte) (f : Byte → Word) :
    ((l.filter fun c => f c != 0).map fun c => (f c).toNat).sum = (l.map fun c => (f c).toNat).sum := by
  induction l with
  | nil => rfl
  | cons c l ih =>
    by_cases zero : f c = 0
    · rw [List.filter_cons_of_neg (by simp [zero]), ih, List.map_cons, List.sum_cons, zero]
      exact (Nat.zero_add _).symm
    · rw [List.filter_cons_of_pos (by simpa using zero), List.map_cons, List.map_cons, List.sum_cons, List.sum_cons, ih]

/-- Settles O18: no merge wraps, so the root's frequency is the sum of the leaves' (`queueSum_merge`), and the symbols that
are absent add 0. -/
theorem rootFrequencyIsTheSumOfTheCounts : Obligations.RootFrequencyIsTheSumOfTheCounts := by
  intro s t f written present run
  obtain ⟨root, nodes, tr, run', builds⟩ := exec_build_builds written present
  obtain rfl := Host.Outcome.next.inj (run.symm.trans run')
  have last := builds.root_handle
  have fewNodes := builds.nodes_length_le (allSymbols_nodup.filter _)
  unfold Config.maxNodes at fewNodes
  have rootHandle : (BitVec.ofNat 9 root.handle).toNat = root.handle := Nat.mod_eq_of_lt (by omega)
  have counts : (countedLeaves f).map (fun n => n.freq.toNat) = (countedSymbols f).map fun c => (f c).toNat := by
    rw [countedLeaves, List.map_map]
    exact List.map_congr_left fun c _ => BitVec.toNat_setWidth_of_le (by decide)
  rw [nodeFreq_eq_freqAt (builds.nodeAt s _ _), complete_root, installTree_root, rootHandle,
    ← builds.queue.keys root (by simp), builds.sum, counts]
  exact sum_map_filter_ne_zero allSymbols f

theorem mem_childrenOf_iff {nodes : List Node} {x : Nat} : x ∈ childrenOf nodes ↔
    ∃ (g : Nat) (f : NodeFreq) (l r : Handle), nodes[g]? = some (.internal f l r) ∧ (x = l.toNat ∨ x = r.toNat) := by
  simp only [childrenOf, List.mem_flatMap]
  constructor
  · rintro ⟨_ | ⟨f, l, r⟩, mem, child⟩
    · cases child
    · obtain ⟨g, node⟩ := List.mem_iff_getElem?.mp mem
      exact ⟨g, f, l, r, node, by simpa using child⟩
  · rintro ⟨g, f, l, r, node, child⟩
    exact ⟨_, List.mem_of_getElem? node, by simpa using child⟩

section
variable {s : State} {nodes : List Node} (holds : nodeAt s = arena nodes)
include holds

/-- A node is taken before `h` exactly when it is a child of one of the first `h` nodes. -/
theorem takenBefore_iff (h x : Handle) : takenBefore s h x ↔ x.toNat ∈ childrenOf (nodes.take h.toNat) := by
  rw [mem_childrenOf_iff, takenBefore, holds]
  constructor
  · rintro ⟨g, f, l, r, below, node, child⟩
    refine ⟨g.toNat, f, l, r, ?_, by simpa [BitVec.toNat_inj] using child⟩
    rwa [List.getElem?_take_of_lt below]
  · rintro ⟨g, f, l, r, node, child⟩
    have below : g < h.toNat := by
      have lt := (List.getElem?_eq_some_iff.mp node).1
      rw [List.length_take] at lt
      omega
    have handle : (BitVec.ofNat 9 g).toNat = g := Nat.mod_eq_of_lt (below.trans h.isLt)
    rw [List.getElem?_take_of_lt below] at node
    exact ⟨BitVec.ofNat 9 g, f, l, r, by rwa [handle], by rwa [arena, handle], by simpa [BitVec.toNat_inj] using child⟩

theorem keyBefore_iff (x y : Handle) : keyBefore s x y ↔ (keyAt nodes x.toNat).less (keyAt nodes y.toNat) = true := by
  rw [keyBefore, nodeFreq_eq_freqAt holds, nodeFreq_eq_freqAt holds, QueueKey.less_iff, BitVec.toNat_inj]
  rfl

end

theorem keyAt_take {nodes : List Node} {h x : Nat} (below : x < (nodes.take h).length) :
    keyAt (nodes.take h) x = keyAt nodes x := by
  rw [keyAt, freqAt_take below, keyAt]

/-- Settles O20: what the loop keeps of every node it makes (`QueueInv.merges`), read through the installed arena. -/
theorem buildMergesTheTwoLeastNodes : Obligations.BuildMergesTheTwoLeastNodes := by
  intro s t f written present run h l r v node
  obtain ⟨root, nodes, tr, run', builds⟩ := exec_build_builds written present
  obtain rfl := Host.Outcome.next.inj (run.symm.trans run')
  have holds := builds.nodeAt s (countedSymbols f).length (BitVec.ofNat 9 root.handle)
  have atH : nodes[h.toNat]? = some (.internal v l r) := by rwa [holds] at node
  have merged := builds.queue.merges h.toNat v l r atH
  have length : (nodes.take h.toNat).length = h.toNat := by
    have lt := (List.getElem?_eq_some_iff.mp atH).1
    rw [List.length_take]
    omega
  have below {x : Handle} (lt : x.toNat < h.toNat) : x.toNat < (nodes.take h.toNat).length := length.symm ▸ lt
  have left := merged.leftBelow
  have right := merged.rightBelow
  rw [length] at left right
  simp only [takenBefore_iff holds, keyBefore_iff holds]
  refine ⟨left, right, merged.leftFree, merged.rightFree, ?first, fun x lt neL neR free => ?second⟩
  case first =>
    rw [← keyAt_take (below left), ← keyAt_take (below right)]
    exact merged.leftFirst
  case second =>
    rw [← keyAt_take (below right), ← keyAt_take (below lt)]
    exact merged.rightSecond _ (below lt) (mt BitVec.eq_of_toNat_eq neL) (mt BitVec.eq_of_toNat_eq neR) free

end Sys2Proof.Machine
end

section
/-! ## DESERIALIZE: the tree of a whole serialization (43_tree_serializer.md R155 to R158) -/

namespace Sys2Proof.Machine

@[simp] theorem Tree.root_preorder (tr : Tree) (n : Nat) : (tr.preorder n).root = BitVec.ofNat 9 n := by cases tr <;> rfl

@[simp] theorem Tree.symbols_preorder (tr : Tree) (n : Nat) : (tr.preorder n).symbols = tr.symbols := by
  induction tr generalizing n with
  | leaf h c => rfl
  | internal h left right ihLeft ihRight => simp only [Tree.preorder, Tree.symbols, ihLeft, ihRight]

/-- The handles of a tree numbered from `n` on are the numbers from `n` on, in order. -/
theorem Tree.handles_preorder (tr : Tree) {n : Nat} (small : n + tr.handles.length ≤ 512) :
    (tr.preorder n).handles.map BitVec.toNat = List.range' n tr.handles.length := by
  have handle (m : Nat) (lt : m < 512) : (BitVec.ofNat 9 m).toNat = m := Nat.mod_eq_of_lt lt
  induction tr generalizing n with
  | leaf h c =>
    simp only [Tree.handles, List.length_singleton] at small
    simp only [Tree.preorder, Tree.handles, List.map_singleton, List.length_singleton, handle n (by omega),
      List.range'_one]
  | internal h left right ihLeft ihRight =>
    simp only [Tree.handles, List.length_cons, List.length_append] at small
    simp only [Tree.preorder, Tree.handles, List.map_cons, List.map_append, List.length_cons, List.length_append,
      handle n (by omega), ihLeft (n := n + 1) (by omega), ihRight (n := n + 1 + left.handles.length) (by omega)]
    rw [List.range'_succ, ← List.range'_append_1]

theorem freq_of_mem_parsedNodes {tr : Tree} {n : Nat} {node : Node} (mem : node ∈ tr.parsedNodes n) : node.freq = 0 := by
  induction tr generalizing n with
  | leaf h c =>
    obtain rfl := List.mem_singleton.mp mem
    rfl
  | internal h left right ihLeft ihRight =>
    rcases List.mem_cons.mp mem with rfl | mem
    · rfl
    · rcases List.mem_append.mp mem with mem | mem
      · exact ihLeft mem
      · exact ihRight mem

theorem freqAt_parsedNodes (tr : Tree) (n h : Nat) : freqAt (tr.parsedNodes n) h = 0 := by
  rw [freqAt]
  cases node : (tr.parsedNodes n)[h]? with
  | none => rfl
  | some x => exact freq_of_mem_parsedNodes (List.mem_of_getElem? node)

/-- The parsed nodes, under their places, hold the tree with its handles in preorder. -/
theorem storedIn_parsedNodes {tr : Tree} (distinct : tr.symbols.Nodup) :
    (tr.preorder 0).StoredIn (arena (tr.parsedNodes 0)) := by
  have few := Tree.handles_length_le distinct
  unfold Config.maxNodes at few
  refine (storedIn_of_fromArena (fromArena_of_parsedNodes (n := 0) (Nat.lt_succ_self _) fun ⟨node, i⟩ mem => ?_)).2
  have entry : (tr.parsedNodes 0)[i]? = some node := List.mk_mem_zipIdx_iff_getElem?.mp mem
  have below : i < tr.handles.length := by
    simpa using (List.getElem?_eq_some_iff.mp entry).1
  have handle : (BitVec.ofNat 9 i).toNat = i := Nat.mod_eq_of_lt (by omega)
  rwa [arena, handle]

/-- The parsed nodes of a tree with distinct symbols are a valid tree once installed. -/
theorem treeInv_parsedNodes {tr : Tree} (distinct : tr.symbols.Nodup) (s : State) :
    TreeInv (installTree (tr.parsedNodes 0) tr.symbols.length 0 s) (tr.preorder 0) := by
  have few := Tree.handles_length_le distinct
  unfold Config.maxNodes at few
  have handles := tr.handles_preorder (n := 0) (by omega)
  have inv := treeInv_installTree (nodes := tr.parsedNodes 0) (tr := tr.preorder 0) s (storedIn_parsedNodes distinct)
    (by rw [handles, Tree.parsedNodes_length, List.range_eq_range']) (by rwa [Tree.symbols_preorder])
    fun h f l r node => by
      rw [freqAt_parsedNodes, freqAt_parsedNodes]
      exact freq_of_mem_parsedNodes (List.mem_of_getElem? node)
  rwa [Tree.symbols_preorder, Tree.root_preorder] at inv

/-- The state in which DESERIALIZE ends when it has parsed `tr`. -/
def deserialized (tr : Tree) (s : State) : State :=
  complete { installTree (tr.parsedNodes 0) tr.symbols.length 0 s with
    resultLen := BitVec.ofNat 32 (bytesFor tr.ser.length) }

theorem sameTree_deserialized (tr : Tree) (s : State) :
    SameTree (installTree (tr.parsedNodes 0) tr.symbols.length 0 s) (deserialized tr s) := ⟨rfl, rfl, rfl, rfl, rfl⟩

theorem treeInv_deserialized {tr : Tree} (distinct : tr.symbols.Nodup) (s : State) :
    TreeInv (deserialized tr s) (tr.preorder 0) :=
  (sameTree_deserialized tr s).treeInv (treeInv_parsedNodes distinct s) (treeInv_parsedNodes distinct s).decoder

theorem nodeAt_deserialized {tr : Tree} (distinct : tr.symbols.Nodup) (s : State) :
    nodeAt (deserialized tr s) = arena (tr.parsedNodes 0) :=
  (sameTree_deserialized tr s).nodeAt.trans (nodeAt_installTree_eq_arena
    ((Tree.parsedNodes_length tr 0).trans_le (Tree.handles_length_le distinct)) _ _ s)

/-- Settles O28: the parser reads exactly the tree (`exec_deserialize_of_ser`), whose nodes are a valid tree numbered in
preorder (`treeInv_parsedNodes`, `Tree.handles_preorder`). -/
theorem deserializeParsesOneSerializedTree : Obligations.DeserializeParsesOneSerializedTree := by
  intro s tr rest inside distinct source
  have few := Tree.handles_length_le distinct
  unfold Config.maxNodes at few
  have leaves := tr.symbols_length_eq
  have count := tr.handles_length_eq
  have numSyms : (BitVec.ofNat 9 tr.symbols.length).toNat = tr.symbols.length := Nat.mod_eq_of_lt (by omega)
  have nodeCount : (BitVec.ofNat 10 (tr.parsedNodes 0).length).toNat = tr.handles.length := by
    rw [Tree.parsedNodes_length]
    exact Nat.mod_eq_of_lt (by omega)
  refine ⟨deserialized tr s, tr.preorder 0, exec_deserialize_of_ser inside distinct source, rfl,
    treeInv_deserialized distinct s, Tree.ser_preorder tr 0, numSyms, ?handles, fun h n node => ?freqs⟩
  case handles =>
    rw [tr.handles_preorder (by omega), ← List.range_eq_range']
    exact congrArg List.range nodeCount.symm
  case freqs =>
    rw [nodeAt_deserialized distinct s] at node
    exact freq_of_mem_parsedNodes (List.mem_of_getElem? node)

end Sys2Proof.Machine
end

section
/-! ## DESERIALIZE: the Aborts of the parser (43_tree_serializer.md R156, R157) -/

namespace Sys2Proof.Machine

section
variable (nbits depth : Nat) {p : ParseState}

theorem parseTree_nil (bits : p.rest = []) :
    parseTree nbits (depth + 1) p = .error (abortParse .treeTruncated nbits) := by
  simp only [parseTree, bits]

/-- The source ends inside a leaf. -/
theorem parseTree_short_leaf {part : Bits} (bits : p.rest = true :: part) (short : part.length < 8) :
    parseTree nbits (depth + 1) p = .error (abortParse .treeTruncated nbits) := by
  have shortTake : (part.take 8).length < 8 := by rw [List.length_take]; omega
  simp only [parseTree, bits, shortTake, if_true]

theorem parseTree_seen_leaf {c : Byte} {rest : Bits} (bits : p.rest = true :: (byteToBits c ++ rest))
    (seen : c ∈ p.seen) : parseTree nbits (depth + 1) p = .error (abortParse .dupSymbol p.pos) := by
  have symbol : (byteToBits c ++ rest).take 8 = byteToBits c := List.take_left' (byteToBits_length c)
  simp [parseTree, bits, symbol, bitsToByte_byteToBits, seen]

theorem parseTree_full {rest : Bits} (bits : p.rest = false :: rest) (full : p.nint = Config.maxInternal) :
    parseTree nbits (depth + 1) p = .error (abortParse .treeTooLarge p.pos) := by
  simp only [parseTree, bits, full, if_true]

variable {nbits depth}

theorem parseTree_left_error {rest : Bits} {e : CmdError} (bits : p.rest = false :: rest)
    (notFull : p.nint ≠ Config.maxInternal)
    (left : parseTree nbits depth (p.pastInternalTag rest) = .error e) : parseTree nbits (depth + 1) p = .error e := by
  rw [ParseState.pastInternalTag] at left
  simp only [parseTree, bits, notFull, if_false, left]

theorem parseTree_right_error {rest : Bits} {e : CmdError} {p1 : ParseState} {nodes : List Node}
    (bits : p.rest = false :: rest) (notFull : p.nint ≠ Config.maxInternal)
    (left : parseTree nbits depth (p.pastInternalTag rest) = .ok (nodes, p1))
    (right : parseTree nbits depth p1 = .error e) : parseTree nbits (depth + 1) p = .error e := by
  rw [ParseState.pastInternalTag] at left
  simp only [parseTree, bits, notFull, if_false, left, right]

end

/-- A string that goes on to two strings in a row ends inside the first, or inside the second. -/
theorem ends_in_left_or_right {b missing left right : Bits} (eq : b ++ missing = left ++ right) :
    (∃ more, more ≠ [] ∧ b ++ more = left) ∨ ∃ b', b = left ++ b' ∧ b' ++ missing = right := by
  rcases List.append_eq_append_iff.mp eq with ⟨more, rfl, rfl⟩ | ⟨b', rfl, rfl⟩
  · cases more with
    | nil => exact .inr ⟨[], by simp, rfl⟩
    | cons x more => exact .inl ⟨x :: more, by simp, rfl⟩
  · exact .inr ⟨b', rfl, rfl⟩

/-- On a proper start of a serialization the parser comes to the end of the source. -/
theorem parseTree_truncated (nbits : Nat) {tr : Tree} {depth : Nat} {p : ParseState} {missing : Bits}
    (deep : tr.internalHandles.length < depth) (bits : p.rest ++ missing = tr.ser) (proper : missing ≠ [])
    (few : p.nint + tr.internalHandles.length ≤ Config.maxInternal) (fresh : (tr.symbols.reverse ++ p.seen).Nodup) :
    parseTree nbits depth p = .error (abortParse .treeTruncated nbits) := by
  have missingBits := List.length_pos_of_ne_nil proper
  induction tr generalizing depth p missing with
  | leaf h c =>
    obtain ⟨depth, rfl⟩ := Nat.exists_eq_add_one_of_ne_zero (Nat.ne_zero_of_lt deep)
    cases rest : p.rest with
    | nil => exact parseTree_nil nbits depth rest
    | cons b part =>
      rw [rest, Tree.ser, List.cons_append, List.cons.injEq] at bits
      obtain ⟨rfl, bits⟩ := bits
      have length := congrArg List.length bits
      rw [List.length_append, byteToBits_length] at length
      exact parseTree_short_leaf nbits depth rest (by omega)
  | internal h left right ihLeft ihRight =>
    obtain ⟨depth, rfl⟩ := Nat.exists_eq_add_one_of_ne_zero (Nat.ne_zero_of_lt deep)
    simp only [Tree.internalHandles, List.length_cons, List.length_append] at deep few
    simp only [Tree.symbols, List.reverse_append, List.append_assoc] at fresh
    cases rest : p.rest with
    | nil => exact parseTree_nil nbits depth rest
    | cons b part =>
      rw [rest, Tree.ser, List.cons_append, List.cons.injEq] at bits
      obtain ⟨rfl, bits⟩ := bits
      have notFull : p.nint ≠ Config.maxInternal := by omega
      have freshLeft := List.Nodup.of_append_right fresh
      have fewLeft : (p.pastInternalTag part).nint + left.internalHandles.length ≤ Config.maxInternal := by
        simp only [ParseState.pastInternalTag]; omega
      rcases ends_in_left_or_right bits with ⟨more, more_ne, leftBits⟩ | ⟨part', rfl, rightBits⟩
      · exact parseTree_left_error rest notFull
          (ihLeft (by omega) leftBits more_ne fewLeft freshLeft (List.length_pos_of_ne_nil more_ne))
      · have parseLeft := parseTree_ser nbits (depth := depth) (p := p.pastInternalTag (left.ser ++ part'))
          (by omega) rfl fewLeft freshLeft
        exact parseTree_right_error rest notFull parseLeft (ihRight (by omega) rightBits proper
          (by simp only [ParseState.past, ParseState.pastInternalTag]; omega) fresh missingBits)

/-- DESERIALIZE ends with the Abort that its parser raises. -/
theorem exec_deserialize_of_abort {s : State} {c : ErrCode} {info : Nat}
    (inside : s.srcAddr.toNat + s.srcLen.toNat ≤ s.lmemSize.bytes)
    (parse : parseTree (8 * s.srcLen.toNat) (Config.maxNodes + 1) (parseStart s) = .error (abortParse c info)) :
    exec .deserialize s = .next (abortedDeserialize c.toByte (BitVec.ofNat 32 info) s) := by
  simp only [exec, execDeserialize, deserializeBody, (srcRangeOK_iff s).mpr inside, parse, Bool.not_true,
    Bool.false_eq_true, if_false]
  rfl

/-- Settles O29: on a proper start of a serialization the parser comes to the end of the source
(`parseTree_truncated`). -/
theorem deserializeReportsATruncatedTree : Obligations.DeserializeReportsATruncatedTree := by
  intro s tr missing inside distinct proper source
  have few := Tree.internalHandles_length_le distinct
  refine exec_deserialize_of_abort inside (c := .treeTruncated) (parseTree_truncated _ (tr := tr) ?_ source proper ?_ ?_)
  · exact few.trans_lt (by decide)
  · simpa [parseStart] using few
  · simpa [parseStart] using distinct

/-! ## Every outcome of the parser -/

/-- The parser fails with one of its three errors. -/
theorem parseTree_error_code {nbits depth : Nat} {p : ParseState} {e : CmdError}
    (parse : parseTree nbits depth p = .error e) :
    ∃ c info, e = abortParse c info ∧ (c = .treeTruncated ∨ c = .dupSymbol ∨ c = .treeTooLarge) := by
  induction depth generalizing p with
  | zero => cases parse; exact ⟨_, _, rfl, by simp⟩
  | succ depth ih =>
    simp only [parseTree] at parse
    split at parse
    · cases parse; exact ⟨_, _, rfl, by simp⟩
    · split at parse
      · cases parse; exact ⟨_, _, rfl, by simp⟩
      · split at parse
        · cases parse; exact ⟨_, _, rfl, by simp⟩
        · cases parse
    · split at parse
      · cases parse; exact ⟨_, _, rfl, by simp⟩
      · split at parse
        · next left => cases parse; exact ih left
        · split at parse
          · next right => cases parse; exact ih right
          · cases parse

/-- What the parser has read when it ends without an error is the serialization of a tree, with no symbol seen twice. -/
theorem parseTree_ok {nbits depth : Nat} {p p' : ParseState} {nodes : List Node}
    (parse : parseTree nbits depth p = .ok (nodes, p')) (fresh : p.seen.Nodup) :
    ∃ tr : Tree, p.rest = tr.ser ++ p'.rest ∧ p'.seen = tr.symbols.reverse ++ p.seen ∧ p'.seen.Nodup := by
  induction depth generalizing p p' nodes with
  | zero => cases parse
  | succ depth ih =>
    simp only [parseTree] at parse
    split at parse
    · cases parse
    · next bits rest =>
      split at parse
      · cases parse
      · next long =>
        split at parse
        · cases parse
        · next unseen =>
          cases parse
          have eight : (bits.take 8).length = 8 := by
            have := List.length_take_le 8 bits
            omega
          refine ⟨.leaf 0 (bitsToByte (bits.take 8)), ?_, rfl, List.nodup_cons.mpr ⟨by simpa using unseen, fresh⟩⟩
          rw [rest, Tree.ser, byteToBits_bitsToByte_of_length eight, List.cons_append, List.take_append_drop]
    · next bits rest =>
      split at parse
      · cases parse
      · split at parse
        · cases parse
        · next left p1 parseLeft =>
          split at parse
          · cases parse
          · next right p2 parseRight =>
            cases parse
            obtain ⟨trLeft, bitsLeft, seenLeft, freshLeft⟩ := ih parseLeft fresh
            obtain ⟨trRight, bitsRight, seenRight, freshRight⟩ := ih parseRight freshLeft
            refine ⟨.internal 0 trLeft trRight, ?_, ?_, freshRight⟩
            · simp only at bitsLeft
              rw [rest, bitsLeft, bitsRight, Tree.ser, List.cons_append, List.append_assoc]
            · rw [seenRight, seenLeft, Tree.symbols, List.reverse_append, List.append_assoc]

/-- DESERIALIZE of a source in LMEM ends with the tree its source starts with, or with an Abort. -/
theorem exec_deserialize_outcomes {s : State} (inside : s.srcAddr.toNat + s.srcLen.toNat ≤ s.lmemSize.bytes) :
    (∃ tr : Tree, tr.symbols.Nodup ∧ exec .deserialize s = .next (deserialized tr s)) ∨
      ∃ (c : ErrCode) (info : Nat), (c = .treeTruncated ∨ c = .dupSymbol ∨ c = .treeTooLarge) ∧
        exec .deserialize s = .next (abortedDeserialize c.toByte (BitVec.ofNat 32 info) s) := by
  cases parse : parseTree (8 * s.srcLen.toNat) (Config.maxNodes + 1) (parseStart s) with
  | error e =>
    obtain ⟨c, info, rfl, code⟩ := parseTree_error_code parse
    exact .inr ⟨c, info, code, exec_deserialize_of_abort inside parse⟩
  | ok parsed =>
    obtain ⟨nodes, p⟩ := parsed
    obtain ⟨tr, bits, seen, fresh⟩ := parseTree_ok parse List.nodup_nil
    have distinct : tr.symbols.Nodup := by
      rw [seen] at fresh
      simpa [parseStart] using fresh
    exact .inl ⟨tr, distinct, exec_deserialize_of_ser inside distinct bits⟩

end Sys2Proof.Machine
end

section
/-! ## DESERIALIZE: the first offending tag (43_tree_serializer.md R156, 60_exceptions.md R211) -/

namespace Sys2Proof.Machine

/-- The tags of a tree, in the order of its serialization. -/
def Tree.tags : Tree → List Tag
  | .leaf _ c => [.leaf c]
  | .internal _ l r => .internal :: (l.tags ++ r.tags)

theorem tagBits_append (t u : List Tag) : tagBits (t ++ u) = tagBits t ++ tagBits u := List.flatMap_append

theorem tagSymbols_append (t u : List Tag) : tagSymbols (t ++ u) = tagSymbols t ++ tagSymbols u := List.filterMap_append

theorem tagBits_internal (t : List Tag) : tagBits (.internal :: t) = false :: tagBits t := rfl

theorem tagSymbols_internal (t : List Tag) : tagSymbols (.internal :: t) = tagSymbols t := rfl

@[simp] theorem Tree.tagBits_tags (tr : Tree) : tagBits tr.tags = tr.ser := by
  induction tr with
  | leaf h c => exact List.append_nil _
  | internal h l r ihLeft ihRight => rw [Tree.tags, tagBits_internal, tagBits_append, ihLeft, ihRight, Tree.ser]

@[simp] theorem Tree.tagSymbols_tags (tr : Tree) : tagSymbols tr.tags = tr.symbols := by
  induction tr with
  | leaf h c => rfl
  | internal h l r ihLeft ihRight =>
    rw [Tree.tags, tagSymbols_internal, tagSymbols_append, ihLeft, ihRight, Tree.symbols]

@[simp] theorem Tree.count_tags (tr : Tree) : tr.tags.count .internal = tr.internalHandles.length := by
  induction tr with
  | leaf h c => rfl
  | internal h l r ihLeft ihRight =>
    rw [Tree.tags, List.count_cons_self, List.count_append, ihLeft, ihRight, Tree.internalHandles, List.length_cons,
      List.length_append]

/-- A whole tree's tags leave one subtree fewer to come. -/
theorem leavesOpen_tags_append (tr : Tree) (missing : Nat) (rest : List Tag) :
    leavesOpen (missing + 2) (tr.tags ++ rest) = leavesOpen (missing + 1) rest := by
  induction tr generalizing missing rest with
  | leaf h c => simp [Tree.tags, leavesOpen]
  | internal h l r ihLeft ihRight =>
    rw [Tree.tags, List.cons_append, List.append_assoc, leavesOpen, ihLeft (missing + 1), ihRight]

theorem leavesOpen_succ {missing : Nat} {tags : List Tag} (stays : leavesOpen missing tags = true) :
    leavesOpen (missing + 1) tags = true := by
  induction tags generalizing missing with
  | nil => simp [leavesOpen]
  | cons t rest ih =>
    cases t with
    | leaf c =>
      simp only [leavesOpen, Bool.and_eq_true, decide_eq_true_iff] at stays ⊢
      obtain ⟨more, stays⟩ := stays
      have index : missing - 1 + 1 = missing + 1 - 1 := by omega
      exact ⟨by omega, index ▸ ih stays⟩
    | internal => exact ih stays

/-- Tags that leave something to come of at least two subtrees leave the first open, or hold it whole. -/
theorem leavesOpen_first {missing : Nat} {tags : List Tag} (stays : leavesOpen (missing + 2) tags = true) :
    leavesOpen 1 tags = true ∨
      ∃ (tr : Tree) (rest : List Tag), tags = tr.tags ++ rest ∧ leavesOpen (missing + 1) rest = true := by
  match tags with
  | [] => exact .inl rfl
  | .leaf c :: rest =>
    simp only [leavesOpen, Bool.and_eq_true] at stays
    exact .inr ⟨.leaf 0 c, rest, rfl, stays.2⟩
  | .internal :: rest =>
    rcases leavesOpen_first (missing := missing + 1) (tags := rest) stays with openLeft | ⟨l, rest1, rfl, stays1⟩
    · exact .inl (leavesOpen_succ openLeft)
    · rcases leavesOpen_first (missing := missing) (tags := rest1) stays1 with openRight | ⟨r, rest2, rfl, stays2⟩
      · refine .inl ?_
        rw [leavesOpen, leavesOpen_tags_append]
        exact openRight
      · exact .inr ⟨.internal 0 l r, rest2, by simp [Tree.tags], stays2⟩
termination_by tags.length

/-- The parser once it has read some tags, with `rest` still to come. -/
def ParseState.pastTags (p : ParseState) (tags : List Tag) (rest : Bits) : ParseState :=
  { rest := rest, pos := p.pos + (tagBits tags).length, next := p.next + tags.length,
    nint := p.nint + tags.count .internal, seen := (tagSymbols tags).reverse ++ p.seen }

theorem ParseState.pastTags_nil (p : ParseState) : p.pastTags [] p.rest = p := by
  simp [ParseState.pastTags, tagBits, tagSymbols]

theorem ParseState.pastTags_internal (p : ParseState) (tags : List Tag) (rest1 rest : Bits) :
    p.pastTags (.internal :: tags) rest = (p.pastInternalTag rest1).pastTags tags rest := by
  simp only [ParseState.pastTags, ParseState.pastInternalTag, tagBits_internal, tagSymbols_internal, List.length_cons,
    List.count_cons_self, ParseState.mk.injEq]
  exact ⟨trivial, by omega, by omega, by omega, trivial⟩

@[simp] theorem Tree.tags_length (tr : Tree) : tr.tags.length = tr.handles.length := by
  induction tr with
  | leaf h c => rfl
  | internal h l r ihLeft ihRight =>
    rw [Tree.tags, Tree.handles, List.length_cons, List.length_cons, List.length_append, List.length_append, ihLeft, ihRight]

theorem ParseState.pastTags_tree (p : ParseState) (tr : Tree) (tags : List Tag) (rest1 rest : Bits) :
    p.pastTags (tr.tags ++ tags) rest = (p.past tr rest1).pastTags tags rest := by
  simp only [ParseState.pastTags, ParseState.past, tagBits_append, tagSymbols_append, List.length_append,
    List.count_append, Tree.tagBits_tags, Tree.tagSymbols_tags, Tree.count_tags, Tree.tags_length, List.reverse_append,
    List.append_assoc, ParseState.mk.injEq]
  exact ⟨trivial, by omega, by omega, by omega, trivial⟩

/-- What the parser raises at the tag after an open start of a tree it raises for the whole tree. -/
theorem parseTree_openStart {nbits : Nat} {e : CmdError} {tags : List Tag} {depth : Nat} {p : ParseState} {tail : Bits}
    (stays : leavesOpen 1 tags = true) (deep : tags.count .internal < depth) (bits : p.rest = tagBits tags ++ tail)
    (few : p.nint + tags.count .internal ≤ Config.maxInternal) (fresh : ((tagSymbols tags).reverse ++ p.seen).Nodup)
    (raises : ∀ d, parseTree nbits (d + 1) (p.pastTags tags tail) = .error e) : parseTree nbits depth p = .error e := by
  induction length : tags.length using Nat.strong_induction_on generalizing tags depth p with | _ n ih
  obtain ⟨depth, rfl⟩ := Nat.exists_eq_add_one_of_ne_zero (Nat.ne_zero_of_lt deep)
  match tags with
  | [] =>
    obtain rfl : p.rest = tail := bits
    rw [ParseState.pastTags_nil] at raises
    exact raises depth
  | .leaf c :: rest => simp [leavesOpen] at stays
  | .internal :: rest =>
    rw [List.count_cons_self] at deep few
    rw [tagSymbols_internal] at fresh
    rw [tagBits_internal, List.cons_append] at bits
    have notFull : p.nint ≠ Config.maxInternal := by omega
    rcases leavesOpen_first (missing := 0) (tags := rest) stays with openLeft | ⟨l, rest', rfl, openRight⟩
    · rw [List.length_cons] at length
      refine parseTree_left_error bits notFull (ih rest.length (by omega) openLeft (by omega) rfl ?_ fresh
        (fun d => ?_) rfl)
      · simp only [ParseState.pastInternalTag]; omega
      · rw [← ParseState.pastTags_internal]
        exact raises d
    · rw [List.count_append, Tree.count_tags] at deep few
      rw [tagSymbols_append, Tree.tagSymbols_tags, List.reverse_append, List.append_assoc] at fresh
      rw [tagBits_append, Tree.tagBits_tags, List.append_assoc] at bits
      have parseLeft := parseTree_ser nbits (depth := depth) (tr := l) (rest := tagBits rest' ++ tail)
        (p := p.pastInternalTag (l.ser ++ (tagBits rest' ++ tail))) (by omega) rfl
        (by simp only [ParseState.pastInternalTag]; omega) (List.Nodup.of_append_right fresh)
      rw [List.length_cons, List.length_append] at length
      refine parseTree_right_error bits notFull parseLeft (ih rest'.length (by omega) openRight (by omega) rfl ?_ fresh
        (fun d => ?_) rfl)
      · simp only [ParseState.past, ParseState.pastInternalTag]; omega
      · rw [← ParseState.pastTags_tree, ← ParseState.pastTags_internal]
        exact raises d

/-- DESERIALIZE after an open start of a tree ends with what its parser raises at the next tag. -/
theorem exec_deserialize_of_openStart {s : State} {tags : List Tag} {tail : Bits} {c : ErrCode} {info : Nat}
    (inside : s.srcAddr.toNat + s.srcLen.toNat ≤ s.lmemSize.bytes) (start : openStart tags)
    (source : sourceBits s (8 * s.srcLen.toNat) = tagBits tags ++ tail)
    (raises : ∀ d, parseTree (8 * s.srcLen.toNat) (d + 1) ((parseStart s).pastTags tags tail) =
      .error (abortParse c info)) :
    exec .deserialize s = .next (abortedDeserialize c.toByte (BitVec.ofNat 32 info) s) := by
  obtain ⟨stays, distinct, few⟩ := start
  refine exec_deserialize_of_abort inside (parseTree_openStart stays ?_ source ?_ ?_ raises)
  · exact few.trans_lt (by decide)
  · simpa [parseStart] using few
  · simpa [parseStart] using distinct

/-- The parser has read as many bits as the tags have. -/
theorem parseStart_pastTags_pos (s : State) (tags : List Tag) (tail : Bits) :
    ((parseStart s).pastTags tags tail).pos = (tagBits tags).length := Nat.zero_add _

theorem exec_deserialize_of_beyond {s : State} (beyond : srcRangeOK s = false) :
    exec .deserialize s = .next (rejected 0x05 0 s) := by
  simp only [exec, execDeserialize, deserializeBody, beyond, Bool.not_false, if_true]
  rfl

/-- Settles O30: the outcomes are those of `exec_deserialize_outcomes`, and after an open start the parser raises at the
next tag what that tag deserves (`exec_deserialize_of_openStart`). -/
theorem deserializeEndsWithATreeOrNone : Obligations.DeserializeEndsWithATreeOrNone := by
  refine fun s => ⟨fun beyond => exec_deserialize_of_beyond ((srcRangeOK_eq_false_iff s).mpr beyond),
    fun inside => ⟨?outcomes, fun tags start => ⟨fun c rest seen source => ?dup, fun rest full source => ?large,
      fun part short source => ?truncated⟩⟩⟩
  case outcomes =>
    rcases exec_deserialize_outcomes inside with ⟨tr, distinct, run⟩ | ⟨c, info, code, run⟩
    · exact .inl ⟨_, _, run, rfl, treeInv_deserialized distinct s, rfl, rfl, rfl⟩
    · refine .inr ⟨_, _, ?_, run⟩
      rcases code with rfl | rfl | rfl
      · exact .inl rfl
      · exact .inr (.inl rfl)
      · exact .inr (.inr rfl)
  case dup =>
    refine exec_deserialize_of_openStart (c := .dupSymbol) inside start source fun d => ?_
    rw [← parseStart_pastTags_pos s tags (Tag.bits (.leaf c) ++ rest)]
    exact parseTree_seen_leaf _ d rfl (by simpa [ParseState.pastTags, parseStart] using seen)
  case large =>
    refine exec_deserialize_of_openStart (c := .treeTooLarge) inside start source fun d => ?_
    rw [← parseStart_pastTags_pos s tags (Tag.bits .internal ++ rest)]
    exact parseTree_full _ d rfl ((Nat.zero_add _).trans full)
  case truncated =>
    refine exec_deserialize_of_openStart (c := .treeTruncated) inside start source fun d => ?_
    rcases short with rfl | ⟨p, rfl, short⟩
    · exact parseTree_nil _ d rfl
    · exact parseTree_short_leaf _ d rfl short

end Sys2Proof.Machine
end

section
/-! ## Codes and paths (42_code_table_gen.md R140 to R142) -/

namespace Sys2Proof.Machine

/-- Settles O27: SERIALIZE stores the padded bits of the tree (`exec_serialize_of_treeOf`, `packBytes_padToByte`). -/
theorem serializeWritesThePreorderBits : Obligations.SerializeWritesThePreorderBits := by
  intro s tr valid reads inside room
  obtain ⟨length, bits⟩ := packBytes_padToByte tr.ser
  exact ⟨_, packBytes (padToByte tr.ser), exec_serialize_of_treeOf valid reads inside room, rfl, length,
    length.symm ▸ bits, Memory.setBytes_holdsBytes _ _ _, Memory.setBytes_sameOutside _ _ _⟩

/-! ## Following a path -/

theorem followPath_append (s : State) (h : Handle) (p q : Bits) :
    followPath s h (p ++ q) = (followPath s h p).bind fun m => followPath s m q := by
  induction p generalizing h with
  | nil => rfl
  | cons b p ih =>
    simp only [List.cons_append, followPath]
    split
    · exact ih _
    · rfl

theorem followPath_leaf {s : State} {h : Handle} {c : Byte} (leaf : leafAt s h c) (b : Bool) (p : Bits) :
    followPath s h (b :: p) = none := by
  obtain ⟨f, node⟩ := leaf
  simp only [followPath, node]

theorem followPath_internal {s : State} {h l r : Handle} {f : NodeFreq} (node : nodeAt s h = some (.internal f l r))
    (b : Bool) (p : Bits) : followPath s h (b :: p) = followPath s (if b then r else l) p := by
  simp only [followPath, node]

/-- A path goes on only from an internal node. -/
theorem internalAt_of_followPath {s : State} {h m : Handle} {b : Bool} {p : Bits}
    (path : followPath s h (b :: p) = some m) : internalAt s h := by
  simp only [followPath] at path
  split at path
  · next f l r node => exact ⟨f, l, r, node⟩
  · cases path

theorem not_internalAt_of_leafAt {s : State} {h : Handle} {c : Byte} (leaf : leafAt s h c) : ¬ internalAt s h := by
  obtain ⟨f, leaf⟩ := leaf
  rintro ⟨f', l, r, node⟩
  cases leaf.symm.trans node

/-- What a walk from `a` writes is what a walk from the empty path writes, after `a`. -/
theorem Tree.mem_walk_iff {tr : Tree} {c : Byte} {a q : Bits} :
    (c, q) ∈ tr.walk a ↔ ∃ p, q = a ++ p ∧ (c, p) ∈ tr.walk [] := by
  induction tr generalizing a q with
  | leaf h d =>
    simp only [Tree.walk, List.mem_singleton, Prod.mk.injEq]
    constructor
    · rintro ⟨rfl, rfl⟩
      exact ⟨[], (List.append_nil _).symm, rfl, rfl⟩
    · rintro ⟨p, rfl, rfl, rfl⟩
      exact ⟨rfl, List.append_nil _⟩
  | internal h l r ihLeft ihRight =>
    simp only [Tree.walk, List.mem_append, List.nil_append]
    rw [ihLeft, ihRight]
    constructor
    · rintro (⟨p, rfl, mem⟩ | ⟨p, rfl, mem⟩)
      · exact ⟨false :: p, by simp, .inl (ihLeft.mpr ⟨p, rfl, mem⟩)⟩
      · exact ⟨true :: p, by simp, .inr (ihRight.mpr ⟨p, rfl, mem⟩)⟩
    · rintro ⟨p, rfl, mem | mem⟩
      · obtain ⟨p', rfl, below⟩ := ihLeft.mp mem
        exact .inl ⟨p', by simp, below⟩
      · obtain ⟨p', rfl, below⟩ := ihRight.mp mem
        exact .inr ⟨p', by simp, below⟩

theorem Tree.mem_walk_singleton_iff {tr : Tree} {c : Byte} {a b : Bool} {p : Bits} :
    (c, b :: p) ∈ tr.walk [a] ↔ b = a ∧ (c, p) ∈ tr.walk [] := by
  rw [Tree.mem_walk_iff]
  constructor
  · rintro ⟨q, eq, mem⟩
    obtain ⟨rfl, rfl⟩ := List.cons.inj eq
    exact ⟨rfl, mem⟩
  · rintro ⟨rfl, mem⟩
    exact ⟨p, rfl, mem⟩

/-- An internal node's walk writes no empty path. -/
theorem Tree.nil_not_mem_walk_internal (h : Handle) (l r : Tree) (c : Byte) :
    (c, []) ∉ (Tree.internal h l r).walk [] := by
  intro mem
  rcases List.mem_append.mp mem with mem | mem
  · exact absurd (prefix_of_mem_walk mem) (by simp)
  · exact absurd (prefix_of_mem_walk mem) (by simp)

/-- The walk of a stored tree writes, for each leaf, the path that leads to it (R140). -/
theorem mem_walk_iff_followPath {s : State} {tr : Tree} (stored : tr.StoredIn (nodeAt s)) {c : Byte} {q : Bits} :
    (c, q) ∈ tr.walk [] ↔ ∃ h, followPath s tr.root q = some h ∧ leafAt s h c := by
  induction tr generalizing q with
  | leaf h d =>
    obtain ⟨f, node⟩ := stored
    have leaf : leafAt s h d := ⟨f, node⟩
    simp only [Tree.walk, List.mem_singleton, Prod.mk.injEq, Tree.root_leaf]
    cases q with
    | nil =>
      simp only [followPath, Option.some.injEq, exists_eq_left', and_true]
      constructor
      · rintro rfl; exact leaf
      · rintro ⟨f', node'⟩; cases node.symm.trans node'; rfl
    | cons b q => simp [followPath_leaf leaf]
  | internal h l r ihLeft ihRight =>
    obtain ⟨⟨f, node⟩, storedLeft, storedRight⟩ := stored
    rw [Tree.root_internal]
    cases q with
    | nil =>
      refine iff_of_false (Tree.nil_not_mem_walk_internal h l r c) ?_
      rintro ⟨h', here, leaf⟩
      obtain rfl : h = h' := Option.some.inj here
      exact not_internalAt_of_leafAt leaf ⟨f, _, _, node⟩
    | cons b q =>
      have split : (c, b :: q) ∈ (Tree.internal h l r).walk [] ↔
          (b = false ∧ (c, q) ∈ l.walk []) ∨ (b = true ∧ (c, q) ∈ r.walk []) := by
        simp only [Tree.walk, List.mem_append, List.nil_append, Tree.mem_walk_singleton_iff]
      rw [split, followPath_internal node]
      cases b with
      | false => simpa using ihLeft storedLeft
      | true => simpa using ihRight storedRight

theorem Tree.walk_symbols (tr : Tree) (a : Bits) : (tr.walk a).map Prod.fst = tr.symbols := by
  induction tr generalizing a with
  | leaf h c => rfl
  | internal h l r ihLeft ihRight => rw [Tree.walk, List.map_append, ihLeft, ihRight, Tree.symbols]

theorem codeEntries_symbols (tr : Tree) : (codeEntries tr).map Prod.fst = tr.symbols := by
  cases tr with
  | leaf h c => rfl
  | internal h l r => exact Tree.walk_symbols _ _

theorem nil_not_mem_codeEntries (tr : Tree) (c : Byte) : (c, []) ∉ codeEntries tr := by
  cases tr with
  | leaf h d => simp [codeEntries]
  | internal h l r => exact Tree.nil_not_mem_walk_internal h l r c

/-! ## The code table as a function of the entries (R141) -/

theorem writeCodes_of_not_mem {c : Byte} {entries : List (Byte × Bits)} {table : Vector (Contents Bits) 256}
    (absent : c ∉ entries.map Prod.fst) : (writeCodes entries table)[c.toNat]'c.isLt = table[c.toNat]'c.isLt := by
  induction entries generalizing table with
  | nil => rfl
  | cons e es ih =>
    rw [List.map_cons, List.mem_cons, not_or] at absent
    have ne : e.1.toNat ≠ c.toNat := fun eq => absent.1 (BitVec.eq_of_toNat_eq eq.symm)
    exact (ih absent.2).trans (Vector.getElem_set_ne _ _ ne)

theorem writeCodes_of_mem {c : Byte} {p : Bits} {entries : List (Byte × Bits)} {table : Vector (Contents Bits) 256}
    (distinct : (entries.map Prod.fst).Nodup) (mem : (c, p) ∈ entries) :
    (writeCodes entries table)[c.toNat]'c.isLt = .written p := by
  induction entries generalizing table with
  | nil => cases mem
  | cons e es ih =>
    obtain ⟨absent, distinct⟩ := List.nodup_cons.mp distinct
    rcases List.mem_cons.mp mem with rfl | mem
    · exact (writeCodes_of_not_mem absent).trans (Vector.getElem_set_self _)
    · exact ih distinct mem

/-- The entries of a tree with distinct symbols are the codes of its table that are not empty. -/
theorem mem_codeEntries_iff {tr : Tree} (distinct : tr.symbols.Nodup) {c : Byte} {p : Bits} :
    (c, p) ∈ codeEntries tr ↔ p ≠ [] ∧ (codeTable tr)[c.toNat]'c.isLt = .written p := by
  constructor
  · intro mem
    refine ⟨fun empty => nil_not_mem_codeEntries tr c (empty ▸ mem), writeCodes_of_mem ?_ mem⟩
    rwa [codeEntries_symbols]
  · rintro ⟨nonempty, entry⟩
    exact mem_codeEntries_of_codeTable entry nonempty

theorem exists_writeCodes_written (c : Byte) (entries : List (Byte × Bits)) {table : Vector (Contents Bits) 256}
    (before : ∃ p, table[c.toNat]'c.isLt = .written p) :
    ∃ p, (writeCodes entries table)[c.toNat]'c.isLt = .written p := by
  induction entries generalizing table with
  | nil => exact before
  | cons e es ih =>
    refine ih ?_
    rw [Vector.getElem_set]
    split
    · exact ⟨e.2, rfl⟩
    · exact before

/-- GENCODES writes every entry. -/
theorem exists_codeTable_written (tr : Tree) (c : Byte) : ∃ p, (codeTable tr)[c.toNat]'c.isLt = .written p :=
  exists_writeCodes_written c _ ⟨[], getElem_noCodes _ c.isLt⟩

/-! ## The codes of the current tree -/

section
variable {s : State} {tr : Tree} (root : tr.root = s.root) (stored : tr.StoredIn (nodeAt s))
include root stored

/-- The codes of the tree are the entries GENCODES writes (R140 to R142). -/
theorem codeIs_iff {c : Byte} {p : Bits} : codeIs s c p ↔ (c, p) ∈ codeEntries tr := by
  cases tr with
  | leaf h d =>
    obtain rfl : h = s.root := root
    obtain ⟨f, node⟩ := stored
    have leaf : leafAt s s.root d := ⟨f, node⟩
    simp only [codeEntries, List.mem_singleton, Prod.mk.injEq, codeIs]
    constructor
    · rintro (⟨⟨f', node'⟩, rfl⟩ | ⟨internal, -⟩)
      · cases node.symm.trans node'; exact ⟨rfl, rfl⟩
      · exact absurd internal (not_internalAt_of_leafAt leaf)
    · rintro ⟨rfl, rfl⟩
      exact .inl ⟨leaf, rfl⟩
  | internal h l r =>
    have entries := mem_walk_iff_followPath stored (c := c) (q := p)
    obtain ⟨⟨f, node⟩, -, -⟩ := stored
    rw [Tree.root_internal] at root entries
    subst root
    have internal : internalAt s s.root := ⟨f, _, _, node⟩
    rw [codeEntries, entries, codeIs]
    constructor
    · rintro (⟨leaf, -⟩ | ⟨-, path⟩)
      · exact absurd internal (not_internalAt_of_leafAt leaf)
      · exact path
    · exact fun path => .inr ⟨internal, path⟩

end

/-- Settles O22: the entry of each symbol is its leaf's path (`mem_walk_iff_followPath`, `mem_codeEntries_iff`). -/
theorem gencodesWritesThePathOfEveryLeaf : Obligations.GencodesWritesThePathOfEveryLeaf := by
  intro s inv valid internal
  obtain ⟨tr, treeInv⟩ := inv.tree valid
  obtain ⟨root, stored⟩ := storedIn_of_treeOf treeInv.reads
  refine ⟨_, exec_gencodes_of_walkedTree valid (walkedTree_of_treeOf treeInv.reads), rfl, fun c => ?_⟩
  obtain ⟨p, entry⟩ := exists_codeTable_written tr c
  refine ⟨p, entry, fun q => ?_⟩
  have path : (∃ h, followPath s s.root q = some h ∧ leafAt s h c) ↔ codeIs s c q := by
    refine ⟨fun path => .inr ⟨internal, path⟩, ?_⟩
    rintro (⟨leaf, -⟩ | ⟨-, path⟩)
    · exact absurd internal (not_internalAt_of_leafAt leaf)
    · exact path
  rw [path, codeIs_iff root stored, mem_codeEntries_iff treeInv.distinctSymbols, entry, Contents.written.injEq]
  constructor
  · rintro ⟨nonempty, rfl⟩; exact ⟨rfl, nonempty⟩
  · rintro ⟨rfl, nonempty⟩; exact ⟨nonempty, rfl⟩

end Sys2Proof.Machine
end

section
/-! ## The nodes a path reaches (42_code_table_gen.md R140, 10_state.md R38) -/

namespace Sys2Proof.Machine

theorem Tree.root_mem_handles (tr : Tree) : tr.root ∈ tr.handles := by cases tr <;> exact List.mem_cons_self

/-- Under a stored tree a path leads to the root of a stored subtree. -/
theorem exists_subtree_of_followPath {s : State} {tr : Tree} (stored : tr.StoredIn (nodeAt s)) {p : Bits} {h : Handle}
    (path : followPath s tr.root p = some h) :
    ∃ sub : Tree, sub.root = h ∧ sub.StoredIn (nodeAt s) ∧ sub.handles ⊆ tr.handles := by
  induction p generalizing tr with
  | nil =>
    obtain rfl : tr.root = h := Option.some.inj path
    exact ⟨tr, rfl, stored, List.Subset.refl _⟩
  | cons b p ih =>
    cases tr with
    | leaf h' c => cases (followPath_leaf stored b p).symm.trans path
    | internal h' l r =>
      obtain ⟨⟨f, node⟩, storedLeft, storedRight⟩ := stored
      rw [Tree.root_internal, followPath_internal node] at path
      have left : l.handles ⊆ (Tree.internal h' l r).handles := fun x mem =>
        List.mem_cons_of_mem _ (List.mem_append_left _ mem)
      have right : r.handles ⊆ (Tree.internal h' l r).handles := fun x mem =>
        List.mem_cons_of_mem _ (List.mem_append_right _ mem)
      cases b with
      | false =>
        obtain ⟨sub, root, storedSub, subset⟩ := ih storedLeft path
        exact ⟨sub, root, storedSub, List.Subset.trans subset left⟩
      | true =>
        obtain ⟨sub, root, storedSub, subset⟩ := ih storedRight path
        exact ⟨sub, root, storedSub, List.Subset.trans subset right⟩

/-- Where every handle is used once, only the empty path leads back to the root. -/
theorem followPath_ne_root {s : State} {tr : Tree} (stored : tr.StoredIn (nodeAt s)) (once : tr.handles.Nodup)
    {p : Bits} {h : Handle} (nonempty : p ≠ []) (path : followPath s tr.root p = some h) : h ≠ tr.root := by
  obtain ⟨b, p, rfl⟩ := List.exists_cons_of_ne_nil nonempty
  cases tr with
  | leaf h' c => cases (followPath_leaf stored b p).symm.trans path
  | internal h' l r =>
    obtain ⟨⟨f, node⟩, storedLeft, storedRight⟩ := stored
    rw [Tree.root_internal, followPath_internal node] at path
    have below : h ∈ l.handles ++ r.handles := by
      cases b with
      | false =>
        obtain ⟨sub, rfl, -, subset⟩ := exists_subtree_of_followPath storedLeft path
        exact List.mem_append_left _ (subset sub.root_mem_handles)
      | true =>
        obtain ⟨sub, rfl, -, subset⟩ := exists_subtree_of_followPath storedRight path
        exact List.mem_append_right _ (subset sub.root_mem_handles)
    rintro rfl
    exact (List.nodup_cons.mp once).1 below

theorem TreeInv.handles_nodup {s : State} {tr : Tree} (inv : TreeInv s tr) : tr.handles.Nodup :=
  (inv.eachHandleOnce.nodup_iff.mpr List.nodup_range).of_map

/-! ## Candidates and codes -/

theorem candidateAt_root (s : State) : candidateAt s [] s.root := ⟨rfl, .inl rfl⟩

theorem candidateAt.eq_root {s : State} {n : Handle} (cand : candidateAt s [] n) : n = s.root :=
  (Option.some.inj cand.1).symm

/-- The start of a candidate, and of a code less its last bit, is a candidate: a path goes on only from an internal node. -/
theorem candidateAt_of_followPath {s : State} {p q : Bits} {h : Handle} (path : followPath s s.root (p ++ q) = some h)
    (goesOn : q ≠ [] ∨ internalAt s h) : ∃ m, candidateAt s p m ∧ followPath s m q = some h := by
  rw [followPath_append, Option.bind_eq_some_iff] at path
  obtain ⟨m, path, rest⟩ := path
  refine ⟨m, ⟨path, .inr ?_⟩, rest⟩
  cases q with
  | nil =>
    obtain rfl : m = h := Option.some.inj rest
    exact goesOn.resolve_left fun ne => ne rfl
  | cons b q => exact internalAt_of_followPath rest

theorem candidateAt.candidate_before {s : State} {p q : Bits} {m : Handle} (cand : candidateAt s (p ++ q) m) :
    ∃ m', candidateAt s p m' := by
  by_cases empty : p ++ q = []
  · rw [(List.append_eq_nil_iff.mp empty).1]
    exact ⟨_, candidateAt_root s⟩
  · obtain ⟨m', cand', -⟩ := candidateAt_of_followPath cand.1 (.inr (cand.2.resolve_left empty))
    exact ⟨m', cand'⟩

theorem codeIs.candidate_before {s : State} {c : Byte} {p : Bits} {b : Bool} (code : codeIs s c (p ++ [b])) :
    ∃ m, candidateAt s p m := by
  rcases code with ⟨-, zero⟩ | ⟨-, h, path, -⟩
  · obtain rfl : p = [] := by simpa using congrArg List.length zero
    exact ⟨_, candidateAt_root s⟩
  · obtain ⟨m, cand, -⟩ := candidateAt_of_followPath path (.inl (List.cons_ne_nil b []))
    exact ⟨m, cand⟩

/-- No candidate goes on from a code: a code ends at a leaf. -/
theorem codeIs.not_candidateAt {s : State} {c : Byte} {q rest : Bits} {n : Handle} (code : codeIs s c q) :
    ¬ candidateAt s (q ++ rest) n := by
  rintro ⟨path, goesOn⟩
  rcases code with ⟨leaf, rfl⟩ | ⟨internal, h, codePath, leaf⟩
  · rw [List.singleton_append, followPath_leaf leaf] at path
    cases path
  · rw [followPath_append, codePath, Option.bind_some] at path
    cases rest with
    | cons b rest =>
      rw [followPath_leaf leaf] at path
      cases path
    | nil =>
      obtain rfl : h = n := Option.some.inj path
      rcases goesOn with empty | internal'
      · rw [List.append_nil] at empty
        subst empty
        obtain rfl : s.root = h := Option.some.inj codePath
        exact not_internalAt_of_leafAt leaf internal
      · exact not_internalAt_of_leafAt leaf internal'

/-- A candidate and a code that start one stream: the code goes on from the candidate by at least one bit. -/
theorem codeIs.continues {s : State} {c : Byte} {p q bits rest : Bits} {n : Handle} (code : codeIs s c q)
    (cand : candidateAt s p n) (stream : p ++ bits = q ++ rest) :
    ∃ suffix, suffix ≠ [] ∧ q = p ++ suffix ∧ bits = suffix ++ rest := by
  rcases List.append_eq_append_iff.mp stream with ⟨suffix, rfl, rfl⟩ | ⟨more, rfl, -⟩
  · refine ⟨suffix, ?_, rfl, rfl⟩
    rintro rfl
    rw [List.append_nil] at code
    exact (code.not_candidateAt (rest := [])) (by rwa [List.append_nil])
  · exact absurd cand code.not_candidateAt

end Sys2Proof.Machine
end

section
/-! ## One bit of the decoder (45_huffman_decoder.md R191 to R193) -/

namespace Sys2Proof.Machine

section
variable {s : State}

theorem readNode_of_nodeAt {h : Handle} {n : Node} (node : nodeAt s h = some n) : readNode s h = n := by
  simp only [readNode, node]

/-- Under an internal root a bit leads from an internal node to its child. -/
theorem decodeStep_internal {n l r : Handle} {f : NodeFreq} {child : Node} {b : Bool} (root : internalAt s s.root)
    (node : nodeAt s n = some (.internal f l r)) (at_child : nodeAt s (if b then r else l) = some child) :
    decodeStep s n b =
      if child.isLeaf then some (some child.symbol, s.root) else some (none, if b then r else l) := by
  obtain ⟨f', l', r', top⟩ := root
  simp only [decodeStep, readNode_of_nodeAt top, readNode_of_nodeAt node, Node.isLeaf, Node.left, Node.right,
    readNode_of_nodeAt at_child, Bool.false_eq_true, if_false]
  cases child <;> rfl

/-- Under a lone leaf the 1 bit is no step, and the 0 bit completes the leaf's symbol. -/
theorem decodeStep_lone {c : Byte} (leaf : leafAt s s.root c) (n : Handle) (b : Bool) :
    decodeStep s n b = if b then none else some (some c, n) := by
  obtain ⟨f, top⟩ := leaf
  simp only [decodeStep, readNode_of_nodeAt top, Node.isLeaf, Node.symbol, if_true]

/-- Under a lone leaf the only candidate is the empty one. -/
theorem candidateAt.of_lone {c : Byte} {p : Bits} {n : Handle} (cand : candidateAt s p n) (leaf : leafAt s s.root c) :
    p = [] ∧ n = s.root := by
  cases p with
  | nil => exact ⟨rfl, cand.eq_root⟩
  | cons b p => cases (followPath_leaf leaf b p).symm.trans cand.1

/-- Where a path goes on by one bit the node it stands at is internal, and the bit leads to its child. -/
theorem exists_node_of_followPath_singleton {n m : Handle} {b : Bool} (path : followPath s n [b] = some m) :
    ∃ f l r, nodeAt s n = some (.internal f l r) ∧ m = if b then r else l := by
  obtain ⟨f, l, r, node⟩ := internalAt_of_followPath path
  rw [followPath_internal node] at path
  exact ⟨f, l, r, node, (Option.some.inj path).symm⟩

theorem internalAt_root_of_followPath {p : Bits} {b : Bool} {m : Handle}
    (path : followPath s s.root (p ++ [b]) = some m) : internalAt s s.root := by
  obtain ⟨x, q, eq⟩ := List.exists_cons_of_ne_nil (l := p ++ [b]) (by simp)
  rw [eq] at path
  exact internalAt_of_followPath path

theorem candidateAt.followPath_singleton {p : Bits} {n m : Handle} {b : Bool} (cand : candidateAt s p n)
    (path : followPath s s.root (p ++ [b]) = some m) : followPath s n [b] = some m := by
  rw [followPath_append, cand.1] at path
  exact path

/-- The bit that completes a code emits its symbol and goes back to the root. -/
theorem decodeStep_of_codeIs {p : Bits} {n : Handle} {b : Bool} {c : Byte} (cand : candidateAt s p n)
    (code : codeIs s c (p ++ [b])) : decodeStep s n b = some (some c, s.root) := by
  rcases code with ⟨leaf, zero⟩ | ⟨root, m, path, leaf⟩
  · obtain ⟨rfl, rfl⟩ := cand.of_lone leaf
    obtain rfl : b = false := by simpa using zero
    exact decodeStep_lone leaf s.root false
  · obtain ⟨f, l, r, node, rfl⟩ := exists_node_of_followPath_singleton (cand.followPath_singleton path)
    obtain ⟨f', at_child⟩ := leaf
    rw [decodeStep_internal root node at_child]
    rfl

/-- A bit after which the candidate completes no code leads to its node. -/
theorem decodeStep_of_candidateAt {p : Bits} {n m : Handle} {b : Bool} (cand : candidateAt s p n)
    (next : candidateAt s (p ++ [b]) m) : decodeStep s n b = some (none, m) := by
  obtain ⟨f, l, r, node, rfl⟩ := exists_node_of_followPath_singleton (cand.followPath_singleton next.1)
  obtain ⟨f', l', r', at_child⟩ := next.2.resolve_left (by simp)
  rw [decodeStep_internal (internalAt_root_of_followPath next.1) node at_child]
  rfl

/-- Every bit completes a code or leads on, but the 1 bit under a lone leaf. -/
theorem codeIs_or_candidateAt {tr : Tree} (root : tr.root = s.root) (stored : tr.StoredIn (nodeAt s)) {p : Bits}
    {n : Handle} (b : Bool) (cand : candidateAt s p n) (notLone : ∀ c, leafAt s s.root c → b = false) :
    (∃ c, codeIs s c (p ++ [b])) ∨ ∃ m, candidateAt s (p ++ [b]) m := by
  cases tr with
  | leaf h c =>
    obtain rfl : h = s.root := root
    have leaf : leafAt s s.root c := stored
    obtain ⟨rfl, -⟩ := cand.of_lone leaf
    rw [notLone c leaf]
    exact .inl ⟨c, .inl ⟨leaf, rfl⟩⟩
  | internal h tl trr =>
    have topStored := stored
    obtain ⟨⟨f, top⟩, -, -⟩ := topStored
    have rootInternal : internalAt s s.root := root ▸ ⟨f, _, _, top⟩
    have here : internalAt s n := by
      rcases cand.2 with rfl | internal
      · rw [cand.eq_root]
        exact rootInternal
      · exact internal
    obtain ⟨f', l, r, node⟩ := here
    have path : followPath s s.root (p ++ [b]) = some (if b then r else l) := by
      rw [followPath_append, cand.1, Option.bind_some, followPath_internal node]
      rfl
    obtain ⟨sub, subRoot, subStored, -⟩ := exists_subtree_of_followPath stored (root.symm ▸ path)
    cases sub with
    | leaf h' c =>
      refine .inl ⟨c, .inr ⟨rootInternal, _, path, ?_⟩⟩
      rw [← subRoot]
      exact subStored
    | internal h' sl sr =>
      obtain ⟨⟨f, at_child⟩, -, -⟩ := subStored
      refine .inr ⟨_, path, .inr ?_⟩
      rw [← subRoot]
      exact ⟨f, _, _, at_child⟩

end

/-! ## The bit loop (R191) -/

/-- The result of a loop with some bytes emitted before. -/
def emits {α : Type} (out : List Byte) : Except CmdError (List Byte × α) → Except CmdError (List Byte × α)
  | .error e => .error e
  | .ok (out', n) => .ok (out ++ out', n)

theorem emits_nil {α : Type} (r : Except CmdError (List Byte × α)) : emits [] r = r := by cases r <;> rfl

theorem emits_emits {α : Type} (out out' : List Byte) (r : Except CmdError (List Byte × α)) :
    emits out (emits out' r) = emits (out ++ out') r := by
  cases r with
  | error e => rfl
  | ok r => simp [emits]

section
variable {s : State} {n m : Handle} {b : Bool} {c : Byte} (j written : Nat) (rest : Bits)

theorem decodeLoop_of_none (step : decodeStep s n b = none) :
    decodeLoop s j written n (b :: rest) = .error (abortDecode .invalidCode j) := by
  simp only [decodeLoop, step]

theorem decodeLoop_of_descent (step : decodeStep s n b = some (none, m)) :
    decodeLoop s j written n (b :: rest) = decodeLoop s (j + 1) written m rest := by
  simp only [decodeLoop, step]

theorem decodeLoop_of_symbol (step : decodeStep s n b = some (some c, m)) (room : written ≠ s.dstLen.toNat) :
    decodeLoop s j written n (b :: rest) = emits [c] (decodeLoop s (j + 1) (written + 1) m rest) := by
  simp only [decodeLoop, step, room, if_false]
  cases decodeLoop s (j + 1) (written + 1) m rest <;> rfl

theorem decodeLoop_of_full (step : decodeStep s n b = some (some c, m)) (full : written = s.dstLen.toNat) :
    decodeLoop s j written n (b :: rest) = .error (abortDecode .dstOverflow j) := by
  simp only [decodeLoop, step, full, if_true]

variable {p : Bits}

/-- The bits from one candidate to another descend and emit nothing. -/
theorem decodeLoop_candidate {path : Bits} (cand : candidateAt s p n) (next : candidateAt s (p ++ path) m) :
    decodeLoop s j written n (path ++ rest) = decodeLoop s (j + path.length) written m rest := by
  induction path generalizing j n p with
  | nil =>
    rw [List.append_nil] at next
    obtain rfl : n = m := Option.some.inj (cand.1.symm.trans next.1)
    rfl
  | cons b path ih =>
    rw [List.append_cons] at next
    obtain ⟨m', next'⟩ := next.candidate_before
    have index : j + (b :: path).length = j + 1 + path.length := by rw [List.length_cons]; omega
    rw [List.cons_append, decodeLoop_of_descent _ _ _ (decodeStep_of_candidateAt cand next'), ih _ next' next, index]

/-- The bits from a candidate to the end of a code descend to the bit that completes it. -/
theorem decodeLoop_codeword {path : Bits} (cand : candidateAt s p n) (code : codeIs s c (p ++ path))
    (nonempty : path ≠ []) : ∃ b m, decodeStep s m b = some (some c, s.root) ∧
      decodeLoop s j written n (path ++ rest) = decodeLoop s (j + path.length - 1) written m (b :: rest) := by
  obtain ⟨path, b, rfl⟩ := List.eq_nil_or_concat' path |>.resolve_left nonempty
  rw [← List.append_assoc] at code
  obtain ⟨m, next⟩ := code.candidate_before
  have index : j + (path ++ [b]).length - 1 = j + path.length := by simp
  refine ⟨b, m, decodeStep_of_codeIs next code, ?_⟩
  rw [List.append_assoc, decodeLoop_candidate _ _ _ cand next, index]
  rfl

end

/-- From a candidate, codewords that have room emit their symbols; what is left of the stream starts at a candidate. -/
theorem decodeLoop_words {s : State} {words : List (Byte × Bits)} {p bits tail : Bits} {n : Handle} {j written : Nat}
    (cand : candidateAt s p n) (codes : ∀ w ∈ words, codeIs s w.1 w.2)
    (stream : p ++ bits = words.flatMap Prod.snd ++ tail) (room : written + words.length ≤ s.dstLen.toNat) :
    ∃ p' n' used bits', candidateAt s p' n' ∧ bits = used ++ bits' ∧ p' ++ bits' = tail ∧
      decodeLoop s j written n bits =
        emits (words.map Prod.fst) (decodeLoop s (j + used.length) (written + words.length) n' bits') := by
  induction words generalizing p bits n j written with
  | nil => exact ⟨p, n, [], bits, cand, rfl, stream, (emits_nil _).symm⟩
  | cons w words ih =>
    have code := codes w List.mem_cons_self
    rw [List.flatMap_cons, List.append_assoc] at stream
    rw [List.length_cons] at room
    obtain ⟨suffix, nonempty, word, rfl⟩ := code.continues cand stream
    rw [word] at code
    obtain ⟨b, m, step, descends⟩ := decodeLoop_codeword (j := j) (written := written)
      (words.flatMap Prod.snd ++ tail) cand code nonempty
    obtain ⟨p', n', used, bits', cand', split, tail', loop⟩ := ih (j := j + suffix.length) (written := written + 1)
      (candidateAt_root s) (fun x mem => codes x (List.mem_cons_of_mem w mem)) (List.nil_append _) (by omega)
    have pos := List.length_pos_of_ne_nil nonempty
    have index : j + suffix.length - 1 + 1 = j + suffix.length := by omega
    refine ⟨p', n', suffix ++ used, bits', cand', by rw [split, List.append_assoc], tail', ?_⟩
    rw [descends, decodeLoop_of_symbol _ _ _ step (by omega), index, loop, emits_emits, List.length_cons,
      List.length_append, Nat.add_assoc j, Nat.add_assoc written, Nat.add_comm 1]
    rfl

end Sys2Proof.Machine
end

section
/-! ## DECODE (45_huffman_decoder.md R190 to R195) -/

namespace Sys2Proof.Machine

section
variable {last : Bool} {s : State} (premises : decodePremises last s)
include premises

theorem decodePremises.checks : s.treeValid = true ∧ sourceDestError s = none ∧ badPad last s = false := by
  obtain ⟨-, valid, src, dst, apart, pad⟩ := premises
  refine ⟨valid, sourceDestError_of_inside src dst apart, ?_⟩
  rw [← Bool.not_eq_true, badPad_eq_true_iff]
  rintro ⟨isLast, bad⟩
  have := pad isLast
  omega

theorem decodePremises.tree : ∃ tr, TreeInv s tr := premises.1.tree premises.2.1

/-- DECODE stores the symbols of a bit loop that ends, at the root when LAST = 1. -/
theorem exec_decode_of_loop {out : List Byte} {n : Handle}
    (loop : decodeLoop s 0 0 s.decNode (chunkBits last s) = .ok (out, n)) (ends : last = true → n = s.root) :
    exec (.decode last) s = .next (complete { storeResult out s with decNode := n }) := by
  obtain ⟨valid, checks, pad⟩ := premises.checks
  have whole : (last && n != s.root) = false := by
    cases last with
    | false => rfl
    | true => simp [ends rfl]
  have loop : decodeLoop s 0 0 s.decNode (sourceBits s (8 * s.srcLen.toNat - padCount last s)) = .ok (out, n) := loop
  simp only [exec, execDecode, decodeBody, valid, checks, pad, loop, whole, Bool.not_true, Bool.false_eq_true, if_false,
    perform_ok]

/-- DECODE ends with the Abort that its bit loop raises. -/
theorem exec_decode_of_loop_error {c : ErrCode} {info : Nat}
    (loop : decodeLoop s 0 0 s.decNode (chunkBits last s) = .error (abortDecode c info)) :
    ∃ t, exec (.decode last) s = .next t ∧ abortedDecode c.toByte (BitVec.ofNat 32 info) s t := by
  obtain ⟨valid, checks, pad⟩ := premises.checks
  have loop : decodeLoop s 0 0 s.decNode (sourceBits s (8 * s.srcLen.toNat - padCount last s)) =
      .error (abortDecode c info) := loop
  refine ⟨_, ?_, perform_abortDecode c (BitVec.ofNat 32 info) s⟩
  simp only [exec, execDecode, decodeBody, valid, checks, pad, loop, Bool.not_true, Bool.false_eq_true, if_false]
  rfl

end

/-- A LAST chunk whose bit loop ends below the root is the Abort INCOMPLETE_CODE. -/
theorem exec_decode_of_incomplete {s : State} {out : List Byte} {n : Handle} (premises : decodePremises true s)
    (loop : decodeLoop s 0 0 s.decNode (chunkBits true s) = .ok (out, n)) (below : n ≠ s.root) :
    ∃ t, exec (.decode true) s = .next t ∧
      abortedDecode 0x0F (BitVec.ofNat 32 (8 * s.srcLen.toNat - s.padIn.toNat)) s t := by
  obtain ⟨valid, checks, pad⟩ := premises.checks
  have loop : decodeLoop s 0 0 s.decNode (sourceBits s (8 * s.srcLen.toNat - padCount true s)) = .ok (out, n) := loop
  have open_ : (true && n != s.root) = true := by simpa using below
  refine ⟨_, ?_, perform_abortDecode .incompleteCode (BitVec.ofNat 32 (8 * s.srcLen.toNat - s.padIn.toNat)) s⟩
  simp only [exec, execDecode, decodeBody, valid, checks, pad, loop, open_, Bool.not_true, Bool.false_eq_true, if_false,
    if_true]
  rfl

/-- Codewords that have room and a candidate after them: the bit loop emits their symbols and ends at the candidate. -/
theorem decodeLoop_words_candidate {s : State} {words : List (Byte × Bits)} {p0 p bits : Bits} {n0 n : Handle}
    (cand0 : candidateAt s p0 n0) (cand : candidateAt s p n) (codes : ∀ w ∈ words, codeIs s w.1 w.2)
    (stream : p0 ++ bits = words.flatMap Prod.snd ++ p) (room : words.length ≤ s.dstLen.toNat) :
    decodeLoop s 0 0 n0 bits = .ok (words.map Prod.fst, n) := by
  obtain ⟨p', n', used, bits', cand', -, rfl, loop⟩ :=
    decodeLoop_words (j := 0) (written := 0) cand0 codes stream (by omega)
  have ends := decodeLoop_candidate (0 + used.length) (0 + words.length) [] cand' cand
  rw [List.append_nil] at ends
  rw [loop, ends]
  simp [decodeLoop, emits]

/-- Settles O38: the bit loop emits the symbols of the codewords and ends at the candidate
(`decodeLoop_words_candidate`). -/
theorem decodeEmitsTheSymbolsOfTheCodewords : Obligations.DecodeEmitsTheSymbolsOfTheCodewords := by
  intro last s words p0 p n premises cand0 cand whole codes stream room
  have loop := decodeLoop_words_candidate cand0 cand codes stream room
  have ends (isLast : last = true) : n = s.root := by
    rw [whole isLast] at cand
    exact cand.eq_root
  have length : (words.map Prod.fst).length = words.length := List.length_map _
  refine ⟨_, exec_decode_of_loop premises loop ends, ?_, Memory.setBytes_holdsBytes _ _ _, ?_⟩
  · rw [← length]
    rfl
  · rw [← length]
    exact Memory.setBytes_sameOutside _ _ _

/-- Settles O39: the bit loop ends at the candidate's node, which is not the root, as its path is not empty
(`followPath_ne_root`). -/
theorem decodeReportsAnIncompleteCodeword : Obligations.DecodeReportsAnIncompleteCodeword := by
  intro s words p0 p n premises cand0 cand nonempty codes stream room
  obtain ⟨tr, treeInv⟩ := premises.tree
  obtain ⟨root, stored⟩ := storedIn_of_treeOf treeInv.reads
  have below := followPath_ne_root stored treeInv.handles_nodup nonempty (root ▸ cand.1)
  exact exec_decode_of_incomplete premises (decodeLoop_words_candidate cand0 cand codes stream room) (root ▸ below)

/-- Settles O40: the codewords that have room leave a candidate, from which the next one descends to the bit that completes
it (`decodeLoop_words`, `decodeLoop_codeword`). -/
theorem decodeReportsAFullDestination : Obligations.DecodeReportsAFullDestination := by
  intro last s words w p0 rest premises cand0 codes stream full
  have code := codes w (by simp)
  have before : p0 ++ chunkBits last s = words.flatMap Prod.snd ++ (w.2 ++ rest) := by simpa using stream
  obtain ⟨p, n, used, bits, cand, split, tail, loop⟩ := decodeLoop_words (j := 0) (written := 0) cand0
    (fun x mem => codes x (List.mem_append_left _ mem)) before (by omega)
  obtain ⟨suffix, nonempty, word, rfl⟩ := code.continues cand tail
  rw [word] at code
  obtain ⟨b, m, step, descends⟩ := decodeLoop_codeword (j := 0 + used.length) (written := 0 + words.length) rest cand
    code nonempty
  rw [descends, decodeLoop_of_full _ _ _ step (by omega)] at loop
  have bit : 0 + used.length + suffix.length - 1 = ((words ++ [w]).flatMap Prod.snd).length - p0.length - 1 := by
    have lengths := congrArg List.length before
    simp only [List.length_append, split, word] at lengths
    simp only [List.flatMap_append, List.flatMap_singleton, List.length_append, word]
    omega
  rw [← bit]
  exact exec_decode_of_loop_error premises loop

theorem flatMap_snd_replicate (j : Nat) (c : Byte) :
    (List.replicate j (c, [false])).flatMap Prod.snd = List.replicate j false := by
  induction j with
  | zero => rfl
  | succ j ih => rw [List.replicate_succ, List.flatMap_cons, ih]; rfl

/-- Under a lone leaf DEC_NODE is the root. -/
theorem decNode_of_lone {s : State} {tr : Tree} {c : Byte} (treeInv : TreeInv s tr) (leaf : leafAt s s.root c) :
    s.decNode = s.root := by
  obtain rfl : tr = .leaf s.root c := Option.some.inj (treeInv.reads.symm.trans (treeOf_of_leafAt_root leaf))
  exact treeInv.decoder.resolve_right (by simp [Tree.internalHandles])

/-- Settles O41: the zeros are codewords of the lone leaf, and at the 1 bit the decoder has no step
(`decodeStep_lone`). -/
theorem loneLeafRejectsAOneBit : Obligations.LoneLeafRejectsAOneBit := by
  intro last s c j rest premises leaf chunk room
  obtain ⟨tr, treeInv⟩ := premises.tree
  have cand0 : candidateAt s [] s.decNode := decNode_of_lone treeInv leaf ▸ candidateAt_root s
  have zeros : (List.replicate j (c, [false])).flatMap Prod.snd ++ true :: rest = chunkBits last s := by
    rw [flatMap_snd_replicate, chunk]
  obtain ⟨p, n, used, bits, cand, split, tail, loop⟩ := decodeLoop_words (j := 0) (written := 0) cand0
    (words := List.replicate j (c, [false])) (fun w mem => by
      rw [List.eq_of_mem_replicate mem]
      exact .inl ⟨leaf, rfl⟩) zeros.symm (by simpa using room)
  obtain ⟨rfl, rfl⟩ := cand.of_lone leaf
  rw [List.nil_append] at tail
  subst tail
  rw [decodeLoop_of_none _ _ _ (decodeStep_lone leaf s.root true)] at loop
  have bit : 0 + used.length = j := by
    have lengths := congrArg List.length (chunk.symm.trans split)
    simp only [List.length_append, List.length_replicate, List.length_cons] at lengths
    omega
  rw [bit] at loop
  exact exec_decode_of_loop_error premises loop

/-! ## The exact-match loop (R194) -/

/-- Where the table maps exactly the codes, the descent emits what the exact-match loop emits, and stands at the node of its
candidate. -/
theorem decodeLoop_eq_matchingLoop {s : State} {tr : Tree} (root : tr.root = s.root) (stored : tr.StoredIn (nodeAt s))
    {look : Bits → Option Byte} (table : ∀ p c, look p = some c ↔ codeIs s c p) {bits p : Bits} {n : Handle}
    (j : Nat) {written : Nat} (cand : candidateAt s p n) (notLone : ∀ c, leafAt s s.root c → true ∉ bits)
    (room : written + (matchingLoop look p bits).1.length ≤ s.dstLen.toNat) :
    ∃ n', decodeLoop s j written n bits = .ok ((matchingLoop look p bits).1, n') ∧
      candidateAt s (matchingLoop look p bits).2 n' := by
  induction bits generalizing p n j written with
  | nil => exact ⟨n, rfl, cand⟩
  | cons b rest ih =>
    have notLone' (c : Byte) (leaf : leafAt s s.root c) : true ∉ rest := fun mem =>
      notLone c leaf (List.mem_cons_of_mem b mem)
    cases found : look (p ++ [b]) with
    | some c =>
      simp only [matchingLoop, found, List.length_cons] at room ⊢
      have step := decodeStep_of_codeIs cand ((table _ _).mp found)
      obtain ⟨n', loop, cand'⟩ := ih (j + 1) (written := written + 1) (candidateAt_root s) notLone' (by omega)
      refine ⟨n', ?_, cand'⟩
      rw [decodeLoop_of_symbol _ _ _ step (by omega), loop]
      rfl
    | none =>
      simp only [matchingLoop, found] at room ⊢
      have zero (c : Byte) (leaf : leafAt s s.root c) : b = false := by
        cases b with
        | false => rfl
        | true => exact absurd List.mem_cons_self (notLone c leaf)
      rcases codeIs_or_candidateAt root stored b cand zero with ⟨c, code⟩ | ⟨m, next⟩
      · cases found.symm.trans ((table _ _).mpr code)
      · obtain ⟨n', loop, cand'⟩ := ih (j + 1) next notLone' room
        exact ⟨n', (decodeLoop_of_descent _ _ _ (decodeStep_of_candidateAt cand next)).trans loop, cand'⟩

/-- While the codes are valid the codes of the tree are the entries that are not empty. -/
theorem codeIs_iff_codeEntry {s : State} (inv : Inv s) (codes : s.codesValid = true) {c : Byte} {p : Bits} :
    codeIs s c p ↔ p ≠ [] ∧ codeEntry s c = .written p := by
  obtain ⟨valid, tr, reads, table⟩ := inv.codes codes
  obtain ⟨root, stored⟩ := storedIn_of_treeOf reads
  rw [codeIs_iff root stored, mem_codeEntries_iff (inv.treeInv valid reads).distinctSymbols, codeEntry, table]

/-- Settles O42: the table maps exactly the codes (`codeIs_iff_codeEntry`), so the bit loop is the exact-match loop
(`decodeLoop_eq_matchingLoop`). -/
theorem descentEqualsTheExactMatchLoop : Obligations.DescentEqualsTheExactMatchLoop := by
  intro last s look p0 premises codes cand notLone table room whole
  obtain ⟨tr, treeInv⟩ := premises.tree
  obtain ⟨root, stored⟩ := storedIn_of_treeOf treeInv.reads
  obtain ⟨n, loop, cand'⟩ := decodeLoop_eq_matchingLoop root stored
    (fun p c => (table p c).trans (codeIs_iff_codeEntry premises.1 codes).symm) 0 (written := 0) cand notLone (by omega)
  have ends (isLast : last = true) : n = s.root := by
    rw [whole isLast] at cand'
    exact cand'.eq_root
  exact ⟨_, exec_decode_of_loop premises loop ends, rfl, storeResult_resultLen_toNat (s := s) room,
    Memory.setBytes_holdsBytes _ _ _, cand'.1⟩

end Sys2Proof.Machine
end

section
/-! ## ENCODE (44_bit_packer.md R170, R172) -/

namespace Sys2Proof.Machine

section
variable {s : State} {i written : Nat} {pk : Bits} {c : Byte} (rest : List Byte)

theorem encodeLoop_of_no_code (none : readCode s c = []) :
    encodeLoop s i written pk (c :: rest) = .error (abortEncode .symbolNotInTable i) := by
  simp only [encodeLoop, none, List.isEmpty_nil, if_true]

theorem encodeLoop_of_no_room (code : readCode s c ≠ [])
    (full : emitBytes s.dstLen.toNat written (pk ++ readCode s c) = none) :
    encodeLoop s i written pk (c :: rest) = .error (abortEncode .dstOverflow i) := by
  simp only [encodeLoop, List.isEmpty_eq_false_iff.mpr code, full, Bool.false_eq_true, if_false]

theorem encodeLoop_of_code {out : List Byte} {pk1 : Bits} (code : readCode s c ≠ [])
    (emitted : emitBytes s.dstLen.toNat written (pk ++ readCode s c) = some (out, pk1)) :
    encodeLoop s i written pk (c :: rest) = emits out (encodeLoop s (i + 1) (written + out.length) pk1 rest) := by
  simp only [encodeLoop, List.isEmpty_eq_false_iff.mpr code, emitted, Bool.false_eq_true, if_false]
  cases encodeLoop s (i + 1) (written + out.length) pk1 rest <;> rfl

end

/-- Symbols that have codes and room go out whole: the loop goes on behind them with their bits in its bytes and register. -/
theorem encodeLoop_symbols {s : State} {syms : List Byte} {i written : Nat} {pk : Bits} (few : pk.length < 8)
    (codes : ∀ c ∈ syms, readCode s c ≠ [])
    (room : written + (pk ++ syms.flatMap (readCode s)).length / 8 ≤ s.dstLen.toNat) :
    ∃ out pk', out.flatMap byteToBits ++ pk' = pk ++ syms.flatMap (readCode s) ∧ pk'.length < 8 ∧
      ∀ after, encodeLoop s i written pk (syms ++ after) =
        emits out (encodeLoop s (i + syms.length) (written + out.length) pk' after) := by
  induction syms generalizing i written pk with
  | nil => exact ⟨[], pk, (List.append_nil pk).symm, few, fun _ => (emits_nil _).symm⟩
  | cons c syms ih =>
    rw [List.flatMap_cons, ← List.append_assoc] at room
    have sum := List.length_append (as := pk ++ readCode s c) (bs := syms.flatMap (readCode s))
    cases emitted : emitBytes s.dstLen.toNat written (pk ++ readCode s c) with
    | none =>
      have := (emitBytes_none_iff (by omega)).mp emitted
      omega
    | some r =>
      obtain ⟨out1, pk1⟩ := r
      obtain ⟨bits1, few1, length1, -⟩ := emitBytes_some emitted
      have sum1 := congrArg List.length bits1
      rw [List.length_append, flatMap_byteToBits_length] at sum1
      obtain ⟨out2, pk2, bits2, few2, loop⟩ := ih (i := i + 1) (written := written + out1.length) few1
        (fun d mem => codes d (List.mem_cons_of_mem c mem)) (by rw [List.length_append]; omega)
      refine ⟨out1 ++ out2, pk2, ?_, few2, fun after => ?_⟩
      · rw [List.flatMap_append, List.append_assoc, bits2, ← List.append_assoc, bits1, List.flatMap_cons,
          List.append_assoc]
      · rw [List.cons_append, encodeLoop_of_code _ (codes c List.mem_cons_self) emitted, loop, emits_emits,
          List.length_append, List.length_cons, Nat.add_assoc i, Nat.add_comm 1, Nat.add_assoc written]

/-! ## What ENCODE answers -/

section
variable {s : State} (codes : s.codesValid = true) (checks : sourceDestError s = none)
include codes checks

theorem exec_encode_of_loop {out : List Byte} {pk : Bits}
    (loop : encodeLoop s 0 0 s.pk (sourceBytes s) = .ok (out, pk)) :
    exec .encode s = .next (complete { storeResult out s with pk := pk }) := by
  simp only [exec, execEncode, encodeBody, codes, checks, loop, Bool.not_true, Bool.false_eq_true, if_false, perform_ok]

theorem exec_encode_of_loop_error {c : ErrCode} {info : Nat}
    (loop : encodeLoop s 0 0 s.pk (sourceBytes s) = .error (abortEncode c info)) :
    ∃ t, exec .encode s = .next t ∧ abortedEncode c.toByte (BitVec.ofNat 32 info) s t := by
  refine ⟨_, ?_, perform_abortEncode c (BitVec.ofNat 32 info) s⟩
  simp only [exec, execEncode, encodeBody, codes, checks, loop, Bool.not_true, Bool.false_eq_true, if_false]
  rfl

end

/-- Settles O33: the symbol loop takes every source symbol (`encodeLoop_symbols`). -/
theorem encodePacksTheCodesInOrder : Obligations.EncodePacksTheCodesInOrder := by
  intro s valid few src dst apart codes room
  obtain ⟨out, pk, bits, few', loop⟩ := encodeLoop_symbols (i := 0) (written := 0) (pk := s.pk) (by omega) codes (by omega)
  have whole := loop []
  simp only [List.append_nil, encodeLoop, emits] at whole
  exact ⟨_, out, exec_encode_of_loop valid (sourceDestError_of_inside src dst apart) whole, rfl,
    Nat.le_of_lt_succ few', bits, Memory.setBytes_holdsBytes _ _ _, Memory.setBytes_sameOutside _ _ _⟩

/-- Settles O34: the symbols before go out (`encodeLoop_symbols`), and the loop ends at the first that has no code or whose
complete bytes have no room. -/
theorem encodeAbortsAtTheFirstBadSymbol : Obligations.EncodeAbortsAtTheFirstBadSymbol := by
  intro s before after c valid few src dst apart source codes room
  have checks := sourceDestError_of_inside src dst apart
  obtain ⟨out, pk, bits, few', loop⟩ := encodeLoop_symbols (i := 0) (written := 0) (pk := s.pk) (by omega) codes (by omega)
  have stops := loop (c :: after)
  rw [← source, Nat.zero_add, Nat.zero_add] at stops
  refine ⟨fun none => ?noCode, fun code full => ?noRoom⟩
  case noCode =>
    rw [encodeLoop_of_no_code after none] at stops
    exact exec_encode_of_loop_error valid checks stops
  case noRoom =>
    have sum := congrArg List.length bits
    simp only [List.flatMap_append, List.flatMap_singleton, List.length_append, flatMap_byteToBits_length]
      at full room sum
    have beyond : emitBytes s.dstLen.toNat out.length (pk ++ readCode s c) = none := by
      rw [emitBytes_none_iff (by omega), List.length_append]
      omega
    rw [encodeLoop_of_no_room after code beyond] at stops
    exact exec_encode_of_loop_error valid checks stops

end Sys2Proof.Machine
end

section
/-! ## DEC_NODE stays at the root or at an internal node (10_state.md R38, R44) -/

namespace Sys2Proof.Machine

theorem Tree.StoredIn.exists_node {look : Handle → Option Node} {tr : Tree} (stored : tr.StoredIn look) :
    ∃ node, look tr.root = some node ∧ (node.isLeaf = false → tr.root ∈ tr.internalHandles) := by
  cases tr with
  | leaf h c =>
    obtain ⟨f, node⟩ := stored
    exact ⟨_, node, fun internal => nomatch internal⟩
  | internal h l r =>
    obtain ⟨⟨f, node⟩, -, -⟩ := stored
    exact ⟨_, node, fun _ => List.mem_cons_self⟩

/-- An internal node of a stored tree has two children there, each a leaf or one of the tree's internal nodes. -/
theorem Tree.StoredIn.exists_child {look : Handle → Option Node} {tr : Tree} (stored : tr.StoredIn look) {x : Handle}
    (mem : x ∈ tr.internalHandles) (b : Bool) : ∃ f l r child, look x = some (.internal f l r) ∧
      look (if b then r else l) = some child ∧ (child.isLeaf = false → (if b then r else l) ∈ tr.internalHandles) := by
  induction tr with
  | leaf h c => cases mem
  | internal h l r ihLeft ihRight =>
    obtain ⟨⟨f, node⟩, storedLeft, storedRight⟩ := stored
    have fromLeft {y : Handle} (mem : y ∈ l.internalHandles) : y ∈ (Tree.internal h l r).internalHandles :=
      List.mem_cons_of_mem h (List.mem_append_left _ mem)
    have fromRight {y : Handle} (mem : y ∈ r.internalHandles) : y ∈ (Tree.internal h l r).internalHandles :=
      List.mem_cons_of_mem h (List.mem_append_right _ mem)
    rw [Tree.internalHandles, List.mem_cons, List.mem_append] at mem
    rcases mem with rfl | mem | mem
    · cases b with
      | false =>
        obtain ⟨child, at_child, internal⟩ := storedLeft.exists_node
        exact ⟨f, _, _, child, node, at_child, fromLeft ∘ internal⟩
      | true =>
        obtain ⟨child, at_child, internal⟩ := storedRight.exists_node
        exact ⟨f, _, _, child, node, at_child, fromRight ∘ internal⟩
    · obtain ⟨f', l', r', child, at_x, at_child, internal⟩ := ihLeft storedLeft mem
      exact ⟨f', l', r', child, at_x, at_child, fromLeft ∘ internal⟩
    · obtain ⟨f', l', r', child, at_x, at_child, internal⟩ := ihRight storedRight mem
      exact ⟨f', l', r', child, at_x, at_child, fromRight ∘ internal⟩

section
variable {s : State} {tr : Tree} (root : tr.root = s.root) (stored : tr.StoredIn (nodeAt s))
include root stored

theorem decodeStep_keeps {n m : Handle} {b : Bool} {emitted : Option Byte}
    (decoder : n = s.root ∨ n ∈ tr.internalHandles) (step : decodeStep s n b = some (emitted, m)) :
    m = s.root ∨ m ∈ tr.internalHandles := by
  cases tr with
  | leaf h c =>
    obtain rfl : h = s.root := root
    rw [decodeStep_lone stored] at step
    cases b with
    | false => cases step; exact decoder
    | true => cases step
  | internal h l r =>
    obtain rfl : h = s.root := root
    have mem : n ∈ (Tree.internal s.root l r).internalHandles := by
      rcases decoder with rfl | mem
      · exact List.mem_cons_self
      · exact mem
    obtain ⟨⟨f0, top⟩, -, -⟩ := id stored
    obtain ⟨f, nl, nr, child, node, at_child, internal⟩ := stored.exists_child mem b
    rw [decodeStep_internal ⟨f0, _, _, top⟩ node at_child] at step
    cases leaf : child.isLeaf with
    | true => rw [leaf, if_pos rfl] at step; cases step; exact .inl rfl
    | false => rw [leaf, if_neg Bool.false_ne_true] at step; cases step; exact .inr (internal leaf)

theorem decodeLoop_keeps {j written : Nat} {n m : Handle} {bits : Bits} {out : List Byte}
    (decoder : n = s.root ∨ n ∈ tr.internalHandles) (loop : decodeLoop s j written n bits = .ok (out, m)) :
    m = s.root ∨ m ∈ tr.internalHandles := by
  induction bits generalizing j written n out with
  | nil => cases loop; exact decoder
  | cons b rest ih =>
    cases step : decodeStep s n b with
    | none => rw [decodeLoop_of_none _ _ _ step] at loop; cases loop
    | some r =>
      obtain ⟨emitted, n1⟩ := r
      have decoder1 := decodeStep_keeps root stored decoder step
      cases emitted with
      | none => rw [decodeLoop_of_descent _ _ _ step] at loop; exact ih decoder1 loop
      | some c =>
        by_cases full : written = s.dstLen.toNat
        · rw [decodeLoop_of_full _ _ _ step full] at loop; cases loop
        · rw [decodeLoop_of_symbol _ _ _ step full] at loop
          cases later : decodeLoop s (j + 1) (written + 1) n1 rest with
          | error e => rw [later] at loop; cases loop
          | ok r => rw [later] at loop; cases loop; exact ih decoder1 later

end

end Sys2Proof.Machine
end

section
/-! ## Every command keeps the invariants (10_state.md R44) -/

namespace Sys2Proof.Machine

theorem sameTree_rejected (code : BitVec 8) (info : Word) (s : State) : SameTree s (rejected code info s) :=
  ⟨rfl, rfl, rfl, rfl, rfl⟩

section
variable {s t : State} (inv : Inv s)
include inv

theorem inv_rejected {code : BitVec 8} (info : Word) (isError : code ≠ 0) : Inv (rejected code info s) :=
  inv.of_sameTree_codes (sameTree_rejected code info s) rfl rfl rfl inv.packer (iff_of_false nofun isError) inv.memory

theorem lmemBounded_exec {i : Instr} (run : exec i s = .next t) : lmemBounded t := by
  obtain ⟨-, -, size, -⟩ := exec_frame run
  exact (exec_stores run).lmemBounded size inv.memory

theorem inv_exec_build (run : exec .build s = .next t) : Inv t := by
  rcases exec_build_cases run with ⟨-, rfl⟩ | ⟨present, rfl⟩
  · exact inv_rejected inv 0 (by decide)
  · have distinct := presentSymbols_nodup s
    obtain ⟨root, nodes, tr, made, builds⟩ := exists_builds distinct present fun c =>
      setWidth_40_lt (readFreq s (256 + c.toNat) c)
    rw [show buildNodes (leafNodes s (presentSymbols s)) = _ from made]
    exact inv_of_installTree inv (builds.treeInv distinct s) (builds.nodes_length_le distinct) rfl

theorem walkedTree_of_inv (valid : s.treeValid = true) : ∃ tr, treeOf s = some tr ∧ walkedTree s = some tr := by
  obtain ⟨tr, treeInv⟩ := inv.tree valid
  exact ⟨tr, treeInv.reads, walkedTree_of_treeOf treeInv.reads⟩

theorem inv_exec_gencodes (run : exec .gencodes s = .next t) : Inv t := by
  rcases exec_gencodes_cases run with ⟨-, rfl⟩ | ⟨tr, valid, walked, rfl⟩
  · exact inv_rejected inv 0 (by decide)
  · obtain ⟨tr', reads, walked'⟩ := walkedTree_of_inv inv valid
    obtain rfl : tr = tr' := Option.some.inj (walked.symm.trans walked')
    exact inv.of_sameTree ⟨rfl, rfl, rfl, rfl, rfl⟩ (fun _ => ⟨valid, tr, reads, rfl⟩)
      (fun _ treeInv => treeInv.decoder) (fun invalid => (inv.noTree invalid).2.2.2) ⟨inv.packer.1, fun _ => rfl⟩
      inv.errors inv.memory

theorem inv_exec_serialize (run : exec .serialize s = .next t) : Inv t := by
  have memory := lmemBounded_exec inv run
  rcases exec_serialize_cases run with ⟨-, rfl⟩ | ⟨-, -, rfl⟩ | ⟨tr, -, -, -, ⟨-, rfl⟩ | ⟨-, rfl⟩⟩
  · exact inv_rejected inv _ (by decide)
  · exact inv_rejected inv _ (by decide)
  · exact inv_rejected inv _ (by decide)
  · exact inv.of_sameTree_codes ⟨rfl, rfl, rfl, rfl, rfl⟩ rfl rfl rfl inv.packer inv.errors memory

theorem inv_exec_deserialize (run : exec .deserialize s = .next t) : Inv t := by
  cases inside : srcRangeOK s with
  | false =>
    obtain rfl := Host.Outcome.next.inj (run.symm.trans (exec_deserialize_of_beyond inside))
    exact inv_rejected inv _ (by decide)
  | true =>
    rcases exec_deserialize_outcomes ((srcRangeOK_iff s).mp inside) with ⟨tr, distinct, run'⟩ | ⟨c, info, -, run'⟩
    · obtain rfl := Host.Outcome.next.inj (run.symm.trans run')
      exact inv_of_installTree inv (treeInv_deserialized distinct s)
        ((Tree.parsedNodes_length tr 0).trans_le (Tree.handles_length_le distinct)) rfl
    · obtain rfl := Host.Outcome.next.inj (run.symm.trans run')
      exact inv_of_noTree rfl rfl ⟨rfl, rfl, rfl, rfl⟩ rfl (iff_of_false nofun c.toByte_ne_zero)
        inv.memory inv.arena

theorem inv_exec_encode (run : exec .encode s = .next t) : Inv t := by
  have memory := lmemBounded_exec inv run
  rcases exec_encode_cases run with ⟨-, rfl⟩ | ⟨e, -, -, rfl⟩ | ⟨codes, -, ⟨e, -, aborted⟩ | ⟨out, pk, loop, rfl⟩⟩
  · exact inv_rejected inv _ (by decide)
  · exact inv_rejected inv _ e.code.toByte_ne_zero
  · obtain ⟨m, rfl⟩ := aborted.frame
    exact inv.of_sameTree_codes ⟨rfl, rfl, rfl, rfl, rfl⟩ rfl rfl rfl ⟨Nat.zero_le _, fun ne => absurd rfl ne⟩
      (iff_of_false nofun e.code.toByte_ne_zero) memory
  · obtain ⟨-, -, few, -⟩ := encodeLoop_ok loop (Nat.lt_succ_of_le inv.packer.1)
    exact inv.of_sameTree_codes ⟨rfl, rfl, rfl, rfl, rfl⟩ rfl rfl rfl ⟨Nat.le_of_lt_succ few, fun _ => codes⟩ inv.errors
      memory

theorem inv_exec_flush (run : exec .flush s = .next t) : Inv t := by
  have memory := lmemBounded_exec inv run
  rcases exec_flush_cases run with ⟨-, rfl⟩ | ⟨-, -, rfl⟩ | ⟨-, -, -, rfl⟩ | ⟨-, -, -, rfl⟩
  · exact inv_rejected inv _ (by decide)
  · exact inv.of_sameTree_codes ⟨rfl, rfl, rfl, rfl, rfl⟩ rfl rfl rfl inv.packer inv.errors memory
  · exact inv_rejected inv _ (by decide)
  · exact inv.of_sameTree_codes ⟨rfl, rfl, rfl, rfl, rfl⟩ rfl rfl rfl ⟨Nat.zero_le _, fun ne => absurd rfl ne⟩ inv.errors
      memory

theorem inv_exec_decode {last : Bool} (run : exec (.decode last) s = .next t) : Inv t := by
  have memory := lmemBounded_exec inv run
  rcases exec_decode_cases run with
    ⟨-, rfl⟩ | ⟨e, -, -, rfl⟩ | ⟨-, -, -, rfl⟩ | ⟨valid, -, -, ⟨e, aborted, -⟩ | ⟨out, n, loop, -, rfl⟩⟩
  · exact inv_rejected inv _ (by decide)
  · exact inv_rejected inv _ e.code.toByte_ne_zero
  · exact inv_rejected inv _ (by decide)
  · obtain ⟨m, rfl⟩ := aborted.frame
    exact inv.of_sameTree ⟨rfl, rfl, rfl, rfl, rfl⟩ inv.codes (fun _ _ => .inl rfl)
      (fun invalid => (inv.noTree invalid).2.2.1) inv.packer
      (iff_of_false nofun e.code.toByte_ne_zero) memory
  · refine inv.of_sameTree ⟨rfl, rfl, rfl, rfl, rfl⟩ inv.codes (fun tr treeInv => ?decoder)
      (fun invalid => nomatch invalid.symm.trans valid) inv.packer inv.errors memory
    obtain ⟨root, stored⟩ := storedIn_of_treeOf treeInv.reads
    exact decodeLoop_keeps root stored treeInv.decoder loop

theorem exec_keeps_inv {i : Instr} (run : exec i s = .next t) : Inv t := by
  cases i with
  | nop =>
    obtain rfl := Host.Outcome.next.inj run
    exact inv.of_sameTree_codes (sameTree_complete s) rfl rfl rfl inv.packer inv.errors inv.memory
  | clear =>
    obtain rfl := Host.Outcome.next.inj run
    exact inv_of_noTree rfl rfl ⟨rfl, rfl, rfl, rfl⟩ rfl inv.errors inv.memory inv.arena
  | build => exact inv_exec_build inv run
  | gencodes => exact inv_exec_gencodes inv run
  | serialize => exact inv_exec_serialize inv run
  | deserialize => exact inv_exec_deserialize inv run
  | encode => exact inv_exec_encode inv run
  | flush => exact inv_exec_flush inv run
  | decode last => exact inv_exec_decode inv run

theorem inv_beginEvent (rest : List Event) : Inv (beginEvent rest s) :=
  inv.of_sameTree_codes ⟨rfl, rfl, rfl, rfl, rfl⟩ rfl rfl rfl inv.packer inv.errors inv.memory

end

/-- What a host access may change leaves the invariants. -/
theorem HostChanges.keeps_inv {s t : State} (changes : HostChanges s t) (inv : Inv s) : Inv t := by
  obtain ⟨-, memory⟩ := changes.lmemBounded inv.memory
  have errors : t.err = false ↔ t.errCode = 0 := by
    rcases changes.record with ⟨err, errCode⟩ | ⟨err, errCode⟩
    · rw [err, errCode]
      exact inv.errors
    · exact iff_of_true err errCode
  have frame := changes.frame
  have pk : t.pk = s.pk := by rw [frame]
  refine inv.of_sameTree_codes ⟨?_, ?_, ?_, ?_, ?_⟩ ?_ ?_ ?_ (pk ▸ inv.packer) errors memory
  all_goals rw [frame]

/-- Settles O7: host accesses change nothing the invariants speak of but LMEM and the error record
(`HostChanges.keeps_inv`), reset clears the tree (`inv_resetBlock`), and each command keeps them (`exec_keeps_inv`). -/
theorem everyStepKeepsTheInvariants : Obligations.EveryStepKeepsTheInvariants := by
  intro s t inv run
  rcases step_cases run with ⟨a, rest, -, legal, rfl⟩ | ⟨rest, -, rfl⟩ |
    ⟨rest, -, ⟨-, rfl⟩ | ⟨w, -, -, rfl⟩ | ⟨w, i, -, -, run⟩⟩
  · exact (hostChanges_performAccess _ legal).keeps_inv (inv_beginEvent inv rest)
  · exact inv_resetBlock _
  · exact inv_beginEvent inv rest
  · exact inv_rejected (inv_beginEvent inv rest) w (by decide)
  · exact exec_keeps_inv (inv_beginEvent inv rest) run

/-! ## No command faults under the invariants, and every command completes (40_control.md R113) -/

theorem exec_serialize_of_walkedTree {s : State} {tr : Tree} (valid : s.treeValid = true) (inside : dstRangeOK s = true)
    (walked : walkedTree s = some tr) : exec .serialize s = .next (perform (serializeBody tr s) s) := by
  simp only [exec, execSerialize, valid, inside, walked, Bool.not_true, Bool.false_eq_true, if_false]

/-- Only GENCODES and SERIALIZE walk the arena, and a valid tree is walked to its end. -/
theorem exec_answers {s : State} (inv : Inv s) (i : Instr) : ∃ t, exec i s = .next t := by
  cases i with
  | gencodes =>
    cases valid : s.treeValid with
    | false => exact ⟨_, exec_gencodes_of_no_tree valid⟩
    | true =>
      obtain ⟨tr, -, walked⟩ := walkedTree_of_inv inv valid
      exact ⟨_, exec_gencodes_of_walkedTree valid walked⟩
  | serialize =>
    cases valid : s.treeValid with
    | false => exact ⟨_, exec_serialize_of_no_tree valid⟩
    | true =>
      obtain ⟨tr, -, walked⟩ := walkedTree_of_inv inv valid
      cases inside : dstRangeOK s with
      | false => exact ⟨_, exec_serialize_of_beyond valid inside⟩
      | true => exact ⟨_, exec_serialize_of_walkedTree valid inside walked⟩
  | _ => exact ⟨_, rfl⟩

/-- With a word pending, legal or not, the engine's turn completes it. -/
theorem engineStep_completes {s : State} {w : Word} (inv : Inv s) (pending : s.pending = some w) :
    ∃ t, engineStep s = .next t ∧ t.pending = none ∧ t.done = true ∧ t.agenda = s.agenda := by
  cases decoded : decodeWord w with
  | ok i =>
    obtain ⟨t, run⟩ := exec_answers inv i
    obtain ⟨completed, done, -⟩ := completionRecordsAtMostOneError i s t run
    obtain ⟨-, -, -, agenda⟩ := exec_frame run
    exact ⟨t, (engineStep_of_ok pending decoded).trans run, completed, done, agenda⟩
  | error e =>
    have illegal : ∀ i, decodeWord w ≠ .ok i := fun i ok => nomatch decoded.symm.trans ok
    exact ⟨_, engineStep_of_not_ok pending illegal, rfl, rfl, rfl⟩

/-- Settles O8: accesses answer where they are legal, reset always, and the engine's turn completes the pending word
(`engineStep_completes`). -/
theorem noStepFaultsUnderTheInvariants : Obligations.NoStepFaultsUnderTheInvariants := by
  intro s inv
  have engine (rest : List Event) (turn : engineNext s rest) : ∃ t, step s = .next t := by
    rw [step_of_engineNext turn]
    cases pending : s.pending with
    | none => exact ⟨_, engineStep_of_idle pending⟩
    | some w =>
      obtain ⟨t, run, -⟩ := engineStep_completes (inv_beginEvent inv rest) pending
      exact ⟨t, run⟩
  cases agenda : s.agenda with
  | nil => exact .inl (engine [] (.inr ⟨agenda, rfl⟩))
  | cons e rest =>
    cases e with
    | engine => exact .inl (engine rest (.inl agenda))
    | reset => exact .inl ⟨_, step_of_reset agenda⟩
    | access a =>
      cases legal : a.legal with
      | true => exact .inl ⟨_, (step_of_access agenda).trans (by rw [hostStep, if_pos legal])⟩
      | false => exact .inr ⟨a, rest, rfl, legal, (step_of_access agenda).trans (by simp [hostStep, legal])⟩

/-- Settles O9: every command answers (`exec_answers`) and completes; a run with a word pending has not ended, and where no
access is left it has after that step. -/
theorem everyAcceptedCommandCompletes : Obligations.EveryAcceptedCommandCompletes := by
  refine ⟨fun i s inv => ?command, fun s w rest inv pending turn => ?step⟩
  case command =>
    obtain ⟨t, run⟩ := exec_answers inv i
    obtain ⟨completed, done, -⟩ := completionRecordsAtMostOneError i s t run
    exact ⟨t, run, completed, done⟩
  case step =>
    obtain ⟨t, run, completed, done, agenda⟩ := engineStep_completes (inv_beginEvent inv rest) pending
    have stepped := (step_of_engineNext turn).trans run
    refine ⟨t, stepped, completed, done, agenda, fun last => ?_⟩
    have running : ¬ RunEnded s := fun ended => nomatch pending.symm.trans ended.2
    have ended : RunEnded t := ⟨(congrArg noAccess agenda).trans last, completed⟩
    exact RunEndsAt.next running stepped (.here ended)

end Sys2Proof.Machine
end

section
/-! ## What ENCODE and FLUSH packed, DECODE unpacks (45_huffman_decoder.md R196) -/

namespace Sys2Proof.Machine

theorem Memory.setBytes_append (m : Memory) (a : Nat) (bytes more : List Byte) :
    Memory.setBytes m a (bytes ++ more) = Memory.setBytes (Memory.setBytes m a bytes) (a + bytes.length) more := by
  induction bytes generalizing m a with
  | nil => rfl
  | cons v bytes ih =>
    rw [List.length_cons, Nat.add_comm bytes.length, ← Nat.add_assoc]
    exact ih _ _

theorem sourceBits_take (s : State) {m n : Nat} (le : m ≤ n) : (sourceBits s n).take m = sourceBits s m := by
  rw [sourceBits, ← List.map_take, List.take_range, Nat.min_eq_left le, sourceBits]

/-- Every symbol that chunks have packed has a code. -/
theorem PackedSoFar.codes {table : Vector (Contents Bits) 256} {S B : List Byte} {s : State}
    (written : ∀ c : Byte, ∃ b, table[c.toNat]'c.isLt = .written b) (packed : PackedSoFar table S B s) :
    ∀ c ∈ S, tableCode table c ≠ [] := by
  induction packed with
  | start s empty => exact List.forall_mem_nil _
  | chunk S B s s' t out before samePk sameCode run ok len bytes ih =>
    subst sameCode
    obtain ⟨-, few⟩ := before.bits written
    obtain ⟨_, _, loop, -⟩ := exec_encode_of_succeeds ok
    obtain ⟨codes, -⟩ := encodeLoop_ok loop (samePk ▸ few)
    intro c mem
    rcases List.mem_append.mp mem with mem | mem
    · exact ih c mem
    · obtain ⟨_, entry⟩ := written c
      rw [← readCode_of_written entry]
      exact codes c mem

/-- DECODE.LAST of bytes that are the codes of some symbols and PAD_IN more bits writes those symbols. -/
theorem exec_decode_of_codes {d : State} {S bytes : List Byte} {code : Byte → Bits} {pad : Bits}
    (premises : decodePremises true d) (atRoot : d.decNode = d.root) (codes : ∀ c ∈ S, codeIs d c (code c))
    (len : d.srcLen.toNat = bytes.length) (holds : holdsBytes d.lmem d.srcAddr.toNat bytes)
    (bits : bytes.flatMap byteToBits = S.flatMap code ++ pad) (padIn : pad.length = d.padIn.toNat)
    (room : S.length ≤ d.dstLen.toNat) :
    exec (.decode true) d = .next (complete { storeResult S d with decNode := d.root }) := by
  have lengths := congrArg List.length bits
  rw [flatMap_byteToBits_length, List.length_append, padIn] at lengths
  have chunk : chunkBits true d = S.flatMap code := by
    have count : 8 * d.srcLen.toNat - d.padIn.toNat = (S.flatMap code).length := by omega
    rw [chunkBits, if_pos rfl, count, ← sourceBits_take d (n := 8 * bytes.length) (by omega),
      sourceBits_of_holdsBytes holds, bits, List.take_left]
  have words : (S.map fun c => (c, code c)).flatMap Prod.snd = S.flatMap code := List.flatMap_map ..
  have loop := decodeLoop_words_candidate (words := S.map fun c => (c, code c)) (candidateAt_root d) (candidateAt_root d)
    (bits := chunkBits true d) (fun w mem => by
      obtain ⟨c, symbol, rfl⟩ := List.mem_map.mp mem
      exact codes c symbol) (by rw [words, chunk, List.nil_append, List.append_nil]) (by simpa using room)
  rw [List.map_map, show Prod.fst ∘ (fun c => (c, code c)) = id from rfl, List.map_id] at loop
  exact exec_decode_of_loop premises (atRoot.symm ▸ loop) fun _ => rfl

/-- DECODE.LAST of a packed stream, under a tree with the code table it was packed with, writes the symbols packed. -/
theorem exec_decode_of_packed {tr : Tree} {S B out : List Byte} {s s' t d : State}
    (packed : PackedSoFar (codeTable tr) S B s) (flush : exec .flush s' = .next t) (ok : succeeds .flush s')
    (samePk : s'.pk = s.pk) (outLen : out.length = t.resultLen.toNat)
    (outBytes : holdsBytes t.lmem t.dstAddr.toNat out) (premises : decodePremises true d) (reads : treeOf d = some tr)
    (atRoot : d.decNode = d.root) (padIn : d.padIn = t.padOut.setWidth 8) (len : d.srcLen.toNat = (B ++ out).length)
    (holds : holdsBytes d.lmem d.srcAddr.toNat (B ++ out)) (room : S.length ≤ d.dstLen.toNat) :
    exec (.decode true) d = .next (complete { storeResult S d with decNode := d.root }) := by
  obtain ⟨root, stored⟩ := storedIn_of_treeOf reads
  obtain ⟨tr', treeInv⟩ := premises.tree
  obtain rfl : tr = tr' := Option.some.inj (reads.symm.trans treeInv.reads)
  have written := exists_codeTable_written tr
  obtain ⟨bits, -, -⟩ := chunkingDoesNotChangeThePackedBytes _ S B s s' t out written packed samePk flush ok outLen
    outBytes
  refine exec_decode_of_codes premises atRoot (fun c mem => ?_) len holds bits ?_ room
  · obtain ⟨p, entry⟩ := written c
    have code : tableCode (codeTable tr) c = p := by rw [tableCode, entry]
    rw [codeIs_iff root stored, mem_codeEntries_iff treeInv.distinctSymbols, entry, code]
    exact ⟨code ▸ packed.codes written c mem, rfl⟩
  · rw [List.length_replicate, padIn, BitVec.toNat_setWidth_of_le (by decide)]

/-! ## ENCODE, FLUSH right behind it, and DECODE.LAST -/

/-- The operand registers are not in the invariants. -/
theorem Inv.withOperands {s : State} (inv : Inv s) (srcAddr srcLen dstAddr dstLen : Word) (padIn : Byte) :
    Inv { s with srcAddr := srcAddr, srcLen := srcLen, dstAddr := dstAddr, dstLen := dstLen, padIn := padIn } :=
  inv.of_sameTree_codes ⟨rfl, rfl, rfl, rfl, rfl⟩ rfl rfl rfl inv.packer inv.errors inv.memory

section
variable {s t : State}

/-- An ENCODE that ends without an error in the record succeeds, with codes and its range in LMEM. -/
theorem succeeds_encode_of_noError (run : exec .encode s = .next t) (noError : t.errCode = 0) : succeeds .encode s ∧
    s.codesValid = true ∧ dstRangeOK s = true := by
  rcases exec_encode_cases run with ⟨-, rfl⟩ | ⟨e, -, -, rfl⟩ | ⟨codes, checks, ⟨e, -, aborted⟩ | ⟨out, pk, loop, -⟩⟩
  · cases noError
  · exact absurd noError e.code.toByte_ne_zero
  · obtain ⟨m, rfl⟩ := aborted.frame
    exact absurd noError e.code.toByte_ne_zero
  · have loop' : encodeLoop (acknowledgeError s) 0 0 s.pk (sourceBytes s) = .ok (out, pk) := by
      rwa [encodeLoop_acknowledgeError]
    exact ⟨⟨_, exec_encode_of_loop (s := acknowledgeError s) codes checks loop', rfl⟩, codes, dstRangeOK_of_checks checks⟩

/-- A FLUSH that ends without an error in the record succeeds, and its range is in LMEM. -/
theorem succeeds_flush_of_noError (run : exec .flush s = .next t) (noError : t.errCode = 0) : succeeds .flush s ∧
    dstRangeOK s = true := by
  rcases exec_flush_cases run with ⟨-, rfl⟩ | ⟨inside, nothing, -⟩ | ⟨-, -, -, rfl⟩ | ⟨inside, bits, room, -⟩
  · cases noError
  · exact ⟨⟨_, exec_flush_of_nothing_pending (s := acknowledgeError s) inside nothing, rfl⟩, inside⟩
  · cases noError
  · exact ⟨⟨_, exec_flush_of_room (s := acknowledgeError s) inside bits room, rfl⟩, inside⟩

end

/-- What ENCODE of `s`, to `t1`, and FLUSH right behind its bytes, to `t2`, leave: a packed stream of one chunk, its bytes in
one piece in LMEM, and the tree as it was. -/
structure PackedBehind (s t1 t2 : State) (tr : Tree) (out1 out2 : List Byte) : Prop where
  reads : treeOf s = some tr
  packed : PackedSoFar (codeTable tr) (sourceBytes s) out1 t1
  flushedLen : out2.length = t2.resultLen.toNat
  flushed : holdsBytes t2.lmem t2.dstAddr.toNat out2
  total : (t1.resultLen + t2.resultLen).toNat = (out1 ++ out2).length
  inside : s.dstAddr.toNat + (out1 ++ out2).length ≤ s.lmemSize.bytes
  bytes : holdsBytes t2.lmem s.dstAddr.toNat (out1 ++ out2)
  padOut : t2.padOut.toNat ≤ 8 * (out1 ++ out2).length
  sameTree : SameTree s t2
  decNode : t2.decNode = s.decNode
  lmemSize : t2.lmemSize = s.lmemSize

theorem exists_packedBehind {s t1 t2 : State} (inv : Inv s) (empty : s.pk = []) (encode : exec .encode s = .next t1)
    (noError1 : t1.errCode = 0)
    (flush : exec .flush { t1 with dstAddr := t1.dstAddr + t1.resultLen, dstLen := 1 } = .next t2)
    (noError2 : t2.errCode = 0) : ∃ tr out1 out2, PackedBehind s t1 t2 tr out1 out2 := by
  obtain ⟨ok1, codes, dstInside⟩ := succeeds_encode_of_noError encode noError1
  obtain ⟨ok2, flushInside⟩ := succeeds_flush_of_noError flush noError2
  obtain ⟨-, tr, reads, table⟩ := inv.codes codes
  obtain ⟨out1, pk, loop, run1⟩ := exec_encode_of_succeeds ok1
  obtain rfl := Host.Outcome.next.inj (encode.symm.trans run1)
  obtain ⟨-, -, few, room1⟩ := encodeLoop_ok loop (by rw [empty]; decide)
  have room1 : out1.length ≤ s.dstLen.toNat := by simpa using room1
  obtain ⟨out2, pad, run2, room2, bits2, -⟩ := exec_flush_of_succeeds few ok2
  obtain rfl := Host.Outcome.next.inj (flush.symm.trans run2)
  have room2 : out2.length ≤ 1 := room2
  have len1 : (storeResult out1 s).resultLen.toNat = out1.length := storeResult_resultLen_toNat room1
  have len2 : (BitVec.ofNat 32 out2.length).toNat = out2.length := Nat.mod_eq_of_lt (by omega)
  have size := (Config.LmemSize.bytes_bounds s.lmemSize).2.2
  have dstInside := (dstRangeOK_iff s).mp dstInside
  have behind : (s.dstAddr + (storeResult out1 s).resultLen).toNat = s.dstAddr.toNat + out1.length := by
    rw [BitVec.toNat_add, len1, Nat.mod_eq_of_lt (by omega)]
  have flushInside : (s.dstAddr + (storeResult out1 s).resultLen).toNat + 1 ≤ s.lmemSize.bytes :=
    (dstRangeOK_iff _).mp flushInside
  have bits2_length := congrArg List.length bits2
  rw [flatMap_byteToBits_length, List.length_append, List.length_replicate] at bits2_length
  refine ⟨tr, out1, out2, {
    reads := reads
    packed := .chunk [] [] s s _ out1 (.start s empty) rfl table encode ok1 len1.symm (Memory.setBytes_holdsBytes _ _ _)
    flushedLen := len2.symm
    flushed := Memory.setBytes_holdsBytes _ _ _
    total := ?total
    inside := by rw [List.length_append]; omega
    bytes := ?bytes
    padOut := ?padOut
    sameTree := ⟨rfl, rfl, rfl, rfl, rfl⟩
    decNode := rfl
    lmemSize := rfl }⟩
  case total =>
    show ((storeResult out1 s).resultLen + BitVec.ofNat 32 out2.length).toNat = _
    rw [BitVec.toNat_add, len1, len2, Nat.mod_eq_of_lt (by omega), List.length_append]
  case bytes =>
    show holdsBytes (Memory.setBytes (Memory.setBytes s.lmem s.dstAddr.toNat out1)
      (s.dstAddr + (storeResult out1 s).resultLen).toNat out2) _ _
    rw [behind, ← Memory.setBytes_append]
    exact Memory.setBytes_holdsBytes _ _ _
  case padOut =>
    show pad.toNat ≤ _
    rw [List.length_append]
    omega

/-- Settles O43: a packed stream decodes to its symbols (`exec_decode_of_packed`), and one ENCODE with a FLUSH right behind
it is a stream of one chunk (`exists_packedBehind`). -/
theorem decodeOfThePackedStreamIsTheSource : Obligations.DecodeOfThePackedStreamIsTheSource := by
  refine ⟨?oneChunk, ?stream⟩
  case oneChunk =>
    intro s t1 t2 da dl inv _ empty atRoot encode noError1 flush noError2 inside room apart
    obtain ⟨-, codes, -⟩ := succeeds_encode_of_noError encode noError1
    obtain ⟨ok2, -⟩ := succeeds_flush_of_noError flush noError2
    obtain ⟨tr, out1, out2, stream⟩ := exists_packedBehind inv empty encode noError1 flush noError2
    have inv1 := exec_keeps_inv inv encode
    have inv2 := exec_keeps_inv (inv1.withOperands t1.srcAddr t1.srcLen _ _ t1.padIn) flush
    have same := stream.sameTree
    have padIn : (t2.padOut.setWidth 8 : Byte).toNat = t2.padOut.toNat := BitVec.toNat_setWidth_of_le (by decide)
    have premises : decodePremises true
        { t2 with
          srcAddr := s.dstAddr, srcLen := t1.resultLen + t2.resultLen, dstAddr := da, dstLen := dl,
          padIn := t2.padOut.setWidth 8 } := by
      refine ⟨inv2.withOperands _ _ _ _ _, same.treeValid.trans (inv.codes codes).1, ?_, ?_, apart, fun _ => ?_⟩
      · show s.dstAddr.toNat + (t1.resultLen + t2.resultLen).toNat ≤ t2.lmemSize.bytes
        rw [stream.total, stream.lmemSize]
        exact stream.inside
      · exact stream.lmemSize ▸ inside
      · show (t2.padOut.setWidth 8 : Byte).toNat ≤ 7 ∧ _ ≤ 8 * (t1.resultLen + t2.resultLen).toNat
        rw [padIn, stream.total]
        exact ⟨Nat.le_of_lt_succ t2.padOut.isLt, stream.padOut⟩
    have decoded := exec_decode_of_packed stream.packed flush ok2 rfl stream.flushedLen stream.flushed premises
      (same.treeOf.trans stream.reads) (stream.decNode.trans (atRoot.trans same.root.symm)) rfl stream.total stream.bytes
      (by rwa [sourceBytes_length])
    refine ⟨_, decoded, noError2, Memory.setBytes_holdsBytes _ _ _, ?_, rfl⟩
    show BitVec.ofNat 32 (sourceBytes s).length = s.srcLen
    rw [sourceBytes_length, BitVec.ofNat_toNat, BitVec.setWidth_eq]
  case stream =>
    intro tr S B out s s' t d packed samePk flush ok outLen outBytes premises reads atRoot padIn len holds room
    exact ⟨_, exec_decode_of_packed packed flush ok samePk outLen outBytes premises reads atRoot padIn len holds room, rfl,
      Memory.setBytes_holdsBytes _ _ _, storeResult_resultLen_toNat room, rfl⟩

end Sys2Proof.Machine
end
